-- ==== Sys2Proof/Word.lean ====
section
/-! DEFINITION. The widths of 00_scope.md R8: the 32-bit word, the byte and the 5-bit register field. -/

namespace Sys2Proof

/-- A 32-bit word: a GPR, the pc, a CSR, an address while it is computed, an instruction (00_scope.md R8). -/
abbrev Word := BitVec 32

/-- A byte of memory, the smallest addressable unit (20_memory.md R101). -/
abbrev Byte := BitVec 8

/-- A register field of an instruction: `rd`, `rj` or `rk`, 5 bits (30_encoding.md R151). -/
abbrev Reg := BitVec 5

end Sys2Proof
end

