-- ==== Sys2Proof/Machine/Flags.lean ====
section
/-! DEFINITION. The hardware has no flags (10_state.md R36): comparisons write a GPR or decide a branch. This file holds
the comparisons and the word a comparison writes. -/

namespace Sys2Proof.Machine

/-- `s(a) < s(b)` (00_scope.md R12). -/
def lessSigned (a b : Word) : Bool := a.toInt < b.toInt
/-- `u(a) < u(b)` (00_scope.md R12). -/
def lessUnsigned (a b : Word) : Bool := a.toNat < b.toNat
/-- The result register of a comparison: `cond ? 1 : 0` (40_integer.md R205). -/
def truthWord (b : Bool) : Word := if b then 1#32 else 0#32

end Sys2Proof.Machine
end

