-- ==== Sys2Proof/Config.lean ====
section
/-! DEFINITION. The parameters of 00_scope.md R9: the platform record (plain data, held in the state so that every
statement is about every platform), the values of the spec's test configuration, and the free values as opaque constants. -/

namespace Sys2Proof

/-- The four operations whose result on a zero divisor is a free value (40_integer.md R226 to R229). -/
inductive DivOp where
  | divW
  | modW
  | divWu
  | modWu
deriving DecidableEq, Repr

/-- `DIVZ(op, a)`: what a division or modulo by zero writes, "of which the model assumes nothing"
(40_integer.md R233). An uninterpreted constant: it has no body (log 5). -/
opaque Config.divz : DivOp → Word → Word

/-- `tick_delta`: the counter ticks of one step, a natural number under no law (10_state.md R76). The argument is the
number of the draw, so two draws may differ (log 4). A platform may fix the ticks instead (`Platform.fixedTick`). -/
opaque Config.tickDelta : Nat → Nat

/-- `dev_read(g, offset)`: the word a device region returns to a read, any value per read (20_memory.md R109). The
first argument is the number of the draw, the others the region's base and the offset (log 4). -/
opaque Config.devRead : Nat → Nat → Nat → Word

/-- What the byte of a region's shadow buffer at this address holds before the router first writes it: device-defined, so
a free value (20_memory.md R110; 70_reset_and_hazards.md R471; log 6). -/
opaque Config.shadowReset : Nat → Byte

/-- `csr_undef_read`: what a read of an unimplemented CSR returns, any value per read (10_state.md R48). The argument
is the number of the draw (log 4). -/
opaque Config.csrUndefRead : Nat → Word

/-- An entry of the region table: a registered address range `[base, base + size)` owned by a device; the name is
diagnostic only (20_memory.md R102). -/
structure Region where
  name : String
  base : Nat
  size : Nat
deriving DecidableEq, Repr

/-- The parameters of one machine that the spec leaves OPEN (00_scope.md R9): the backing-memory range
`[pmemBase, pmemBase + pmemSize)`, the region table, whether BREAK ends the run, and the counter ticks of every step where a
configuration fixes them (60_exceptions.md R452), none where `tick_delta` is a free draw (log 1). No step changes it. -/
structure Platform where
  pmemBase : Nat
  pmemSize : Nat
  regions : List Region
  breakIsHalt : Bool
  fixedTick : Option Nat
deriving DecidableEq, Repr

/-- The test configuration of 70_reset_and_hazards.md R474. DESIGN CHOICE (log 1), unsafe: the spec leaves these
parameters OPEN; only `State.reset` uses this value, no rule of the machine does. -/
def Config.testPlatform : Platform :=
  { pmemBase := 0x1C000000, pmemSize := 0x08000000, regions := [], breakIsHalt := true,
    fixedTick := some 1 }

/-- `RESET_PC`, at the spec's own default (decision D4). DESIGN CHOICE (log 2), unsafe. -/
def Config.resetPc : Word := 0x1C000000#32

end Sys2Proof
end

