-- ==== Sys2Proof/Syntax.lean ====
section
/-! DEFINITION. The instructions: one constructor per row of spec/opcode_table.json, in the catalog order of
30_encoding.md R170, its operands the raw fields of the row's format (30_encoding.md R151) in the assembler's order
(R185). Extension and scaling of an immediate is Machine/Operands.lean's. -/

namespace Sys2Proof

/-- An instruction of the catalog (30_encoding.md R170). The last constructor is the catalog's trailing wildcard
"(invalid)", which keeps the word it stands for (R160, R163). -/
inductive Instr where
  /-- `rdcntvl.w`, format 2R, R340. -/
  | rdcntvlW (rd : Reg)
  /-- `rdcntid.w`, format 2R, R342. -/
  | rdcntidW (rj : Reg)
  /-- `rdcntvh.w`, format 2R, R341. -/
  | rdcntvhW (rd : Reg)
  /-- `add.w`, format 3R, R201. -/
  | addW (rd rj rk : Reg)
  /-- `sub.w`, format 3R, R202. -/
  | subW (rd rj rk : Reg)
  /-- `slt`, format 3R, R205. -/
  | slt (rd rj rk : Reg)
  /-- `sltu`, format 3R, R206. -/
  | sltu (rd rj rk : Reg)
  /-- `nor`, format 3R, R212. -/
  | nor (rd rj rk : Reg)
  /-- `and`, format 3R, R210. -/
  | and (rd rj rk : Reg)
  /-- `or`, format 3R, R211. -/
  | or (rd rj rk : Reg)
  /-- `xor`, format 3R, R213. -/
  | xor (rd rj rk : Reg)
  /-- `sll.w`, format 3R, R217. -/
  | sllW (rd rj rk : Reg)
  /-- `srl.w`, format 3R, R218. -/
  | srlW (rd rj rk : Reg)
  /-- `sra.w`, format 3R, R219. -/
  | sraW (rd rj rk : Reg)
  /-- `mul.w`, format 3R, R223. -/
  | mulW (rd rj rk : Reg)
  /-- `mulh.w`, format 3R, R224. -/
  | mulhW (rd rj rk : Reg)
  /-- `mulh.wu`, format 3R, R225. -/
  | mulhWu (rd rj rk : Reg)
  /-- `div.w`, format 3R, R226. -/
  | divW (rd rj rk : Reg)
  /-- `mod.w`, format 3R, R227. -/
  | modW (rd rj rk : Reg)
  /-- `div.wu`, format 3R, R228. -/
  | divWu (rd rj rk : Reg)
  /-- `mod.wu`, format 3R, R229. -/
  | modWu (rd rj rk : Reg)
  /-- `break`, format CODE15, R351. -/
  | brk (code : BitVec 15)
  /-- `syscall`, format CODE15, R350. -/
  | syscall (code : BitVec 15)
  /-- `slli.w`, format 2RI5, R220. -/
  | slliW (rd rj : Reg) (ui5 : BitVec 5)
  /-- `srli.w`, format 2RI5, R221. -/
  | srliW (rd rj : Reg) (ui5 : BitVec 5)
  /-- `srai.w`, format 2RI5, R222. -/
  | sraiW (rd rj : Reg) (ui5 : BitVec 5)
  /-- `slti`, format 2RI12 (signed), R207. -/
  | slti (rd rj : Reg) (si12 : BitVec 12)
  /-- `sltui`, format 2RI12 (signed), R208. -/
  | sltui (rd rj : Reg) (si12 : BitVec 12)
  /-- `addi.w`, format 2RI12 (signed), R203. -/
  | addiW (rd rj : Reg) (si12 : BitVec 12)
  /-- `andi`, format 2RI12 (unsigned), R214. -/
  | andi (rd rj : Reg) (ui12 : BitVec 12)
  /-- `ori`, format 2RI12 (unsigned), R215. -/
  | ori (rd rj : Reg) (ui12 : BitVec 12)
  /-- `xori`, format 2RI12 (unsigned), R216. -/
  | xori (rd rj : Reg) (ui12 : BitVec 12)
  /-- `csrrd`, format CSR1, R330. -/
  | csrrd (rd : Reg) (csr : BitVec 14)
  /-- `csrwr`, format CSR1, R331. -/
  | csrwr (rd : Reg) (csr : BitVec 14)
  /-- `csrxchg`, format CSR2, R332. -/
  | csrxchg (rd rj : Reg) (csr : BitVec 14)
  /-- `cacop`, format CACOP, R360. -/
  | cacop (code : BitVec 5) (rj : Reg) (si12 : BitVec 12)
  /-- `tlbsrch`, format 0R, R370. -/
  | tlbsrch
  /-- `tlbrd`, format 0R, R371. -/
  | tlbrd
  /-- `tlbwr`, format 0R, R372. -/
  | tlbwr
  /-- `tlbfill`, format 0R, R373. -/
  | tlbfill
  /-- `ertn`, format 0R, R355. -/
  | ertn
  /-- `idle`, format CODE15, R356. -/
  | idle (code : BitVec 15)
  /-- `invtlb`, format INVTLB, R374. -/
  | invtlb (op : BitVec 5) (rj rk : Reg)
  /-- `lu12i.w`, format 1RI20, R204. -/
  | lu12iW (rd : Reg) (si20 : BitVec 20)
  /-- `pcaddu12i`, format 1RI20, R209. -/
  | pcaddu12i (rd : Reg) (si20 : BitVec 20)
  /-- `ll.w`, format 2RI14, R310. -/
  | llW (rd rj : Reg) (si14 : BitVec 14)
  /-- `sc.w`, format 2RI14, R311. -/
  | scW (rd rj : Reg) (si14 : BitVec 14)
  /-- `ld.b`, format 2RI12 (signed), R291. -/
  | ldB (rd rj : Reg) (si12 : BitVec 12)
  /-- `ld.h`, format 2RI12 (signed), R292. -/
  | ldH (rd rj : Reg) (si12 : BitVec 12)
  /-- `ld.w`, format 2RI12 (signed), R293. -/
  | ldW (rd rj : Reg) (si12 : BitVec 12)
  /-- `st.b`, format 2RI12 (signed), R296. -/
  | stB (rd rj : Reg) (si12 : BitVec 12)
  /-- `st.h`, format 2RI12 (signed), R297. -/
  | stH (rd rj : Reg) (si12 : BitVec 12)
  /-- `st.w`, format 2RI12 (signed), R298. -/
  | stW (rd rj : Reg) (si12 : BitVec 12)
  /-- `ld.bu`, format 2RI12 (signed), R294. -/
  | ldBu (rd rj : Reg) (si12 : BitVec 12)
  /-- `ld.hu`, format 2RI12 (signed), R295. -/
  | ldHu (rd rj : Reg) (si12 : BitVec 12)
  /-- `preld`, format PRELD, R299. -/
  | preld (hint : BitVec 5) (rj : Reg) (si12 : BitVec 12)
  /-- `dbar`, format CODE15, R320. -/
  | dbar (code : BitVec 15)
  /-- `ibar`, format CODE15, R321. -/
  | ibar (code : BitVec 15)
  /-- `jirl`, format 2RI16, R269. -/
  | jirl (rd rj : Reg) (offs16 : BitVec 16)
  /-- `b`, format I26, R267. -/
  | b (offs26 : BitVec 26)
  /-- `bl`, format I26, R268. -/
  | bl (offs26 : BitVec 26)
  /-- `beq`, format 2RI16, R261. -/
  | beq (rj rd : Reg) (offs16 : BitVec 16)
  /-- `bne`, format 2RI16, R262. -/
  | bne (rj rd : Reg) (offs16 : BitVec 16)
  /-- `blt`, format 2RI16, R263. -/
  | blt (rj rd : Reg) (offs16 : BitVec 16)
  /-- `bge`, format 2RI16, R264. -/
  | bge (rj rd : Reg) (offs16 : BitVec 16)
  /-- `bltu`, format 2RI16, R265. -/
  | bltu (rj rd : Reg) (offs16 : BitVec 16)
  /-- `bgeu`, format 2RI16, R266. -/
  | bgeu (rj rd : Reg) (offs16 : BitVec 16)
  /-- `(invalid)`, format wildcard, R426. -/
  | invalid (word : Word)
deriving DecidableEq, Repr

end Sys2Proof
end

