-- ==== Sys2Proof/Decode.lean ====
section
/-! DEFINITION. Decode and encode. The catalog is the table of 30_encoding.md R170 in its own order, each row a
pattern, a mask and the operands it extracts; decode is first match wins (R160). The encoder writes each format's
fields in the places of R151. -/

namespace Sys2Proof

/-! ## The fields of a word (30_encoding.md R151, R153) -/

/-- `rd = inst[4:0]`. -/
def fieldRd (w : Word) : Reg := w.extractLsb' 0 5
/-- `rj = inst[9:5]`. -/
def fieldRj (w : Word) : Reg := w.extractLsb' 5 5
/-- `rk = inst[14:10]`. -/
def fieldRk (w : Word) : Reg := w.extractLsb' 10 5
/-- `ui5 = inst[14:10]`. -/
def fieldUi5 (w : Word) : BitVec 5 := w.extractLsb' 10 5
/-- `si12` or `ui12 = inst[21:10]`. -/
def fieldI12 (w : Word) : BitVec 12 := w.extractLsb' 10 12
/-- `si14` or `csr = inst[23:10]`. -/
def fieldI14 (w : Word) : BitVec 14 := w.extractLsb' 10 14
/-- `si20 = inst[24:5]`. -/
def fieldSi20 (w : Word) : BitVec 20 := w.extractLsb' 5 20
/-- `offs16 = inst[25:10]`. -/
def fieldOffs16 (w : Word) : BitVec 16 := w.extractLsb' 10 16
/-- `offs26`: its bits 25:16 are `inst[9:0]`, its bits 15:0 are `inst[25:10]`. -/
def fieldOffs26 (w : Word) : BitVec 26 := w.extractLsb' 0 10 ++ w.extractLsb' 10 16
/-- `code15 = inst[14:0]`. -/
def fieldCode15 (w : Word) : BitVec 15 := w.extractLsb' 0 15
/-- `op5`, `code5` or `hint5 = inst[4:0]`, not a register. -/
def fieldLow5 (w : Word) : BitVec 5 := w.extractLsb' 0 5

/-! ## The catalog -/

/-- A row of the catalog: it matches word `w` when `w & mask = pattern` (30_encoding.md R160); `build` reads the row's
operand fields. -/
structure Row where
  mnemonic : String
  pattern : Word
  mask : Word
  build : Word → Instr

/-- `w & mask = pattern` (30_encoding.md R160). -/
def rowMatches (r : Row) (w : Word) : Bool := w &&& r.mask == r.pattern

/-- Rows 1 to 26 of 30_encoding.md R170: counter reads, three-register operations, BREAK, SYSCALL, immediate shifts. -/
def catalogAlu : List Row := [
  { mnemonic := "rdcntvl.w", pattern := 0x00006000#32, mask := 0xFFFFFFE0#32, build := fun w => .rdcntvlW (fieldRd w) },
  { mnemonic := "rdcntid.w", pattern := 0x00006000#32, mask := 0xFFFFFC1F#32, build := fun w => .rdcntidW (fieldRj w) },
  { mnemonic := "rdcntvh.w", pattern := 0x00006400#32, mask := 0xFFFFFFE0#32, build := fun w => .rdcntvhW (fieldRd w) },
  { mnemonic := "add.w", pattern := 0x00100000#32, mask := 0xFFFF8000#32, build := fun w => .addW (fieldRd w) (fieldRj w) (fieldRk w) },
  { mnemonic := "sub.w", pattern := 0x00110000#32, mask := 0xFFFF8000#32, build := fun w => .subW (fieldRd w) (fieldRj w) (fieldRk w) },
  { mnemonic := "slt", pattern := 0x00120000#32, mask := 0xFFFF8000#32, build := fun w => .slt (fieldRd w) (fieldRj w) (fieldRk w) },
  { mnemonic := "sltu", pattern := 0x00128000#32, mask := 0xFFFF8000#32, build := fun w => .sltu (fieldRd w) (fieldRj w) (fieldRk w) },
  { mnemonic := "nor", pattern := 0x00140000#32, mask := 0xFFFF8000#32, build := fun w => .nor (fieldRd w) (fieldRj w) (fieldRk w) },
  { mnemonic := "and", pattern := 0x00148000#32, mask := 0xFFFF8000#32, build := fun w => .and (fieldRd w) (fieldRj w) (fieldRk w) },
  { mnemonic := "or", pattern := 0x00150000#32, mask := 0xFFFF8000#32, build := fun w => .or (fieldRd w) (fieldRj w) (fieldRk w) },
  { mnemonic := "xor", pattern := 0x00158000#32, mask := 0xFFFF8000#32, build := fun w => .xor (fieldRd w) (fieldRj w) (fieldRk w) },
  { mnemonic := "sll.w", pattern := 0x00170000#32, mask := 0xFFFF8000#32, build := fun w => .sllW (fieldRd w) (fieldRj w) (fieldRk w) },
  { mnemonic := "srl.w", pattern := 0x00178000#32, mask := 0xFFFF8000#32, build := fun w => .srlW (fieldRd w) (fieldRj w) (fieldRk w) },
  { mnemonic := "sra.w", pattern := 0x00180000#32, mask := 0xFFFF8000#32, build := fun w => .sraW (fieldRd w) (fieldRj w) (fieldRk w) },
  { mnemonic := "mul.w", pattern := 0x001C0000#32, mask := 0xFFFF8000#32, build := fun w => .mulW (fieldRd w) (fieldRj w) (fieldRk w) },
  { mnemonic := "mulh.w", pattern := 0x001C8000#32, mask := 0xFFFF8000#32, build := fun w => .mulhW (fieldRd w) (fieldRj w) (fieldRk w) },
  { mnemonic := "mulh.wu", pattern := 0x001D0000#32, mask := 0xFFFF8000#32, build := fun w => .mulhWu (fieldRd w) (fieldRj w) (fieldRk w) },
  { mnemonic := "div.w", pattern := 0x00200000#32, mask := 0xFFFF8000#32, build := fun w => .divW (fieldRd w) (fieldRj w) (fieldRk w) },
  { mnemonic := "mod.w", pattern := 0x00208000#32, mask := 0xFFFF8000#32, build := fun w => .modW (fieldRd w) (fieldRj w) (fieldRk w) },
  { mnemonic := "div.wu", pattern := 0x00210000#32, mask := 0xFFFF8000#32, build := fun w => .divWu (fieldRd w) (fieldRj w) (fieldRk w) },
  { mnemonic := "mod.wu", pattern := 0x00218000#32, mask := 0xFFFF8000#32, build := fun w => .modWu (fieldRd w) (fieldRj w) (fieldRk w) },
  { mnemonic := "break", pattern := 0x002A0000#32, mask := 0xFFFF8000#32, build := fun w => .brk (fieldCode15 w) },
  { mnemonic := "syscall", pattern := 0x002B0000#32, mask := 0xFFFF8000#32, build := fun w => .syscall (fieldCode15 w) },
  { mnemonic := "slli.w", pattern := 0x00408000#32, mask := 0xFFFF8000#32, build := fun w => .slliW (fieldRd w) (fieldRj w) (fieldUi5 w) },
  { mnemonic := "srli.w", pattern := 0x00448000#32, mask := 0xFFFF8000#32, build := fun w => .srliW (fieldRd w) (fieldRj w) (fieldUi5 w) },
  { mnemonic := "srai.w", pattern := 0x00488000#32, mask := 0xFFFF8000#32, build := fun w => .sraiW (fieldRd w) (fieldRj w) (fieldUi5 w) } ]

/-- Rows 27 to 43: compare and logic immediates, CSR instructions, CACOP, TLB, ERTN, IDLE. -/
def catalogSystem : List Row := [
  { mnemonic := "slti", pattern := 0x02000000#32, mask := 0xFFC00000#32, build := fun w => .slti (fieldRd w) (fieldRj w) (fieldI12 w) },
  { mnemonic := "sltui", pattern := 0x02400000#32, mask := 0xFFC00000#32, build := fun w => .sltui (fieldRd w) (fieldRj w) (fieldI12 w) },
  { mnemonic := "addi.w", pattern := 0x02800000#32, mask := 0xFFC00000#32, build := fun w => .addiW (fieldRd w) (fieldRj w) (fieldI12 w) },
  { mnemonic := "andi", pattern := 0x03400000#32, mask := 0xFFC00000#32, build := fun w => .andi (fieldRd w) (fieldRj w) (fieldI12 w) },
  { mnemonic := "ori", pattern := 0x03800000#32, mask := 0xFFC00000#32, build := fun w => .ori (fieldRd w) (fieldRj w) (fieldI12 w) },
  { mnemonic := "xori", pattern := 0x03C00000#32, mask := 0xFFC00000#32, build := fun w => .xori (fieldRd w) (fieldRj w) (fieldI12 w) },
  { mnemonic := "csrrd", pattern := 0x04000000#32, mask := 0xFF0003E0#32, build := fun w => .csrrd (fieldRd w) (fieldI14 w) },
  { mnemonic := "csrwr", pattern := 0x04000020#32, mask := 0xFF0003E0#32, build := fun w => .csrwr (fieldRd w) (fieldI14 w) },
  { mnemonic := "csrxchg", pattern := 0x04000000#32, mask := 0xFF000000#32, build := fun w => .csrxchg (fieldRd w) (fieldRj w) (fieldI14 w) },
  { mnemonic := "cacop", pattern := 0x06000000#32, mask := 0xFFC00000#32, build := fun w => .cacop (fieldLow5 w) (fieldRj w) (fieldI12 w) },
  { mnemonic := "tlbsrch", pattern := 0x06482800#32, mask := 0xFFFFFFFF#32, build := fun _ => .tlbsrch },
  { mnemonic := "tlbrd", pattern := 0x06482C00#32, mask := 0xFFFFFFFF#32, build := fun _ => .tlbrd },
  { mnemonic := "tlbwr", pattern := 0x06483000#32, mask := 0xFFFFFFFF#32, build := fun _ => .tlbwr },
  { mnemonic := "tlbfill", pattern := 0x06483400#32, mask := 0xFFFFFFFF#32, build := fun _ => .tlbfill },
  { mnemonic := "ertn", pattern := 0x06483800#32, mask := 0xFFFFFFFF#32, build := fun _ => .ertn },
  { mnemonic := "idle", pattern := 0x06488000#32, mask := 0xFFFF8000#32, build := fun w => .idle (fieldCode15 w) },
  { mnemonic := "invtlb", pattern := 0x06498000#32, mask := 0xFFFF8000#32, build := fun w => .invtlb (fieldLow5 w) (fieldRj w) (fieldRk w) } ]

/-- Rows 44 to 58: upper immediates, LL.W, SC.W, loads, stores, PRELD, barriers. -/
def catalogMemory : List Row := [
  { mnemonic := "lu12i.w", pattern := 0x14000000#32, mask := 0xFE000000#32, build := fun w => .lu12iW (fieldRd w) (fieldSi20 w) },
  { mnemonic := "pcaddu12i", pattern := 0x1C000000#32, mask := 0xFE000000#32, build := fun w => .pcaddu12i (fieldRd w) (fieldSi20 w) },
  { mnemonic := "ll.w", pattern := 0x20000000#32, mask := 0xFF000000#32, build := fun w => .llW (fieldRd w) (fieldRj w) (fieldI14 w) },
  { mnemonic := "sc.w", pattern := 0x21000000#32, mask := 0xFF000000#32, build := fun w => .scW (fieldRd w) (fieldRj w) (fieldI14 w) },
  { mnemonic := "ld.b", pattern := 0x28000000#32, mask := 0xFFC00000#32, build := fun w => .ldB (fieldRd w) (fieldRj w) (fieldI12 w) },
  { mnemonic := "ld.h", pattern := 0x28400000#32, mask := 0xFFC00000#32, build := fun w => .ldH (fieldRd w) (fieldRj w) (fieldI12 w) },
  { mnemonic := "ld.w", pattern := 0x28800000#32, mask := 0xFFC00000#32, build := fun w => .ldW (fieldRd w) (fieldRj w) (fieldI12 w) },
  { mnemonic := "st.b", pattern := 0x29000000#32, mask := 0xFFC00000#32, build := fun w => .stB (fieldRd w) (fieldRj w) (fieldI12 w) },
  { mnemonic := "st.h", pattern := 0x29400000#32, mask := 0xFFC00000#32, build := fun w => .stH (fieldRd w) (fieldRj w) (fieldI12 w) },
  { mnemonic := "st.w", pattern := 0x29800000#32, mask := 0xFFC00000#32, build := fun w => .stW (fieldRd w) (fieldRj w) (fieldI12 w) },
  { mnemonic := "ld.bu", pattern := 0x2A000000#32, mask := 0xFFC00000#32, build := fun w => .ldBu (fieldRd w) (fieldRj w) (fieldI12 w) },
  { mnemonic := "ld.hu", pattern := 0x2A400000#32, mask := 0xFFC00000#32, build := fun w => .ldHu (fieldRd w) (fieldRj w) (fieldI12 w) },
  { mnemonic := "preld", pattern := 0x2AC00000#32, mask := 0xFFC00000#32, build := fun w => .preld (fieldLow5 w) (fieldRj w) (fieldI12 w) },
  { mnemonic := "dbar", pattern := 0x38720000#32, mask := 0xFFFF8000#32, build := fun w => .dbar (fieldCode15 w) },
  { mnemonic := "ibar", pattern := 0x38728000#32, mask := 0xFFFF8000#32, build := fun w => .ibar (fieldCode15 w) } ]

/-- Rows 59 to 67: jumps and branches. -/
def catalogControl : List Row := [
  { mnemonic := "jirl", pattern := 0x4C000000#32, mask := 0xFC000000#32, build := fun w => .jirl (fieldRd w) (fieldRj w) (fieldOffs16 w) },
  { mnemonic := "b", pattern := 0x50000000#32, mask := 0xFC000000#32, build := fun w => .b (fieldOffs26 w) },
  { mnemonic := "bl", pattern := 0x54000000#32, mask := 0xFC000000#32, build := fun w => .bl (fieldOffs26 w) },
  { mnemonic := "beq", pattern := 0x58000000#32, mask := 0xFC000000#32, build := fun w => .beq (fieldRj w) (fieldRd w) (fieldOffs16 w) },
  { mnemonic := "bne", pattern := 0x5C000000#32, mask := 0xFC000000#32, build := fun w => .bne (fieldRj w) (fieldRd w) (fieldOffs16 w) },
  { mnemonic := "blt", pattern := 0x60000000#32, mask := 0xFC000000#32, build := fun w => .blt (fieldRj w) (fieldRd w) (fieldOffs16 w) },
  { mnemonic := "bge", pattern := 0x64000000#32, mask := 0xFC000000#32, build := fun w => .bge (fieldRj w) (fieldRd w) (fieldOffs16 w) },
  { mnemonic := "bltu", pattern := 0x68000000#32, mask := 0xFC000000#32, build := fun w => .bltu (fieldRj w) (fieldRd w) (fieldOffs16 w) },
  { mnemonic := "bgeu", pattern := 0x6C000000#32, mask := 0xFC000000#32, build := fun w => .bgeu (fieldRj w) (fieldRd w) (fieldOffs16 w) } ]

/-- Row 68: the trailing wildcard, which matches everything not matched earlier (R160). -/
def catalogWildcard : List Row := [
  { mnemonic := "(invalid)", pattern := 0x00000000#32, mask := 0x00000000#32, build := fun w => .invalid w } ]

/-- The whole catalog in declaration order (30_encoding.md R170). -/
def catalog : List Row :=
  catalogAlu ++ (catalogSystem ++ (catalogMemory ++ (catalogControl ++ catalogWildcard)))

/-! ## Decode -/

/-- Why bytes decode to no instruction. -/
inductive DecodeError where
  /-- Fewer than the 4 bytes of an instruction word (30_encoding.md R150). -/
  | truncated
  /-- No row of the catalog matches: the "decode-table inconsistency" of 60_exceptions.md R406, which the trailing
  wildcard makes impossible (`decodeWord_isSome` in Laws/Decode.lean). -/
  | noMatchingRow
deriving DecidableEq, Repr

/-- The instruction of a word: the first row that matches, with its operands (30_encoding.md R160). -/
def decodeWord (w : Word) : Option Instr :=
  (catalog.find? fun r => rowMatches r w).map fun r => r.build w

/-- Four bytes, lowest address first, as the little-endian word they store (30_encoding.md R150; 20_memory.md R114). -/
def wordOfBytes (b0 b1 b2 b3 : Byte) : Word := b3 ++ b2 ++ b1 ++ b0

/-- Decode the instruction at the head of a byte sequence: the instruction and the bytes after it, or a rejection by
name. Total on any bytes. -/
def decode : List Byte → Except DecodeError (Instr × List Byte)
  | b0 :: b1 :: b2 :: b3 :: rest =>
    match decodeWord (wordOfBytes b0 b1 b2 b3) with
    | some i => .ok (i, rest)
    | none => .error .noMatchingRow
  | _ => .error .truncated

/-- The four bytes that store a word, lowest address first (20_memory.md R113). -/
def bytesOfWord (w : Word) : List Byte :=
  [w.extractLsb' 0 8, w.extractLsb' 8 8, w.extractLsb' 16 8, w.extractLsb' 24 8]

/-- The instruction the decoder reads from an instruction whose `nbits` low bits are `w` and whose other bits are zero;
none where no instruction word is that long or the decoder refuses. -/
def decodeTableWord (nbits w : Nat) : Option Instr :=
  if nbits ≤ 32 then
    match decode (bytesOfWord (BitVec.ofNat 32 (w % 2 ^ nbits))) with
    | .ok (i, _) => some i
    | .error _ => none
  else none

/-- No row but the wildcard matches: the word is invalid (30_encoding.md R163). -/
def isInvalidWord (w : Word) : Bool :=
  (catalogAlu ++ (catalogSystem ++ (catalogMemory ++ catalogControl))).all fun r => !rowMatches r w

/-! ## Encode: the formats of 30_encoding.md R151, highest bits first -/

/-- `op[31:10] rj[9:5] rd[4:0]`. -/
def enc2R (m : Word) (rj rd : Reg) : Word := m.extractLsb' 10 22 ++ rj ++ rd
/-- `op[31:15] rk[14:10] rj[9:5] rd[4:0]`; 2RI5 has `ui5` and INVTLB has `op5` in the places of `rk` and `rd`. -/
def enc3R (m : Word) (rk rj rd : Reg) : Word := m.extractLsb' 15 17 ++ rk ++ rj ++ rd
/-- `op[31:22] i12[21:10] rj[9:5] rd[4:0]`; CACOP and PRELD have their code in the place of `rd`. -/
def enc2RI12 (m : Word) (i12 : BitVec 12) (rj rd : Reg) : Word := m.extractLsb' 22 10 ++ i12 ++ rj ++ rd
/-- `op[31:24] i14[23:10] rj[9:5] rd[4:0]`, the layout of CSR1, CSR2 and 2RI14. -/
def enc2RI14 (m : Word) (i14 : BitVec 14) (rj rd : Reg) : Word := m.extractLsb' 24 8 ++ i14 ++ rj ++ rd
/-- `op[31:26] offs16[25:10] rj[9:5] rd[4:0]`. -/
def enc2RI16 (m : Word) (offs : BitVec 16) (rj rd : Reg) : Word := m.extractLsb' 26 6 ++ offs ++ rj ++ rd
/-- `op[31:25] si20[24:5] rd[4:0]`. -/
def enc1RI20 (m : Word) (si20 : BitVec 20) (rd : Reg) : Word := m.extractLsb' 25 7 ++ si20 ++ rd
/-- `op[31:26] offs[15:0] offs[25:16]`. -/
def encI26 (m : Word) (offs : BitVec 26) : Word := m.extractLsb' 26 6 ++ offs.extractLsb' 0 16 ++ offs.extractLsb' 16 10
/-- `op[31:15] code[14:0]`. -/
def encCode15 (m : Word) (code : BitVec 15) : Word := m.extractLsb' 15 17 ++ code

/-- The word of an instruction: its row's pattern with its operand fields in their places. -/
def encodeWord : Instr → Word
  | .rdcntvlW rd => enc2R 0x00006000#32 0#5 rd
  | .rdcntidW rj => enc2R 0x00006000#32 rj 0#5
  | .rdcntvhW rd => enc2R 0x00006400#32 0#5 rd
  | .addW rd rj rk => enc3R 0x00100000#32 rk rj rd
  | .subW rd rj rk => enc3R 0x00110000#32 rk rj rd
  | .slt rd rj rk => enc3R 0x00120000#32 rk rj rd
  | .sltu rd rj rk => enc3R 0x00128000#32 rk rj rd
  | .nor rd rj rk => enc3R 0x00140000#32 rk rj rd
  | .and rd rj rk => enc3R 0x00148000#32 rk rj rd
  | .or rd rj rk => enc3R 0x00150000#32 rk rj rd
  | .xor rd rj rk => enc3R 0x00158000#32 rk rj rd
  | .sllW rd rj rk => enc3R 0x00170000#32 rk rj rd
  | .srlW rd rj rk => enc3R 0x00178000#32 rk rj rd
  | .sraW rd rj rk => enc3R 0x00180000#32 rk rj rd
  | .mulW rd rj rk => enc3R 0x001C0000#32 rk rj rd
  | .mulhW rd rj rk => enc3R 0x001C8000#32 rk rj rd
  | .mulhWu rd rj rk => enc3R 0x001D0000#32 rk rj rd
  | .divW rd rj rk => enc3R 0x00200000#32 rk rj rd
  | .modW rd rj rk => enc3R 0x00208000#32 rk rj rd
  | .divWu rd rj rk => enc3R 0x00210000#32 rk rj rd
  | .modWu rd rj rk => enc3R 0x00218000#32 rk rj rd
  | .brk code => encCode15 0x002A0000#32 code
  | .syscall code => encCode15 0x002B0000#32 code
  | .slliW rd rj ui5 => enc3R 0x00408000#32 ui5 rj rd
  | .srliW rd rj ui5 => enc3R 0x00448000#32 ui5 rj rd
  | .sraiW rd rj ui5 => enc3R 0x00488000#32 ui5 rj rd
  | .slti rd rj si12 => enc2RI12 0x02000000#32 si12 rj rd
  | .sltui rd rj si12 => enc2RI12 0x02400000#32 si12 rj rd
  | .addiW rd rj si12 => enc2RI12 0x02800000#32 si12 rj rd
  | .andi rd rj ui12 => enc2RI12 0x03400000#32 ui12 rj rd
  | .ori rd rj ui12 => enc2RI12 0x03800000#32 ui12 rj rd
  | .xori rd rj ui12 => enc2RI12 0x03C00000#32 ui12 rj rd
  | .csrrd rd csr => enc2RI14 0x04000000#32 csr 0#5 rd
  | .csrwr rd csr => enc2RI14 0x04000020#32 csr 1#5 rd
  | .csrxchg rd rj csr => enc2RI14 0x04000000#32 csr rj rd
  | .cacop code rj si12 => enc2RI12 0x06000000#32 si12 rj code
  | .tlbsrch => 0x06482800#32
  | .tlbrd => 0x06482C00#32
  | .tlbwr => 0x06483000#32
  | .tlbfill => 0x06483400#32
  | .ertn => 0x06483800#32
  | .idle code => encCode15 0x06488000#32 code
  | .invtlb op rj rk => enc3R 0x06498000#32 rk rj op
  | .lu12iW rd si20 => enc1RI20 0x14000000#32 si20 rd
  | .pcaddu12i rd si20 => enc1RI20 0x1C000000#32 si20 rd
  | .llW rd rj si14 => enc2RI14 0x20000000#32 si14 rj rd
  | .scW rd rj si14 => enc2RI14 0x21000000#32 si14 rj rd
  | .ldB rd rj si12 => enc2RI12 0x28000000#32 si12 rj rd
  | .ldH rd rj si12 => enc2RI12 0x28400000#32 si12 rj rd
  | .ldW rd rj si12 => enc2RI12 0x28800000#32 si12 rj rd
  | .stB rd rj si12 => enc2RI12 0x29000000#32 si12 rj rd
  | .stH rd rj si12 => enc2RI12 0x29400000#32 si12 rj rd
  | .stW rd rj si12 => enc2RI12 0x29800000#32 si12 rj rd
  | .ldBu rd rj si12 => enc2RI12 0x2A000000#32 si12 rj rd
  | .ldHu rd rj si12 => enc2RI12 0x2A400000#32 si12 rj rd
  | .preld hint rj si12 => enc2RI12 0x2AC00000#32 si12 rj hint
  | .dbar code => encCode15 0x38720000#32 code
  | .ibar code => encCode15 0x38728000#32 code
  | .jirl rd rj offs16 => enc2RI16 0x4C000000#32 offs16 rj rd
  | .b offs26 => encI26 0x50000000#32 offs26
  | .bl offs26 => encI26 0x54000000#32 offs26
  | .beq rj rd offs16 => enc2RI16 0x58000000#32 offs16 rj rd
  | .bne rj rd offs16 => enc2RI16 0x5C000000#32 offs16 rj rd
  | .blt rj rd offs16 => enc2RI16 0x60000000#32 offs16 rj rd
  | .bge rj rd offs16 => enc2RI16 0x64000000#32 offs16 rj rd
  | .bltu rj rd offs16 => enc2RI16 0x68000000#32 offs16 rj rd
  | .bgeu rj rd offs16 => enc2RI16 0x6C000000#32 offs16 rj rd
  | .invalid word => word

/-- The bytes of an instruction, lowest address first. -/
def encode (i : Instr) : List Byte := bytesOfWord (encodeWord i)

end Sys2Proof
end

