-- ==== Sys2Proof/Machine/Bits.lean ====
section
/-! DEFINITION. Bit fields of a 32-bit word (00_scope.md R10), and extension to 32 bits (R12). -/

namespace Sys2Proof.Machine

/-- The word whose field `[lo+len-1 : lo]` is all ones and whose other bits are zero. -/
def fieldMask (lo len : Nat) : Word := (BitVec.allOnes len).setWidth 32 <<< lo

/-- `v[lo+len-1 : lo] <- f`, the other bits unchanged. -/
def putField (v : Word) (lo len : Nat) (f : BitVec len) : Word :=
  (v &&& ~~~fieldMask lo len) ||| (f.setWidth 32 <<< lo)

/-- `v[i] <- b`, the other bits unchanged. -/
def putBit (v : Word) (i : Nat) (b : Bool) : Word := putField v i 1 (BitVec.ofBool b)

/-- The masked merge `(old & ~mask) | (new & mask)` (10_state.md R49; 43_system.md R332). -/
def merge (mask old new : Word) : Word := (old &&& ~~~mask) ||| (new &&& mask)

/-- `sext_32` of a byte held in the low bits of a word (00_scope.md R12). -/
def sextByte (v : Word) : Word := (v.setWidth 8).signExtend 32
/-- `sext_32` of a half-word held in the low bits of a word. -/
def sextHalf (v : Word) : Word := (v.setWidth 16).signExtend 32
/-- `zext_32` of a byte held in the low bits of a word. -/
def zextByte (v : Word) : Word := (v.setWidth 8).setWidth 32
/-- `zext_32` of a half-word held in the low bits of a word. -/
def zextHalf (v : Word) : Word := (v.setWidth 16).setWidth 32

end Sys2Proof.Machine
end

