-- ==== Sys2Proof/Machine/State.lean ====
section
/-! DEFINITION. The state of the CORE (10_state.md), its fault and refusal reasons, and the state after reset. Plain
data: what the state does is in the other files of this folder. -/

namespace Sys2Proof.Machine

/-- The host-fatal faults of 60_exceptions.md R406. Each is safe: the machine itself aborts there. -/
inductive Fault where
  /-- Raised by the router for a fetch, load, store or host access that lies in no single target
  (20_memory.md R106, R107): the address, the pc of the step and the first and last address of backing memory (a last
  address of 0 at PMEM_BASE = PMEM_SIZE = 0 is the model's choice, log 17). Safe: the spec's own fatal fault. -/
  | outOfBound (address pc : Word) (first last : Nat)
  /-- Raised by the router for a region access that is not 4 bytes wide (20_memory.md R108): address, pc, length. Safe:
  the spec's own fatal fault. -/
  | mmioWidth (address pc : Word) (length : Nat)
  /-- Raised by `register_region` for a malformed registration (60_exceptions.md R457): the region's name, base and
  size. No step raises it. Safe: the spec's own fatal fault. -/
  | malformedRegion (name : String) (base size : Nat)
  /-- Raised by a step whose word matches no row of the catalog. The catalog ends in a wildcard, so no step raises it
  (60_exceptions.md R406). Safe: the spec's own fatal fault. -/
  | decodeTable
deriving DecidableEq, Repr

/-- The refusals of 60_exceptions.md R407: the spec itself gives the step no meaning. -/
inductive Refusal where
  /-- Raised by `exec` for an instruction that has no meaning yet; no arm raises it now. Safe: nothing is claimed. -/
  | notModelled (mnemonic : String)
  /-- Raised by a step that starts with CRMD.DA ≠ 1 or CRMD.PG ≠ 0 (20_memory.md R122). Safe: nothing is claimed. -/
  | mappedMode
  /-- Raised by TLBSRCH, TLBRD, TLBWR, TLBFILL and INVTLB with `op ≤ 6` at PLV0 (43_system.md R370 to R374). Safe:
  nothing is claimed. -/
  | tlbInstruction
deriving DecidableEq, Repr

/-- `status` (10_state.md R81): a step is possible only while `running`; the others are terminal. -/
inductive Status where
  | running
  /-- The run ended at the halting BREAK with this exit code: the source's `trapped(exit_code)` (60_exceptions.md R405). -/
  | halted (exitCode : Word)
  | faulted (reason : Fault)
  | refused (reason : Refusal)
deriving DecidableEq, Repr

/-- The stored bits of the CSRs (10_state.md R42), each under its own name. PGD and TICLR store nothing (R64, R70);
LLBCTL stores KLO only, its ROLLB bit being the LLbit (R71). -/
structure Csrs where
  crmd : Word
  prmd : Word
  euen : Word
  ecfg : Word
  estat : Word
  era : Word
  badv : Word
  eentry : Word
  tlbidx : Word
  tlbehi : Word
  tlbelo0 : Word
  tlbelo1 : Word
  asid : Word
  pgdl : Word
  pgdh : Word
  cpuid : Word
  save0 : Word
  save1 : Word
  save2 : Word
  save3 : Word
  tid : Word
  tcfg : Word
  tval : Word
  llbctl : Word
  tlbrentry : Word
  ctag : Word
  dmw0 : Word
  dmw1 : Word
deriving DecidableEq, Repr

/-- One call of a region's handler (20_memory.md R109, R111): "a model records the write (g, offset, v) as an event
for the device". A region is named by its base address. Reads are recorded too (log 7). -/
inductive DeviceEvent where
  | read (base offset : Nat) (value : Word)
  | write (base offset : Nat) (value : Word)
deriving DecidableEq, Repr

/-- The whole state (10_state.md, collected in R85), with the model's own fields `platform`, `events` and `draws`. -/
structure State where
  /-- r0 to r31 (R30). Entry 0 is the slot an instruction may write and phase D forces back to zero (R31, log 10). -/
  gpr : Vector Word 32
  /-- The address of the current instruction (R37). -/
  pc : Word
  csr : Csrs
  /-- The stable counter, 64 bits (R75). -/
  counter : BitVec 64
  /-- The reservation of LL.W and SC.W (R77). -/
  llbit : Bool
  /-- Whether the countdown timer runs (R78). -/
  timerEn : Bool
  /-- Whether the core waits after IDLE (R79). -/
  idle : Bool
  /-- The external interrupt request lines, indexed by line number (R80, log 8). -/
  lines : BitVec 32
  status : Status
  /-- Backing memory as (address, byte) pairs in the canonical form of `Memory.wf` (20_memory.md R100). -/
  mem : List Host.Cell
  /-- What the router wrote in the regions' shadow buffers, as (address, byte) pairs in the canonical form of `Shadow.wf`;
  `shadowAt` gives the value of every other byte of the buffers (20_memory.md R110, log 6). -/
  shadow : List Host.Cell
  /-- The region handler calls so far, oldest first (20_memory.md R111, log 7). -/
  events : List DeviceEvent
  /-- The parameters of this machine (00_scope.md R9, log 1); no step changes them. -/
  platform : Platform
  /-- How many free values the run has drawn (log 4). -/
  draws : Nat
deriving DecidableEq, Repr

/-- The CSRs after reset (10_state.md R85): CRMD.DA = 1, every other stored bit 0. -/
def Csrs.reset : Csrs :=
  { crmd := 0x00000008#32, prmd := 0#32, euen := 0#32, ecfg := 0#32, estat := 0#32, era := 0#32, badv := 0#32,
    eentry := 0#32, tlbidx := 0#32, tlbehi := 0#32, tlbelo0 := 0#32, tlbelo1 := 0#32, asid := 0#32, pgdl := 0#32,
    pgdh := 0#32, cpuid := 0#32, save0 := 0#32, save1 := 0#32, save2 := 0#32, save3 := 0#32, tid := 0#32,
    tcfg := 0#32, tval := 0#32, llbctl := 0#32, tlbrentry := 0#32, ctag := 0#32, dmw0 := 0#32, dmw1 := 0#32 }

/-- The state after reset of a machine with this platform and reset vector (70_reset_and_hazards.md R470, R471). -/
def State.resetOf (p : Platform) (resetPc : Word) : State :=
  { gpr := Vector.replicate 32 0#32, pc := resetPc, csr := Csrs.reset, counter := 0#64, llbit := false,
    timerEn := false, idle := false, lines := 0#32, status := .running, mem := [], shadow := [], events := [],
    platform := p, draws := 0 }

/-- The machine right after reset (70_reset_and_hazards.md R470), in the test configuration of R474 (log 1, log 2). -/
def State.reset : State := State.resetOf Config.testPlatform Config.resetPc

end Sys2Proof.Machine
end

