-- ==== Sys2Proof/Machine/Csr.lean ====
section
/-! DEFINITION. The CSR file: the 30 implemented numbers (10_state.md R42), their masks (R49), the read rule (R48) and
the write rule (R49), and the fields other rules name (R50 to R74). -/

namespace Sys2Proof.Machine

/-- The implemented CSRs (10_state.md R42). -/
inductive Csr where
  | crmd | prmd | euen | ecfg | estat | era | badv | eentry
  | tlbidx | tlbehi | tlbelo0 | tlbelo1 | asid | pgdl | pgdh | pgd
  | cpuid | save0 | save1 | save2 | save3 | tid | tcfg | tval | ticlr
  | llbctl | tlbrentry | ctag | dmw0 | dmw1
deriving DecidableEq, Repr

/-- The CSR number (10_state.md R42). -/
def csrNumber : Csr → BitVec 14
  | .crmd => 0x000 | .prmd => 0x001 | .euen => 0x002 | .ecfg => 0x004 | .estat => 0x005 | .era => 0x006
  | .badv => 0x007 | .eentry => 0x00C | .tlbidx => 0x010 | .tlbehi => 0x011 | .tlbelo0 => 0x012 | .tlbelo1 => 0x013
  | .asid => 0x018 | .pgdl => 0x019 | .pgdh => 0x01A | .pgd => 0x01B | .cpuid => 0x020 | .save0 => 0x030
  | .save1 => 0x031 | .save2 => 0x032 | .save3 => 0x033 | .tid => 0x040 | .tcfg => 0x041 | .tval => 0x042
  | .ticlr => 0x044 | .llbctl => 0x060 | .tlbrentry => 0x088 | .ctag => 0x098 | .dmw0 => 0x180 | .dmw1 => 0x181

/-- Every implemented CSR, in the order of 10_state.md R42. -/
def allCsrs : List Csr :=
  [.crmd, .prmd, .euen, .ecfg, .estat, .era, .badv, .eentry, .tlbidx, .tlbehi, .tlbelo0, .tlbelo1, .asid, .pgdl,
   .pgdh, .pgd, .cpuid, .save0, .save1, .save2, .save3, .tid, .tcfg, .tval, .ticlr, .llbctl, .tlbrentry, .ctag,
   .dmw0, .dmw1]

/-- The CSR a number names; none for an unimplemented number (10_state.md R41). -/
def csrOfNumber (n : BitVec 14) : Option Csr := allCsrs.find? fun c => csrNumber c == n

/-- `WMASK[n]`, the RW bits (10_state.md R49). -/
def csrWmask : Csr → Word
  | .crmd => 0x000001FF | .prmd => 0x00000007 | .euen => 0x00000001 | .ecfg => 0x00001BFF | .estat => 0x00000003
  | .era => 0xFFFFFFFF | .badv => 0xFFFFFFFF | .eentry => 0xFFFFFFC0 | .tlbidx => 0xBF00000F | .tlbehi => 0xFFFFE000
  | .tlbelo0 => 0x0FFFFF7F | .tlbelo1 => 0x0FFFFF7F | .asid => 0x000003FF | .pgdl => 0xFFFFF000 | .pgdh => 0xFFFFF000
  | .pgd => 0x00000000 | .cpuid => 0x00000000 | .save0 => 0xFFFFFFFF | .save1 => 0xFFFFFFFF | .save2 => 0xFFFFFFFF
  | .save3 => 0xFFFFFFFF | .tid => 0xFFFFFFFF | .tcfg => 0xFFFFFFFF | .tval => 0x00000000 | .ticlr => 0x00000000
  | .llbctl => 0x00000004 | .tlbrentry => 0xFFFFFFC0 | .ctag => 0xFFFFFFFF | .dmw0 => 0xEE000039 | .dmw1 => 0xEE000039

/-- The stored read-only (`R`) bits, which the hardware maintains: ESTAT's IS[12:2] without bit 10, Ecode and EsubCode
(10_state.md R54), CPUID.CoreID (R65), TVAL (R69). -/
def csrHwMask : Csr → Word
  | .estat => 0x7FFF1BFC | .cpuid => 0x000001FF | .tval => 0xFFFFFFFF
  | .crmd => 0 | .prmd => 0 | .euen => 0 | .ecfg => 0 | .era => 0 | .badv => 0 | .eentry => 0 | .tlbidx => 0
  | .tlbehi => 0 | .tlbelo0 => 0 | .tlbelo1 => 0 | .asid => 0 | .pgdl => 0 | .pgdh => 0 | .pgd => 0 | .save0 => 0
  | .save1 => 0 | .save2 => 0 | .save3 => 0 | .tid => 0 | .tcfg => 0 | .ticlr => 0 | .llbctl => 0 | .tlbrentry => 0
  | .ctag => 0 | .dmw0 => 0 | .dmw1 => 0

/-- The bits of a CSR that are stored: RW and stored R; every other bit reads 0 or is computed (10_state.md R43). -/
def csrStoredMask (c : Csr) : Word := csrWmask c ||| csrHwMask c

/-- The stored bits of a CSR; PGD and TICLR have none. -/
def csrStored (r : Csrs) : Csr → Word
  | .crmd => r.crmd | .prmd => r.prmd | .euen => r.euen | .ecfg => r.ecfg | .estat => r.estat | .era => r.era
  | .badv => r.badv | .eentry => r.eentry | .tlbidx => r.tlbidx | .tlbehi => r.tlbehi | .tlbelo0 => r.tlbelo0
  | .tlbelo1 => r.tlbelo1 | .asid => r.asid | .pgdl => r.pgdl | .pgdh => r.pgdh | .pgd => 0 | .cpuid => r.cpuid
  | .save0 => r.save0 | .save1 => r.save1 | .save2 => r.save2 | .save3 => r.save3 | .tid => r.tid | .tcfg => r.tcfg
  | .tval => r.tval | .ticlr => 0 | .llbctl => r.llbctl | .tlbrentry => r.tlbrentry | .ctag => r.ctag
  | .dmw0 => r.dmw0 | .dmw1 => r.dmw1

/-- `stored[n] <- v`. -/
def csrStore (r : Csrs) (c : Csr) (v : Word) : Csrs :=
  match c with
  | .crmd => { r with crmd := v } | .prmd => { r with prmd := v } | .euen => { r with euen := v }
  | .ecfg => { r with ecfg := v } | .estat => { r with estat := v } | .era => { r with era := v }
  | .badv => { r with badv := v } | .eentry => { r with eentry := v } | .tlbidx => { r with tlbidx := v }
  | .tlbehi => { r with tlbehi := v } | .tlbelo0 => { r with tlbelo0 := v } | .tlbelo1 => { r with tlbelo1 := v }
  | .asid => { r with asid := v } | .pgdl => { r with pgdl := v } | .pgdh => { r with pgdh := v } | .pgd => r
  | .cpuid => { r with cpuid := v } | .save0 => { r with save0 := v } | .save1 => { r with save1 := v }
  | .save2 => { r with save2 := v } | .save3 => { r with save3 := v } | .tid => { r with tid := v }
  | .tcfg => { r with tcfg := v } | .tval => { r with tval := v } | .ticlr => r | .llbctl => { r with llbctl := v }
  | .tlbrentry => { r with tlbrentry := v } | .ctag => { r with ctag := v } | .dmw0 => { r with dmw0 := v }
  | .dmw1 => { r with dmw1 := v }

/-- The read-only bits computed at a read: ASIDBITS = 10 (10_state.md R61), PGD from BADV, PGDL and PGDH (R64), ROLLB
(R71). -/
def csrComputed (c : Csr) (s : State) : Word :=
  match c with
  | .asid => 0x000A0000
  | .pgd => (if s.csr.badv.getLsbD 31 then s.csr.pgdh else s.csr.pgdl) &&& 0xFFFFF000
  | .llbctl => if s.llbit then 1 else 0
  | .crmd => 0 | .prmd => 0 | .euen => 0 | .ecfg => 0 | .estat => 0 | .era => 0 | .badv => 0 | .eentry => 0
  | .tlbidx => 0 | .tlbehi => 0 | .tlbelo0 => 0 | .tlbelo1 => 0 | .pgdl => 0 | .pgdh => 0 | .cpuid => 0 | .save0 => 0
  | .save1 => 0 | .save2 => 0 | .save3 => 0 | .tid => 0 | .tcfg => 0 | .tval => 0 | .ticlr => 0 | .tlbrentry => 0
  | .ctag => 0 | .dmw0 => 0 | .dmw1 => 0

/-- `csr_read` of an implemented CSR: stored bits, computed bits, zeros (10_state.md R48). No side effect. -/
def csrValue (c : Csr) (s : State) : Word := (csrStored s.csr c &&& csrStoredMask c) ||| csrComputed c s

/-- `csr_read(n)` (10_state.md R48): the value and the state, in which only the draw counter has moved, and only for an
unimplemented number. -/
def csrRead (n : BitVec 14) (s : State) : Word × State :=
  match csrOfNumber n with
  | some c => (csrValue c s, s)
  | none => (Config.csrUndefRead s.draws, { s with draws := s.draws + 1 })

/-- The side effects of a CSR write of `v`, after the store (10_state.md R49, R68, R70, R71). -/
def csrSideEffect (c : Csr) (v : Word) (s : State) : State :=
  match c with
  | .tcfg => { s with csr := { s.csr with tval := v &&& 0xFFFFFFFC }, timerEn := v.getLsbD 0 }
  | .ticlr => if v.getLsbD 0 then { s with csr := { s.csr with estat := putBit s.csr.estat 11 false } } else s
  | .llbctl => if v.getLsbD 1 then { s with llbit := false } else s
  | .crmd => s | .prmd => s | .euen => s | .ecfg => s | .estat => s | .era => s | .badv => s | .eentry => s
  | .tlbidx => s | .tlbehi => s | .tlbelo0 => s | .tlbelo1 => s | .asid => s | .pgdl => s | .pgdh => s | .pgd => s
  | .cpuid => s | .save0 => s | .save1 => s | .save2 => s | .save3 => s | .tid => s | .tval => s | .tlbrentry => s
  | .ctag => s | .dmw0 => s | .dmw1 => s

/-- `csr_write(n, v)` (10_state.md R49): the RW bits are replaced, then the side effects; nothing for an unimplemented
number. -/
def csrWrite (n : BitVec 14) (v : Word) (s : State) : State :=
  match csrOfNumber n with
  | some c => csrSideEffect c v { s with csr := csrStore s.csr c (merge (csrWmask c) (csrStored s.csr c) v) }
  | none => s

/-! ## The fields other rules name -/

/-- CRMD.PLV (10_state.md R50). -/
def crmdPlv (s : State) : BitVec 2 := s.csr.crmd.extractLsb' 0 2
/-- CRMD.IE (10_state.md R50). -/
def crmdIe (s : State) : Bool := s.csr.crmd.getLsbD 2
/-- CRMD.DA (10_state.md R50). -/
def crmdDa (s : State) : Bool := s.csr.crmd.getLsbD 3
/-- CRMD.PG (10_state.md R50). -/
def crmdPg (s : State) : Bool := s.csr.crmd.getLsbD 4
/-- LLBCTL.KLO (10_state.md R71). -/
def llbctlKlo (s : State) : Bool := s.csr.llbctl.getLsbD 2
/-- TCFG.Periodic (10_state.md R68). -/
def tcfgPeriodic (s : State) : Bool := s.csr.tcfg.getLsbD 1

/-- `INT_MASK`, the interrupt bits of ESTAT (10_state.md R54). -/
def intMask : Word := 0x00001BFF

/-- `ESTAT.IS & ECFG.LIE & INT_MASK` (60_exceptions.md R430). -/
def enabledPending (s : State) : Word := s.csr.estat &&& s.csr.ecfg &&& intMask

end Sys2Proof.Machine
end

