-- ==== Sys2Proof/Machine/Ops.lean ====
section
/-! DEFINITION. The named operations over registers, memory and the exception state: the GPR file (10_state.md R30 to
R34), the pc (R37 to R40), backing memory, regions and the router (20_memory.md R100 to R117), taking an exception and
returning from one (60_exceptions.md R412; 43_system.md R355). -/

namespace Sys2Proof.Machine

/-- What a step or a meaning answers. -/
abbrev Result := Host.Outcome State Fault Refusal

/-! ## General registers and pc -/

/-- `x[r]`: every read of `x[0]` returns 0 (10_state.md R32). -/
def readReg (s : State) (r : Reg) : Word := if r = 0#5 then 0#32 else s.gpr[r.toNat]

/-- `x[r] <- v`. A write of r0 lands in its slot, which `readReg` never shows and phase D zeroes (10_state.md R31,
log 10). -/
def writeReg (r : Reg) (v : Word) (s : State) : State := { s with gpr := s.gpr.set r.toNat v r.isLt }

/-- Phase D's "general register 0 is forced back to zero" (60_exceptions.md R402). -/
def zeroR0 (s : State) : State := { s with gpr := s.gpr.set 0 0#32 }

/-- `pc + 4` modulo 2^32: `snpc` (10_state.md R37, R40). -/
def snpc (s : State) : Word := s.pc + 4#32

/-- `dnpc <- snpc`: what an instruction that says nothing of the pc does (10_state.md R38, log 9). -/
def advance (s : State) : State := { s with pc := snpc s }

/-- `pc <- target`: the step's decided next address (00_scope.md R11, log 9). -/
def jumpTo (target : Word) (s : State) : State := { s with pc := target }

/-! ## Bytes -/

/-- The byte listed at an address, if any. -/
def cellAt : List Host.Cell → Nat → Option Byte
  | [], _ => none
  | (b, v) :: rest, a => if a = b then some v else cellAt rest a

/-- List the byte `v` at address `a`, keeping the addresses rising. -/
def cellPut : List Host.Cell → Nat → Byte → List Host.Cell
  | [], a, v => [(a, v)]
  | (b, w) :: rest, a, v =>
    if a < b then (a, v) :: (b, w) :: rest
    else if a = b then (a, v) :: rest
    else (b, w) :: cellPut rest a v

/-- List no byte at address `a`. -/
def cellDrop : List Host.Cell → Nat → List Host.Cell
  | [], _ => []
  | (b, w) :: rest, a => if a = b then cellDrop rest a else (b, w) :: cellDrop rest a

/-- What an unlisted byte of backing memory reads as: `init_mem` with nothing loaded (70_reset_and_hazards.md R471: a
model "may take them as 0 or as free values"). DESIGN CHOICE (log 3), unsafe. -/
def unlistedByte : Byte := 0#8

/-- The canonical form of backing memory: addresses strictly rising, no byte equal to what an unlisted one reads as. -/
def Memory.wf : List Host.Cell → Bool
  | [] => true
  | (a, v) :: rest => v != unlistedByte && rest.all (fun c => a < c.1) && Memory.wf rest

/-- The canonical form of the shadow buffers: addresses strictly rising. -/
def Shadow.wf : List Host.Cell → Bool
  | [] => true
  | (a, _) :: rest => rest.all (fun c => a < c.1) && Shadow.wf rest

/-- One byte of backing memory. -/
def memByte (mem : List Host.Cell) (a : Nat) : Byte := (cellAt mem a).getD unlistedByte

/-- Store one byte of backing memory, keeping the canonical form. -/
def memSetByte (mem : List Host.Cell) (a : Nat) (v : Byte) : List Host.Cell :=
  if v = unlistedByte then cellDrop mem a else cellPut mem a v

/-- `n` bytes from address `a`, little-endian: byte `i` holds bits `8i+7:8i` (20_memory.md R104, R105). -/
def memReadBytes (mem : List Host.Cell) (a : Nat) : Nat → Word
  | 0 => 0#32
  | n + 1 => (memByte mem a).setWidth 32 ||| (memReadBytes mem (a + 1) n <<< 8)

/-- The low `n` bytes of `v` stored from address `a`, little-endian (20_memory.md R104, R105). -/
def memWriteBytes (mem : List Host.Cell) (a : Nat) (v : Word) : Nat → List Host.Cell
  | 0 => mem
  | n + 1 => memSetByte (memWriteBytes mem (a + 1) (v >>> 8) n) a (v.setWidth 8)

/-- The byte of the shadow buffers at an address: the byte the router wrote last, else the free value that the device put
there (20_memory.md R110; log 6). -/
def shadowAt (shadow : List Host.Cell) (a : Nat) : Byte := (cellAt shadow a).getD (Config.shadowReset a)

/-- The low `n` bytes of `v` listed in the shadow buffers from address `a`, little-endian (20_memory.md R111). -/
def shadowWriteBytes (shadow : List Host.Cell) (a : Nat) (v : Word) : Nat → List Host.Cell
  | 0 => shadow
  | n + 1 => cellPut (shadowWriteBytes shadow (a + 1) (v >>> 8) n) a (v.setWidth 8)

/-! ## The router -/

/-- The lengths an access may have (20_memory.md R104). -/
inductive Width where
  | byte
  | half
  | word
deriving DecidableEq, Repr

/-- The number of bytes of an access: 1, 2 or 4. -/
def widthBytes : Width → Nat
  | .byte => 1
  | .half => 2
  | .word => 4

/-- The whole byte range `[a, a+n-1]` lies in backing memory (20_memory.md R104, R107). -/
def inBacking (p : Platform) (a n : Nat) : Bool := p.pmemBase ≤ a && a + n - 1 < p.pmemBase + p.pmemSize

/-- The first region that holds the whole byte range `[a, a+n-1]` (20_memory.md R104). -/
def regionOf (p : Platform) (a n : Nat) : Option Region :=
  p.regions.find? fun g => g.base ≤ a && a + n - 1 < g.base + g.size

/-- A region's shadow buffer: `size` bytes, the byte at `offset` standing at the address `base + offset`
(20_memory.md R110). -/
def shadowBuffer (g : Region) (s : State) : List Byte :=
  (List.range g.size).map fun offset => shadowAt s.shadow (g.base + offset)

/-- The out-of-bound fault: the address, the step's pc, the configured range (20_memory.md R106). DESIGN CHOICE (log 17),
unsafe: with PMEM_BASE = PMEM_SIZE = 0, which R100 allows, PMEM_BASE + PMEM_SIZE - 1 is no address; the subtraction of
natural numbers then reports 0, although no byte is valid. -/
def outOfBound (a : Word) (s : State) : Fault :=
  .outOfBound a s.pc s.platform.pmemBase (s.platform.pmemBase + s.platform.pmemSize - 1)

/-- A region read: the handler is called and the word it latched, the draw `dev_read`, is returned; the shadow buffer
then holds that word (20_memory.md R108, R109). DESIGN CHOICE (log 6): the other bytes of the buffer stay as they were,
though the handler may update them too (R110); DESIGN CHOICE (log 7): the call is recorded. -/
def regionRead (g : Region) (a : Word) (w : Width) (s : State) : Except Fault (Word × State) :=
  match w with
  | .word =>
    let off := a.toNat - g.base
    let v := Config.devRead s.draws g.base off
    .ok (v, { s with shadow := shadowWriteBytes s.shadow a.toNat v 4
                     events := s.events ++ [.read g.base off v]
                     draws := s.draws + 1 })
  | .byte => .error (.mmioWidth a s.pc 1)
  | .half => .error (.mmioWidth a s.pc 2)

/-- A region write: the bytes go to the shadow buffer, then the handler is called (20_memory.md R108, R111). -/
def regionWrite (g : Region) (a : Word) (w : Width) (v : Word) (s : State) : Except Fault State :=
  match w with
  | .word =>
    .ok { s with shadow := shadowWriteBytes s.shadow a.toNat v 4
                 events := s.events ++ [.write g.base (a.toNat - g.base) v] }
  | .byte => .error (.mmioWidth a s.pc 1)
  | .half => .error (.mmioWidth a s.pc 2)

/-- `MemRead(a, n)`: the router's read (00_scope.md R13; 20_memory.md R104). The value is zero-extended to a word. -/
def memRead (a : Word) (w : Width) (s : State) : Except Fault (Word × State) :=
  if inBacking s.platform a.toNat (widthBytes w) then .ok (memReadBytes s.mem a.toNat (widthBytes w), s)
  else
    match regionOf s.platform a.toNat (widthBytes w) with
    | some g => regionRead g a w s
    | none => .error (outOfBound a s)

/-- `MemWrite(a, n, v)`: the router's write of the low bytes of `v` (00_scope.md R13; 20_memory.md R104). -/
def memWrite (a : Word) (w : Width) (v : Word) (s : State) : Except Fault State :=
  if inBacking s.platform a.toNat (widthBytes w) then
    .ok { s with mem := memWriteBytes s.mem a.toNat v (widthBytes w) }
  else
    match regionOf s.platform a.toNat (widthBytes w) with
    | some g => regionWrite g a w v s
    | none => .error (outOfBound a s)

/-! ## Exceptions -/

/-- The exception causes of 60_exceptions.md R419. PIL, PIS, PIF, PME, PPI, ADEM, FPD, FPE and TLBR are never raised
(R423). -/
inductive ExcName where
  | int | pil | pis | pif | pme | ppi | adef | adem | ale | sys | brk | ine | ipe | fpd | fpe | tlbr
deriving DecidableEq, Repr

/-- The Ecode of a cause (60_exceptions.md R419). -/
def ecode : ExcName → BitVec 6
  | .int => 0x0 | .pil => 0x1 | .pis => 0x2 | .pif => 0x3 | .pme => 0x4 | .ppi => 0x7 | .adef => 0x8 | .adem => 0x8
  | .ale => 0x9 | .sys => 0xB | .brk => 0xC | .ine => 0xD | .ipe => 0xE | .fpd => 0xF | .fpe => 0x12 | .tlbr => 0x3F

/-- The EsubCode of a cause (60_exceptions.md R419). -/
def esubcode : ExcName → BitVec 9
  | .adem => 1
  | .int => 0 | .pil => 0 | .pis => 0 | .pif => 0 | .pme => 0 | .ppi => 0 | .adef => 0 | .ale => 0 | .sys => 0
  | .brk => 0 | .ine => 0 | .ipe => 0 | .fpd => 0 | .fpe => 0 | .tlbr => 0

/-- An exception to take: its cause and the BADV value, used only by a cause that records one (00_scope.md R14). -/
structure Cause where
  name : ExcName
  badv : Word
deriving DecidableEq, Repr

/-- The mode bits saved at entry: PRMD.PPLV and PRMD.PIE from CRMD.PLV and CRMD.IE (60_exceptions.md R412). -/
def savedMode (s : State) : Word := putBit (putField s.csr.prmd 0 2 (crmdPlv s)) 2 (crmdIe s)

/-- CRMD in a handler: PLV 0, IE 0, the other bits unchanged (60_exceptions.md R412). -/
def handlerMode (s : State) : Word := putBit (putField s.csr.crmd 0 2 0#2) 2 false

/-- ESTAT with a cause's Ecode and EsubCode recorded (60_exceptions.md R412). -/
def recordedCause (n : ExcName) (s : State) : Word :=
  putField (putField s.csr.estat 16 6 (ecode n)) 22 9 (esubcode n)

/-- Taking an exception or interrupt, for every cause (60_exceptions.md R412): mode bits saved, PLV0 with interrupts
off, cause recorded, ERA the pc, BADV for Ecode 0x8 and 0x9 only (R421), and on to EENTRY. No GPR is written. -/
def enter (c : Cause) (s : State) : State :=
  { s with
    csr := { s.csr with
      prmd := savedMode s
      crmd := handlerMode s
      estat := recordedCause c.name s
      era := s.pc
      badv := if ecode c.name = 0x8#6 ∨ ecode c.name = 0x9#6 then c.badv else s.csr.badv }
    pc := csrValue .eentry s }

/-- CRMD after a return: PLV and IE from PRMD, the other bits unchanged (43_system.md R355). -/
def restoredMode (s : State) : Word :=
  putBit (putField s.csr.crmd 0 2 (s.csr.prmd.extractLsb' 0 2)) 2 (s.csr.prmd.getLsbD 2)

/-- The return from an exception (43_system.md R355): the mode restored, the LLbit cleared unless LLBCTL.KLO keeps it
once, and on to ERA. -/
def returnFromException (s : State) : State :=
  { s with
    csr := { s.csr with crmd := restoredMode s, llbctl := putBit s.csr.llbctl 2 false }
    llbit := s.llbit && llbctlKlo s
    pc := csrValue .era s }

/-- An instruction with the exception its shared check found: the exception is taken and the effect skipped
(60_exceptions.md R411); with none, the effect. -/
def unlessRaised (c : Option Cause) (s : State) (effect : Result) : Result :=
  match c with
  | some e => .next (enter e s)
  | none => effect

end Sys2Proof.Machine
end

