-- ==== Sys2Proof/Machine/Operands.lean ====
section
/-! DEFINITION. The operand forms: the immediates of 30_encoding.md R153, the effective addresses of
42_memory_access.md R290 and the branch targets of 41_control.md R260. -/

namespace Sys2Proof.Machine

/-- `sext_32(inst[21:10])` (30_encoding.md R153). -/
def immSi12 (si12 : BitVec 12) : Word := si12.signExtend 32
/-- `zext_32(inst[21:10])` (30_encoding.md R153). -/
def immUi12 (ui12 : BitVec 12) : Word := ui12.setWidth 32
/-- `sext_32({inst[23:10], 0b00})` (30_encoding.md R153). -/
def immSi14s (si14 : BitVec 14) : Word := (si14 ++ 0#2).signExtend 32
/-- `{inst[24:5], 12'b0}` (30_encoding.md R153). -/
def immSi20u (si20 : BitVec 20) : Word := si20 ++ 0#12
/-- `sext_32({inst[25:10], 0b00})` (30_encoding.md R153). -/
def immOffs16 (offs16 : BitVec 16) : Word := (offs16 ++ 0#2).signExtend 32
/-- `sext_32({inst[9:0], inst[25:10], 0b00})` (30_encoding.md R153). -/
def immOffs26 (offs26 : BitVec 26) : Word := (offs26 ++ 0#2).signExtend 32

/-- The effective address of LD.*, ST.*: `x[rj] + sext_32(si12)` modulo 2^32 (42_memory_access.md R290). -/
def addr12 (rj : Reg) (si12 : BitVec 12) (s : State) : Word := readReg s rj + immSi12 si12

/-- The effective address of LL.W and SC.W: `x[rj] + si14s` modulo 2^32 (42_memory_access.md R290). -/
def addr14 (rj : Reg) (si14 : BitVec 14) (s : State) : Word := readReg s rj + immSi14s si14

/-- The target of a conditional branch: `pc + offs16` (41_control.md R260). -/
def branchTarget (offs16 : BitVec 16) (s : State) : Word := s.pc + immOffs16 offs16

/-- The target of B and BL: `pc + offs26` (41_control.md R260). -/
def jumpTarget (offs26 : BitVec 26) (s : State) : Word := s.pc + immOffs26 offs26

/-- The target of JIRL: `x[rj] + offs16` (41_control.md R269). -/
def indirectTarget (rj : Reg) (offs16 : BitVec 16) (s : State) : Word := readReg s rj + immOffs16 offs16

/-- The amount of a register shift: `x[rk][4:0]` (40_integer.md R217). -/
def shiftAmount (v : Word) : Nat := (v.extractLsb' 0 5).toNat

/-- The address needs no alignment, or has the alignment its width needs (20_memory.md R115). -/
def isAligned (a : Word) : Width → Bool
  | .byte => true
  | .half => a.extractLsb' 0 1 == 0#1
  | .word => a.extractLsb' 0 2 == 0#2

end Sys2Proof.Machine
end

