-- ==== Sys2Proof/Machine/Control.lean ====
section
/-! DEFINITION. Control transfer (41_control.md): conditional branches, B, BL and JIRL. -/

namespace Sys2Proof.Machine

/-- A conditional branch: `pc + offs16` when the condition holds, else `snpc`; nothing else changes (41_control.md R260). -/
def branchIf (cond : Bool) (offs16 : BitVec 16) (s : State) : Result :=
  .next (if cond then jumpTo (branchTarget offs16 s) s else advance s)

/-- BEQ (41_control.md R261). -/
def execBeq (rj rd : Reg) (offs16 : BitVec 16) (s : State) : Result :=
  branchIf (readReg s rj == readReg s rd) offs16 s

/-- BNE (41_control.md R262). -/
def execBne (rj rd : Reg) (offs16 : BitVec 16) (s : State) : Result :=
  branchIf (readReg s rj != readReg s rd) offs16 s

/-- BLT (41_control.md R263). -/
def execBlt (rj rd : Reg) (offs16 : BitVec 16) (s : State) : Result :=
  branchIf (lessSigned (readReg s rj) (readReg s rd)) offs16 s

/-- BGE (41_control.md R264). -/
def execBge (rj rd : Reg) (offs16 : BitVec 16) (s : State) : Result :=
  branchIf (!lessSigned (readReg s rj) (readReg s rd)) offs16 s

/-- BLTU (41_control.md R265). -/
def execBltu (rj rd : Reg) (offs16 : BitVec 16) (s : State) : Result :=
  branchIf (lessUnsigned (readReg s rj) (readReg s rd)) offs16 s

/-- BGEU (41_control.md R266). -/
def execBgeu (rj rd : Reg) (offs16 : BitVec 16) (s : State) : Result :=
  branchIf (!lessUnsigned (readReg s rj) (readReg s rd)) offs16 s

/-- B: `pc <- pc + offs26` (41_control.md R267). -/
def execB (offs26 : BitVec 26) (s : State) : Result := .next (jumpTo (jumpTarget offs26 s) s)

/-- BL: `x[1] <- pc + 4` and `pc <- pc + offs26` (41_control.md R268). -/
def execBl (offs26 : BitVec 26) (s : State) : Result :=
  .next (jumpTo (jumpTarget offs26 s) (writeReg 1#5 (snpc s) s))

/-- JIRL: the target is read before `x[rd] <- pc + 4`; a misaligned target is installed like any other
(41_control.md R269, R270). -/
def execJirl (rd rj : Reg) (offs16 : BitVec 16) (s : State) : Result :=
  .next (jumpTo (indirectTarget rj offs16 s) (writeReg rd (snpc s) s))

end Sys2Proof.Machine
end

