-- ==== Sys2Proof/Machine/Alu.lean ====
section
/-! DEFINITION. Multiply, divide and shift results (40_integer.md R217 to R229): operands as exact integers or 64-bit
products, narrowed at the end. -/

namespace Sys2Proof.Machine

/-- `p[63:32]` of the exact signed 64-bit product (40_integer.md R224). -/
def mulHighSigned (a b : Word) : Word := (a.signExtend 64 * b.signExtend 64).extractLsb' 32 32
/-- `p[63:32]` of the exact unsigned 64-bit product (40_integer.md R225). -/
def mulHighUnsigned (a b : Word) : Word := (a.setWidth 64 * b.setWidth 64).extractLsb' 32 32

/-- DIV.W: DIVZ on a zero divisor, 0x80000000 on the overflow, else the quotient truncated toward zero
(40_integer.md R226, R232). -/
def divSigned (a b : Word) : Word :=
  if b = 0#32 then Config.divz .divW a
  else if a = 0x80000000#32 ∧ b = 0xFFFFFFFF#32 then 0x80000000#32
  else BitVec.ofInt 32 (a.toInt.tdiv b.toInt)

/-- MOD.W: DIVZ on a zero divisor, 0 on the overflow, else the remainder with the dividend's sign
(40_integer.md R227, R232). -/
def modSigned (a b : Word) : Word :=
  if b = 0#32 then Config.divz .modW a
  else if a = 0x80000000#32 ∧ b = 0xFFFFFFFF#32 then 0#32
  else BitVec.ofInt 32 (a.toInt.tmod b.toInt)

/-- DIV.WU: DIVZ on a zero divisor, else the floor of the quotient (40_integer.md R228). -/
def divUnsigned (a b : Word) : Word :=
  if b = 0#32 then Config.divz .divWu a else BitVec.ofNat 32 (a.toNat / b.toNat)

/-- MOD.WU: DIVZ on a zero divisor, else the remainder (40_integer.md R229). -/
def modUnsigned (a b : Word) : Word :=
  if b = 0#32 then Config.divz .modWu a else BitVec.ofNat 32 (a.toNat % b.toNat)

end Sys2Proof.Machine
end

