-- ==== Sys2Proof/Machine/Integer.lean ====
section
/-! DEFINITION. Integer arithmetic, logic, shift, multiply and divide (40_integer.md). Every meaning reads its sources,
computes one word and writes it to `x[rd]`; `dnpc = snpc` (R200). -/

namespace Sys2Proof.Machine

/-- `x[rd] <- v` and on to the next instruction: what every instruction of 40_integer.md does with its result (R200). -/
def writeResult (rd : Reg) (v : Word) (s : State) : Result := .next (advance (writeReg rd v s))

/-- ADD.W (40_integer.md R201). -/
def execAddW (rd rj rk : Reg) (s : State) : Result :=
  writeResult rd (readReg s rj + readReg s rk) s

/-- SUB.W (40_integer.md R202). -/
def execSubW (rd rj rk : Reg) (s : State) : Result :=
  writeResult rd (readReg s rj - readReg s rk) s

/-- SLT (40_integer.md R205). -/
def execSlt (rd rj rk : Reg) (s : State) : Result :=
  writeResult rd (truthWord (lessSigned (readReg s rj) (readReg s rk))) s

/-- SLTU (40_integer.md R206). -/
def execSltu (rd rj rk : Reg) (s : State) : Result :=
  writeResult rd (truthWord (lessUnsigned (readReg s rj) (readReg s rk))) s

/-- NOR (40_integer.md R212). -/
def execNor (rd rj rk : Reg) (s : State) : Result :=
  writeResult rd (~~~(readReg s rj ||| readReg s rk)) s

/-- AND (40_integer.md R210). -/
def execAnd (rd rj rk : Reg) (s : State) : Result :=
  writeResult rd (readReg s rj &&& readReg s rk) s

/-- OR (40_integer.md R211). -/
def execOr (rd rj rk : Reg) (s : State) : Result :=
  writeResult rd (readReg s rj ||| readReg s rk) s

/-- XOR (40_integer.md R213). -/
def execXor (rd rj rk : Reg) (s : State) : Result :=
  writeResult rd (readReg s rj ^^^ readReg s rk) s

/-- SLL.W (40_integer.md R217). -/
def execSllW (rd rj rk : Reg) (s : State) : Result :=
  writeResult rd (readReg s rj <<< shiftAmount (readReg s rk)) s

/-- SRL.W (40_integer.md R218). -/
def execSrlW (rd rj rk : Reg) (s : State) : Result :=
  writeResult rd (readReg s rj >>> shiftAmount (readReg s rk)) s

/-- SRA.W (40_integer.md R219). -/
def execSraW (rd rj rk : Reg) (s : State) : Result :=
  writeResult rd ((readReg s rj).sshiftRight (shiftAmount (readReg s rk))) s

/-- MUL.W (40_integer.md R223). -/
def execMulW (rd rj rk : Reg) (s : State) : Result :=
  writeResult rd (readReg s rj * readReg s rk) s

/-- MULH.W (40_integer.md R224). -/
def execMulhW (rd rj rk : Reg) (s : State) : Result :=
  writeResult rd (mulHighSigned (readReg s rj) (readReg s rk)) s

/-- MULH.WU (40_integer.md R225). -/
def execMulhWu (rd rj rk : Reg) (s : State) : Result :=
  writeResult rd (mulHighUnsigned (readReg s rj) (readReg s rk)) s

/-- DIV.W (40_integer.md R226). -/
def execDivW (rd rj rk : Reg) (s : State) : Result :=
  writeResult rd (divSigned (readReg s rj) (readReg s rk)) s

/-- MOD.W (40_integer.md R227). -/
def execModW (rd rj rk : Reg) (s : State) : Result :=
  writeResult rd (modSigned (readReg s rj) (readReg s rk)) s

/-- DIV.WU (40_integer.md R228). -/
def execDivWu (rd rj rk : Reg) (s : State) : Result :=
  writeResult rd (divUnsigned (readReg s rj) (readReg s rk)) s

/-- MOD.WU (40_integer.md R229). -/
def execModWu (rd rj rk : Reg) (s : State) : Result :=
  writeResult rd (modUnsigned (readReg s rj) (readReg s rk)) s

/-- SLLI.W (40_integer.md R220). -/
def execSlliW (rd rj : Reg) (ui5 : BitVec 5) (s : State) : Result :=
  writeResult rd (readReg s rj <<< ui5.toNat) s

/-- SRLI.W (40_integer.md R221). -/
def execSrliW (rd rj : Reg) (ui5 : BitVec 5) (s : State) : Result :=
  writeResult rd (readReg s rj >>> ui5.toNat) s

/-- SRAI.W (40_integer.md R222). -/
def execSraiW (rd rj : Reg) (ui5 : BitVec 5) (s : State) : Result :=
  writeResult rd ((readReg s rj).sshiftRight ui5.toNat) s

/-- SLTI (40_integer.md R207). -/
def execSlti (rd rj : Reg) (si12 : BitVec 12) (s : State) : Result :=
  writeResult rd (truthWord (lessSigned (readReg s rj) (immSi12 si12))) s

/-- SLTUI (40_integer.md R208). -/
def execSltui (rd rj : Reg) (si12 : BitVec 12) (s : State) : Result :=
  writeResult rd (truthWord (lessUnsigned (readReg s rj) (immSi12 si12))) s

/-- ADDI.W (40_integer.md R203). -/
def execAddiW (rd rj : Reg) (si12 : BitVec 12) (s : State) : Result :=
  writeResult rd (readReg s rj + immSi12 si12) s

/-- ANDI (40_integer.md R214). -/
def execAndi (rd rj : Reg) (ui12 : BitVec 12) (s : State) : Result :=
  writeResult rd (readReg s rj &&& immUi12 ui12) s

/-- ORI (40_integer.md R215). -/
def execOri (rd rj : Reg) (ui12 : BitVec 12) (s : State) : Result :=
  writeResult rd (readReg s rj ||| immUi12 ui12) s

/-- XORI (40_integer.md R216). -/
def execXori (rd rj : Reg) (ui12 : BitVec 12) (s : State) : Result :=
  writeResult rd (readReg s rj ^^^ immUi12 ui12) s

/-- LU12I.W (40_integer.md R204). -/
def execLu12iW (rd : Reg) (si20 : BitVec 20) (s : State) : Result :=
  writeResult rd (immSi20u si20) s

/-- PCADDU12I (40_integer.md R209). -/
def execPcaddu12i (rd : Reg) (si20 : BitVec 20) (s : State) : Result :=
  writeResult rd (s.pc + immSi20u si20) s

end Sys2Proof.Machine
end

