-- ==== Sys2Proof/Machine/Checks.lean ====
section
/-! DEFINITION. The synchronous exceptions an instruction raises, found before its effect (60_exceptions.md R403 phase
B): the wildcard and INVTLB's op (R426), privilege (R427, R441), SYSCALL (R424), BREAK (R425), alignment (R422). -/

namespace Sys2Proof.Machine

/-- INT, the interrupt (60_exceptions.md R428). -/
def causeInt : Cause := { name := .int, badv := 0#32 }
/-- ADEF, with the misaligned pc (60_exceptions.md R420). -/
def causeAdef (pc : Word) : Cause := { name := .adef, badv := pc }
/-- ALE, with the misaligned address (60_exceptions.md R422). -/
def causeAle (a : Word) : Cause := { name := .ale, badv := a }
/-- SYS (60_exceptions.md R424). -/
def causeSys : Cause := { name := .sys, badv := 0#32 }
/-- BRK (60_exceptions.md R425). -/
def causeBrk : Cause := { name := .brk, badv := 0#32 }
/-- INE (60_exceptions.md R426). -/
def causeIne : Cause := { name := .ine, badv := 0#32 }
/-- IPE (60_exceptions.md R427). -/
def causeIpe : Cause := { name := .ipe, badv := 0#32 }

/-- IPE for a privileged instruction at CRMD.PLV ≠ 0 (60_exceptions.md R427, R440). -/
def checkPrivilege (s : State) : Option Cause := if crmdPlv s = 0#2 then none else some causeIpe

/-- ALE for an address without the alignment its width needs (60_exceptions.md R422; 20_memory.md R115). -/
def checkAlignment (a : Word) (w : Width) : Option Cause := if isAligned a w then none else some (causeAle a)

/-- BRK at a BREAK that does not end the run (60_exceptions.md R425). -/
def checkBreak (s : State) : Option Cause := if s.platform.breakIsHalt then none else some causeBrk

/-- INVTLB: INE for `op > 6` at every level, before the privilege check (43_system.md R374; 60_exceptions.md R429). -/
def checkInvtlb (op : BitVec 5) (s : State) : Option Cause :=
  if 6#5 < op then some causeIne else checkPrivilege s

/-- The synchronous exception an instruction raises in a state, if any (60_exceptions.md R403 phase B, in the priority of
R429). -/
def raises (i : Instr) (s : State) : Option Cause :=
  match i with
  | .rdcntvlW _ => none
  | .rdcntidW _ => none
  | .rdcntvhW _ => none
  | .addW _ _ _ => none
  | .subW _ _ _ => none
  | .slt _ _ _ => none
  | .sltu _ _ _ => none
  | .nor _ _ _ => none
  | .and _ _ _ => none
  | .or _ _ _ => none
  | .xor _ _ _ => none
  | .sllW _ _ _ => none
  | .srlW _ _ _ => none
  | .sraW _ _ _ => none
  | .mulW _ _ _ => none
  | .mulhW _ _ _ => none
  | .mulhWu _ _ _ => none
  | .divW _ _ _ => none
  | .modW _ _ _ => none
  | .divWu _ _ _ => none
  | .modWu _ _ _ => none
  | .brk _ => checkBreak s
  | .syscall _ => some causeSys
  | .slliW _ _ _ => none
  | .srliW _ _ _ => none
  | .sraiW _ _ _ => none
  | .slti _ _ _ => none
  | .sltui _ _ _ => none
  | .addiW _ _ _ => none
  | .andi _ _ _ => none
  | .ori _ _ _ => none
  | .xori _ _ _ => none
  | .csrrd _ _ => checkPrivilege s
  | .csrwr _ _ => checkPrivilege s
  | .csrxchg _ _ _ => checkPrivilege s
  | .cacop _ _ _ => checkPrivilege s
  | .tlbsrch => checkPrivilege s
  | .tlbrd => checkPrivilege s
  | .tlbwr => checkPrivilege s
  | .tlbfill => checkPrivilege s
  | .ertn => checkPrivilege s
  | .idle _ => checkPrivilege s
  | .invtlb op _ _ => checkInvtlb op s
  | .lu12iW _ _ => none
  | .pcaddu12i _ _ => none
  | .llW _ rj si14 => checkAlignment (addr14 rj si14 s) .word
  | .scW _ rj si14 => checkAlignment (addr14 rj si14 s) .word
  | .ldB _ _ _ => none
  | .ldH _ rj si12 => checkAlignment (addr12 rj si12 s) .half
  | .ldW _ rj si12 => checkAlignment (addr12 rj si12 s) .word
  | .stB _ _ _ => none
  | .stH _ rj si12 => checkAlignment (addr12 rj si12 s) .half
  | .stW _ rj si12 => checkAlignment (addr12 rj si12 s) .word
  | .ldBu _ _ _ => none
  | .ldHu _ rj si12 => checkAlignment (addr12 rj si12 s) .half
  | .preld _ _ _ => none
  | .dbar _ => none
  | .ibar _ => none
  | .jirl _ _ _ => none
  | .b _ => none
  | .bl _ => none
  | .beq _ _ _ => none
  | .bne _ _ _ => none
  | .blt _ _ _ => none
  | .bge _ _ _ => none
  | .bltu _ _ _ => none
  | .bgeu _ _ _ => none
  | .invalid _ => some causeIne

end Sys2Proof.Machine
end

