-- ==== Sys2Proof/Machine/MemAccess.lean ====
section
/-! DEFINITION. Loads, stores, LL.W, SC.W, PRELD and the barriers (42_memory_access.md). Address, alignment, one router
access, then the register (R290). -/

namespace Sys2Proof.Machine

/-- The one access of a load, its extension, and the write of `x[rd]`; a load to r0 still performs its access
(42_memory_access.md R290). -/
def loadInto (rd : Reg) (a : Word) (w : Width) (extend : Word → Word) (s : State) : Result :=
  match memRead a w s with
  | .ok (v, s') => .next (advance (writeReg rd (extend v) s'))
  | .error f => .fault f

/-- The one access of a store; no register is written (42_memory_access.md R290). -/
def storeFrom (a : Word) (w : Width) (v : Word) (s : State) : Result :=
  match memWrite a w v s with
  | .ok s' => .next (advance s')
  | .error f => .fault f

/-- LD.B (42_memory_access.md R291). -/
def execLdB (rd rj : Reg) (si12 : BitVec 12) (s : State) : Result :=
  loadInto rd (addr12 rj si12 s) .byte sextByte s

/-- LD.H (42_memory_access.md R292). -/
def execLdH (rd rj : Reg) (si12 : BitVec 12) (s : State) : Result :=
  unlessRaised (checkAlignment (addr12 rj si12 s) .half) s (loadInto rd (addr12 rj si12 s) .half sextHalf s)

/-- LD.W (42_memory_access.md R293). -/
def execLdW (rd rj : Reg) (si12 : BitVec 12) (s : State) : Result :=
  unlessRaised (checkAlignment (addr12 rj si12 s) .word) s (loadInto rd (addr12 rj si12 s) .word id s)

/-- LD.BU (42_memory_access.md R294). -/
def execLdBu (rd rj : Reg) (si12 : BitVec 12) (s : State) : Result :=
  loadInto rd (addr12 rj si12 s) .byte zextByte s

/-- LD.HU (42_memory_access.md R295). -/
def execLdHu (rd rj : Reg) (si12 : BitVec 12) (s : State) : Result :=
  unlessRaised (checkAlignment (addr12 rj si12 s) .half) s (loadInto rd (addr12 rj si12 s) .half zextHalf s)

/-- ST.B (42_memory_access.md R296). -/
def execStB (rd rj : Reg) (si12 : BitVec 12) (s : State) : Result :=
  storeFrom (addr12 rj si12 s) .byte (readReg s rd) s

/-- ST.H (42_memory_access.md R297). -/
def execStH (rd rj : Reg) (si12 : BitVec 12) (s : State) : Result :=
  unlessRaised (checkAlignment (addr12 rj si12 s) .half) s (storeFrom (addr12 rj si12 s) .half (readReg s rd) s)

/-- ST.W (42_memory_access.md R298). -/
def execStW (rd rj : Reg) (si12 : BitVec 12) (s : State) : Result :=
  unlessRaised (checkAlignment (addr12 rj si12 s) .word) s (storeFrom (addr12 rj si12 s) .word (readReg s rd) s)

/-- PRELD: no effect, no address is computed for access (42_memory_access.md R299). -/
def execPreld (_hint : BitVec 5) (_rj : Reg) (_si12 : BitVec 12) (s : State) : Result := .next (advance s)

/-- The access of LL.W: the word into `x[rd]` and LLbit set (42_memory_access.md R310). -/
def loadLinked (rd : Reg) (a : Word) (s : State) : Result :=
  match memRead a .word s with
  | .ok (v, s') => .next (advance { writeReg rd v s' with llbit := true })
  | .error f => .fault f

/-- LL.W (42_memory_access.md R310). -/
def execLlW (rd rj : Reg) (si14 : BitVec 14) (s : State) : Result :=
  unlessRaised (checkAlignment (addr14 rj si14 s) .word) s (loadLinked rd (addr14 rj si14 s) s)

/-- SC.W once its address is aligned: with LLbit set the store, `x[rd] <- 1`; with LLbit clear no access, `x[rd] <- 0`;
LLbit cleared (42_memory_access.md R311, R312). -/
def storeConditional (rd : Reg) (a : Word) (s : State) : Result :=
  if s.llbit then
    match memWrite a .word (readReg s rd) s with
    | .ok s' => .next (advance { writeReg rd 1#32 s' with llbit := false })
    | .error f => .fault f
  else .next (advance { writeReg rd 0#32 s with llbit := false })

/-- SC.W: alignment is checked whatever the LLbit is (42_memory_access.md R311). -/
def execScW (rd rj : Reg) (si14 : BitVec 14) (s : State) : Result :=
  unlessRaised (checkAlignment (addr14 rj si14 s) .word) s (storeConditional rd (addr14 rj si14 s) s)

/-- DBAR: every access is already in program order, so no effect (42_memory_access.md R320). -/
def execDbar (_code : BitVec 15) (s : State) : Result := .next (advance s)

/-- IBAR: every fetch already reads memory, so no effect (42_memory_access.md R321). -/
def execIbar (_code : BitVec 15) (s : State) : Result := .next (advance s)

end Sys2Proof.Machine
end

