-- ==== Sys2Proof/Machine/System.lean ====
section
/-! DEFINITION. CSR access, counter reads, traps, return, wait, cache and TLB instructions (43_system.md) and the
wildcard (60_exceptions.md R426). -/

namespace Sys2Proof.Machine

/-- A privileged instruction: IPE at CRMD.PLV ≠ 0, else its effect (43_system.md; 60_exceptions.md R427). -/
def privileged (s : State) (effect : Result) : Result := unlessRaised (checkPrivilege s) s effect

/-! ## CSR access -/

/-- CSRRD (43_system.md R330). -/
def execCsrrd (rd : Reg) (csr : BitVec 14) (s : State) : Result :=
  privileged s (let (old, s') := csrRead csr s; .next (advance (writeReg rd old s')))

/-- The new CSR value is written, with its side effects, and the old one goes to `x[rd]`, in one action
(43_system.md R331, R332). `new` is computed from the old value. -/
def csrSwap (rd : Reg) (csr : BitVec 14) (new : Word → Word) (s : State) : Result :=
  let (old, s') := csrRead csr s
  .next (advance (writeReg rd old (csrWrite csr (new old) s')))

/-- CSRWR (43_system.md R331). -/
def execCsrwr (rd : Reg) (csr : BitVec 14) (s : State) : Result :=
  privileged s (csrSwap rd csr (fun _ => readReg s rd) s)

/-- CSRXCHG: `(old & ~mask) | (x[rd] & mask)` with `mask = x[rj]` (43_system.md R332). -/
def execCsrxchg (rd rj : Reg) (csr : BitVec 14) (s : State) : Result :=
  privileged s (csrSwap rd csr (fun old => merge (readReg s rj) old (readReg s rd)) s)

/-! ## Counter reads -/

/-- RDCNTVL.W: `counter[31:0]`, before this step's refresh (43_system.md R340). -/
def execRdcntvlW (rd : Reg) (s : State) : Result := .next (advance (writeReg rd (s.counter.extractLsb' 0 32) s))

/-- RDCNTVH.W: `counter[63:32]` (43_system.md R341). -/
def execRdcntvhW (rd : Reg) (s : State) : Result := .next (advance (writeReg rd (s.counter.extractLsb' 32 32) s))

/-- RDCNTID.W: TID into `x[rj]` (43_system.md R342). -/
def execRdcntidW (rj : Reg) (s : State) : Result := .next (advance (writeReg rj (csrValue .tid s) s))

/-! ## Traps, return and wait -/

/-- SYSCALL takes SYS (43_system.md R350). -/
def execSyscall (_code : BitVec 15) (s : State) : Result := .next (enter causeSys s)

/-- BREAK: with BREAK_IS_HALT the run ends with the exit code in r4, pc past the BREAK; without, it takes BRK
(43_system.md R351; the outcome is log 11). -/
def execBrk (_code : BitVec 15) (s : State) : Result :=
  unlessRaised (checkBreak s) s (.next (advance { s with status := .halted (readReg s 4#5) }))

/-- ERTN (43_system.md R355). -/
def execErtn (s : State) : Result := privileged s (.next (returnFromException s))

/-- IDLE: the core waits from the next step on, pc past the IDLE (43_system.md R356). -/
def execIdle (_code : BitVec 15) (s : State) : Result := privileged s (.next (advance { s with idle := true }))

/-! ## Cache and TLB -/

/-- CACOP: no cache is modelled, so no effect at PLV0 (43_system.md R360). -/
def execCacop (_code : BitVec 5) (_rj : Reg) (_si12 : BitVec 12) (s : State) : Result :=
  privileged s (.next (advance s))

/-- TLBSRCH: refused at PLV0 (43_system.md R370). -/
def execTlbsrch (s : State) : Result := privileged s (.refused .tlbInstruction)

/-- TLBRD: refused at PLV0 (43_system.md R371). -/
def execTlbrd (s : State) : Result := privileged s (.refused .tlbInstruction)

/-- TLBWR: refused at PLV0 (43_system.md R372). -/
def execTlbwr (s : State) : Result := privileged s (.refused .tlbInstruction)

/-- TLBFILL: refused at PLV0 (43_system.md R373). -/
def execTlbfill (s : State) : Result := privileged s (.refused .tlbInstruction)

/-- INVTLB: INE for `op > 6` at every level, IPE at PLV ≠ 0, refused at PLV0 (43_system.md R374). -/
def execInvtlb (op : BitVec 5) (_rj _rk : Reg) (s : State) : Result :=
  unlessRaised (checkInvtlb op s) s (.refused .tlbInstruction)

/-- The wildcard: a word that is no instruction takes INE (60_exceptions.md R426). -/
def execInvalid (_word : Word) (s : State) : Result := .next (enter causeIne s)

end Sys2Proof.Machine
end

