-- ==== Sys2Proof/Machine/Dispatch.lean ====
section
/-! DEFINITION. One arm per instruction of the catalog, each one call of its meaning. -/

namespace Sys2Proof.Machine

def exec (i : Instr) (s : State) : Host.Outcome State Fault Refusal :=
  match i with
  | .rdcntvlW rd => Sys2Proof.Machine.execRdcntvlW rd s
  | .rdcntidW rj => Sys2Proof.Machine.execRdcntidW rj s
  | .rdcntvhW rd => Sys2Proof.Machine.execRdcntvhW rd s
  | .addW rd rj rk => Sys2Proof.Machine.execAddW rd rj rk s
  | .subW rd rj rk => Sys2Proof.Machine.execSubW rd rj rk s
  | .slt rd rj rk => Sys2Proof.Machine.execSlt rd rj rk s
  | .sltu rd rj rk => Sys2Proof.Machine.execSltu rd rj rk s
  | .nor rd rj rk => Sys2Proof.Machine.execNor rd rj rk s
  | .and rd rj rk => Sys2Proof.Machine.execAnd rd rj rk s
  | .or rd rj rk => Sys2Proof.Machine.execOr rd rj rk s
  | .xor rd rj rk => Sys2Proof.Machine.execXor rd rj rk s
  | .sllW rd rj rk => Sys2Proof.Machine.execSllW rd rj rk s
  | .srlW rd rj rk => Sys2Proof.Machine.execSrlW rd rj rk s
  | .sraW rd rj rk => Sys2Proof.Machine.execSraW rd rj rk s
  | .mulW rd rj rk => Sys2Proof.Machine.execMulW rd rj rk s
  | .mulhW rd rj rk => Sys2Proof.Machine.execMulhW rd rj rk s
  | .mulhWu rd rj rk => Sys2Proof.Machine.execMulhWu rd rj rk s
  | .divW rd rj rk => Sys2Proof.Machine.execDivW rd rj rk s
  | .modW rd rj rk => Sys2Proof.Machine.execModW rd rj rk s
  | .divWu rd rj rk => Sys2Proof.Machine.execDivWu rd rj rk s
  | .modWu rd rj rk => Sys2Proof.Machine.execModWu rd rj rk s
  | .brk code => Sys2Proof.Machine.execBrk code s
  | .syscall code => Sys2Proof.Machine.execSyscall code s
  | .slliW rd rj ui5 => Sys2Proof.Machine.execSlliW rd rj ui5 s
  | .srliW rd rj ui5 => Sys2Proof.Machine.execSrliW rd rj ui5 s
  | .sraiW rd rj ui5 => Sys2Proof.Machine.execSraiW rd rj ui5 s
  | .slti rd rj si12 => Sys2Proof.Machine.execSlti rd rj si12 s
  | .sltui rd rj si12 => Sys2Proof.Machine.execSltui rd rj si12 s
  | .addiW rd rj si12 => Sys2Proof.Machine.execAddiW rd rj si12 s
  | .andi rd rj ui12 => Sys2Proof.Machine.execAndi rd rj ui12 s
  | .ori rd rj ui12 => Sys2Proof.Machine.execOri rd rj ui12 s
  | .xori rd rj ui12 => Sys2Proof.Machine.execXori rd rj ui12 s
  | .csrrd rd csr => Sys2Proof.Machine.execCsrrd rd csr s
  | .csrwr rd csr => Sys2Proof.Machine.execCsrwr rd csr s
  | .csrxchg rd rj csr => Sys2Proof.Machine.execCsrxchg rd rj csr s
  | .cacop code rj si12 => Sys2Proof.Machine.execCacop code rj si12 s
  | .tlbsrch => Sys2Proof.Machine.execTlbsrch s
  | .tlbrd => Sys2Proof.Machine.execTlbrd s
  | .tlbwr => Sys2Proof.Machine.execTlbwr s
  | .tlbfill => Sys2Proof.Machine.execTlbfill s
  | .ertn => Sys2Proof.Machine.execErtn s
  | .idle code => Sys2Proof.Machine.execIdle code s
  | .invtlb op rj rk => Sys2Proof.Machine.execInvtlb op rj rk s
  | .lu12iW rd si20 => Sys2Proof.Machine.execLu12iW rd si20 s
  | .pcaddu12i rd si20 => Sys2Proof.Machine.execPcaddu12i rd si20 s
  | .llW rd rj si14 => Sys2Proof.Machine.execLlW rd rj si14 s
  | .scW rd rj si14 => Sys2Proof.Machine.execScW rd rj si14 s
  | .ldB rd rj si12 => Sys2Proof.Machine.execLdB rd rj si12 s
  | .ldH rd rj si12 => Sys2Proof.Machine.execLdH rd rj si12 s
  | .ldW rd rj si12 => Sys2Proof.Machine.execLdW rd rj si12 s
  | .stB rd rj si12 => Sys2Proof.Machine.execStB rd rj si12 s
  | .stH rd rj si12 => Sys2Proof.Machine.execStH rd rj si12 s
  | .stW rd rj si12 => Sys2Proof.Machine.execStW rd rj si12 s
  | .ldBu rd rj si12 => Sys2Proof.Machine.execLdBu rd rj si12 s
  | .ldHu rd rj si12 => Sys2Proof.Machine.execLdHu rd rj si12 s
  | .preld hint rj si12 => Sys2Proof.Machine.execPreld hint rj si12 s
  | .dbar code => Sys2Proof.Machine.execDbar code s
  | .ibar code => Sys2Proof.Machine.execIbar code s
  | .jirl rd rj offs16 => Sys2Proof.Machine.execJirl rd rj offs16 s
  | .b offs26 => Sys2Proof.Machine.execB offs26 s
  | .bl offs26 => Sys2Proof.Machine.execBl offs26 s
  | .beq rj rd offs16 => Sys2Proof.Machine.execBeq rj rd offs16 s
  | .bne rj rd offs16 => Sys2Proof.Machine.execBne rj rd offs16 s
  | .blt rj rd offs16 => Sys2Proof.Machine.execBlt rj rd offs16 s
  | .bge rj rd offs16 => Sys2Proof.Machine.execBge rj rd offs16 s
  | .bltu rj rd offs16 => Sys2Proof.Machine.execBltu rj rd offs16 s
  | .bgeu rj rd offs16 => Sys2Proof.Machine.execBgeu rj rd offs16 s
  | .invalid word => Sys2Proof.Machine.execInvalid word s

end Sys2Proof.Machine
end

