-- ==== Sys2Proof/Machine/Cycle.lean ====
section
/-! DEFINITION. The step of 60_exceptions.md R403: refusal check, phase A, idle, phase B (fetch, decode, precheck), phase
C (decide), phase D (end of step). -/

namespace Sys2Proof.Machine

/-- CRMD.DA ≠ 1 or CRMD.PG ≠ 0: mapped mode, which is refused (20_memory.md R122). -/
def inMappedMode (s : State) : Bool := !crmdDa s || crmdPg s

/-- Phase A: `ESTAT.IS[9:2] <- ESTAT.IS[9:2] | lines[9:2]` (60_exceptions.md R431). -/
def sampleLines (s : State) : State :=
  { s with csr := { s.csr with estat := s.csr.estat ||| (s.lines &&& fieldMask 2 8) } }

/-- The idle core still waits: no interrupt is pending in the enabled set, whatever CRMD.IE is (60_exceptions.md R404). -/
def stillWaiting (s : State) : Bool := s.idle && enabledPending s == 0#32

/-- The idle bit cleared: the core is awake (60_exceptions.md R404). -/
def wake (s : State) : State := { s with idle := false }

/-- The interrupt condition (60_exceptions.md R430). -/
def interruptDue (s : State) : Bool := enabledPending s != 0#32 && crmdIe s

/-- ADEF at a misaligned pc (60_exceptions.md R420). -/
def checkFetch (s : State) : Option Cause :=
  if isAligned s.pc .word then none else some (causeAdef s.pc)

/-- The counter ticks of this step: the number the platform fixes, else the draw `tick_delta` (10_state.md R76;
60_exceptions.md R452; log 1, log 4). -/
def stepTicks (s : State) : Nat := s.platform.fixedTick.getD (Config.tickDelta s.draws)

/-- `counter <- counter + tick_delta` modulo 2^64 (10_state.md R76). The step's draw is counted whether it is free or
fixed. -/
def refreshCounter (s : State) : State :=
  { s with counter := s.counter + BitVec.ofNat 64 (stepTicks s), draws := s.draws + 1 }

/-- The count after this tick's decrement: `if TVAL ≠ 0: TVAL <- TVAL - 1` (60_exceptions.md R450). -/
def timerCount (s : State) : Word := if s.csr.tval = 0#32 then 0#32 else s.csr.tval - 1#32

/-- The count has reached 0: the timer interrupt bit is set, and the timer reloads or stops (60_exceptions.md R450). -/
def timerExpire (s : State) : State :=
  { s with
    csr := { s.csr with
      estat := putBit s.csr.estat 11 true
      tval := if tcfgPeriodic s then s.csr.tcfg &&& 0xFFFFFFFC#32 else 0#32 }
    timerEn := tcfgPeriodic s }

/-- `timer_tick()` (60_exceptions.md R450). -/
def timerTick (s : State) : State :=
  if s.timerEn then
    if timerCount s = 0#32 then timerExpire s else { s with csr := { s.csr with tval := timerCount s } }
  else s

/-- Phase D (60_exceptions.md R402). `pc <- dnpc` is done by then: a meaning leaves the decided next address in the pc
(log 9). -/
def endOfStep (s : State) : State := timerTick (refreshCounter (zeroR0 s))

/-- Phase D on a step that goes on; a fault or a refusal changes no state (60_exceptions.md R402, R406, R407). -/
def finish : Result → Result
  | .next s => .next (endOfStep s)
  | .fault f => .fault f
  | .refused r => .refused r

/-- Phase C for a decoded instruction (60_exceptions.md R403): its synchronous exception before an interrupt, an
interrupt before its effect (R429). `exec` takes the exception that `raises` finds. -/
def phaseC (i : Instr) (s : State) : Result :=
  if (raises i s).isNone && interruptDue s then .next (enter causeInt s) else exec i s

/-- Fetch through the router and decode (20_memory.md R114; 30_encoding.md R160). -/
def fetchDecode (s : State) : Except Fault (Instr × State) :=
  match memRead s.pc .word s with
  | .error f => .error f
  | .ok (w, s') =>
    match decodeWord w with
    | some i => .ok (i, s')
    | none => .error .decodeTable

/-- Phases B and C (60_exceptions.md R403). -/
def fetchAndExecute (s : State) : Result :=
  unlessRaised (checkFetch s) s
    (match fetchDecode s with
     | .error f => .fault f
     | .ok (i, s') => phaseC i s')

/-- A running, unmapped core's step after phase A (60_exceptions.md R403, R404). -/
def runSampled (s : State) : Result :=
  if stillWaiting s then finish (.next s) else finish (fetchAndExecute (wake s))

/-- `execute_one_step()` (60_exceptions.md R403). A terminal status answers the same at every call and changes nothing
(R408, log 11). -/
def executeOneStep (s : State) : Result :=
  match s.status with
  | .running => if inMappedMode s then .refused .mappedMode else runSampled (sampleLines s)
  | .halted _ => .next s
  | .faulted f => .fault f
  | .refused r => .refused r

/-- The bytes of an instruction word stored at the pc (log 3). -/
def placeAtPc (w : Word) (s : State) : State := { s with mem := memWriteBytes s.mem s.pc.toNat w 4 }

end Sys2Proof.Machine
end

