-- ==== Sys2Proof/Machine/Step.lean ====
section
/-! DEFINITION. The step of the machine, and the placing of one instruction where the step fetches. -/

namespace Sys2Proof.Machine

/-- One step: `execute_one_step()` (60_exceptions.md R403, R455). -/
def step (s : State) : Host.Outcome State Fault Refusal := executeOneStep s

/-- The state with the instruction whose `nbits` low bits are `w`, its other bits zero, stored in backing memory at the
pc, where the next step fetches it (log 3). -/
def State.withFetchWord (s : State) (nbits w : Nat) : State := placeAtPc (BitVec.ofNat 32 (w % 2 ^ nbits)) s

end Sys2Proof.Machine
end

