-- ==== Sys2Proof/Machine/HostSurface.lean ====
section
/-! DEFINITION. The surface the host and the devices use between steps (60_exceptions.md R456 to R458): interrupt lines,
region registration, physical inspection. No instruction calls these. -/

namespace Sys2Proof.Machine

/-- `raise_interrupt(N)`: `lines[N] <- 1` (60_exceptions.md R456); a number past the 32 lines has no effect (log 8). -/
def raiseInterrupt (n : Nat) (s : State) : State := { s with lines := s.lines ||| (1#32 <<< n) }

/-- `clear_interrupt(N)`: `lines[N] <- 0`, and `ESTAT.IS[N] <- 0` for N = 2 to 9 (60_exceptions.md R456). -/
def clearInterrupt (n : Nat) (s : State) : State :=
  { s with
    lines := s.lines &&& ~~~(1#32 <<< n)
    csr := if 2 ≤ n ∧ n ≤ 9 then { s.csr with estat := putBit s.csr.estat n false } else s.csr }

/-- Two ranges `[a, a+m)` and `[b, b+n)` overlap when they share an address. DESIGN CHOICE (log 16), unsafe: the spec does
not define the overlap of an empty range (20_memory.md R100, R103; 60_exceptions.md R457); here an empty range, such as
backing memory with PMEM_SIZE = 0, shares no address and so overlaps nothing, wherever it lies. -/
def rangesOverlap (a m b n : Nat) : Bool := max a b < min (a + m) (b + n)

/-- A registration is malformed when its range is empty, passes 2^32, or overlaps backing memory or a registered region
(60_exceptions.md R457). -/
def malformedRegistration (g : Region) (p : Platform) : Bool :=
  g.size == 0 || 2 ^ 32 < g.base + g.size || rangesOverlap g.base g.size p.pmemBase p.pmemSize ||
    p.regions.any fun h => rangesOverlap g.base g.size h.base h.size

/-- `register_region` (60_exceptions.md R457; 20_memory.md R103): the region joins the end of the table, or the malformed
registration is host-fatal. -/
def registerRegion (g : Region) (s : State) : State :=
  if malformedRegistration g s.platform then
    { s with status := .faulted (.malformedRegion g.name g.base g.size) }
  else { s with platform := { s.platform with regions := s.platform.regions ++ [g] } }

/-- `read_physical(address, length)`: the router, with no alignment check; out of bound is host-fatal
(60_exceptions.md R458; 20_memory.md R112). -/
def readPhysical (a : Word) (w : Width) (s : State) : Option Word × State :=
  match memRead a w s with
  | .ok (v, s') => (some v, s')
  | .error f => (none, { s with status := .faulted f })

/-- `write_physical(address, length, value)`: the router, with no alignment check; out of bound is host-fatal
(60_exceptions.md R458; 20_memory.md R112). -/
def writePhysical (a : Word) (w : Width) (v : Word) (s : State) : State :=
  match memWrite a w v s with
  | .ok s' => s'
  | .error f => { s with status := .faulted f }

/-- A region's handler stores a byte at `offset` of its shadow buffer, which besides the router it alone writes
(20_memory.md R110); past the buffer's `size` nothing changes. A device's act, outside the steps (log 6). -/
def handlerStore (g : Region) (offset : Nat) (v : Byte) (s : State) : State :=
  if offset < g.size then { s with shadow := cellPut s.shadow (g.base + offset) v } else s

/-- The host reads the device calls recorded so far and empties the record (20_memory.md R111, log 7). -/
def takeEvents (s : State) : List DeviceEvent × State := (s.events, { s with events := [] })

/-- The platform parameters are well formed: backing memory does not pass 2^32 (20_memory.md R100) and no region of the
table is malformed beside those before it (R103; 60_exceptions.md R457). -/
def platformWf (p : Platform) : Bool :=
  p.pmemBase + p.pmemSize ≤ 2 ^ 32 &&
    (List.range p.regions.length).all fun k =>
      match p.regions[k]? with
      | some g => !malformedRegistration g { p with regions := p.regions.take k }
      | none => true

end Sys2Proof.Machine
end

