-- ==== Sys2Proof/Safety.lean ====
section
/-! DEFINITION. The terms claims use: what a step leaves unchanged (frames), what an exception entry leaves, and the
invariants of the machine. -/

namespace Sys2Proof.Machine

/-! ## Frames -/

/-- Every byte of backing memory reads as before. -/
def sameMemory (s t : State) : Prop := ∀ a, memByte t.mem a = memByte s.mem a

/-- Every byte of backing memory outside the `n` bytes from `lo` reads as before. -/
def sameMemoryOutside (lo n : Nat) (s t : State) : Prop :=
  ∀ a, a < lo ∨ lo + n ≤ a → memByte t.mem a = memByte s.mem a

/-- No region handler was called and no free value drawn. -/
def sameDevices (s t : State) : Prop := t.shadow = s.shadow ∧ t.events = s.events ∧ t.draws = s.draws

/-- The timer, the counter, the idle bit, the lines, the status and the parameters are as before. -/
def sameHidden (s t : State) : Prop :=
  t.counter = s.counter ∧ t.timerEn = s.timerEn ∧ t.idle = s.idle ∧ t.lines = s.lines ∧ t.status = s.status ∧
    t.platform = s.platform

/-- Every general register reads as before. -/
def sameRegs (s t : State) : Prop := ∀ r, readReg t r = readReg s r

/-- Every general register but `rd` reads as before. -/
def sameRegsBut (rd : Reg) (s t : State) : Prop := ∀ r, r ≠ rd → readReg t r = readReg s r

/-- What writing `v` to `x[rd]` leaves in the registers: `v` in `rd` (0 if `rd` is r0, which discards it), the others as
before (10_state.md R31, R32, R34). -/
def regWritten (rd : Reg) (v : Word) (s t : State) : Prop :=
  readReg t rd = (if rd = 0#5 then 0#32 else v) ∧ sameRegsBut rd s t

/-- Everything but the general registers and the pc is as before. -/
def sameBesideRegs (s t : State) : Prop :=
  t.csr = s.csr ∧ t.llbit = s.llbit ∧ sameHidden s t ∧ sameMemory s t ∧ sameDevices s t

/-- `exec i s` completes: `v` goes to `x[rd]`, the next instruction follows, nothing else changes. -/
def completesWriting (i : Instr) (s : State) (rd : Reg) (v : Word) : Prop :=
  ∃ t, exec i s = .next t ∧ regWritten rd v s t ∧ t.pc = s.pc + 4#32 ∧ sameBesideRegs s t

/-- `exec i s` completes with no effect but the advance of the pc. -/
def completesIdly (i : Instr) (s : State) : Prop :=
  ∃ t, exec i s = .next t ∧ sameRegs s t ∧ t.pc = s.pc + 4#32 ∧ sameBesideRegs s t

/-- `exec i s` completes by going to `target`, nothing else changes. -/
def completesJumping (i : Instr) (s : State) (target : Word) : Prop :=
  ∃ t, exec i s = .next t ∧ sameRegs s t ∧ t.pc = target ∧ sameBesideRegs s t

/-- `exec i s` completes by a store of the `n` low bytes of `v` from address `a`, little-endian; nothing else changes. -/
def completesStoring (i : Instr) (s : State) (a : Word) (v : Word) (n : Nat) : Prop :=
  ∃ t, exec i s = .next t ∧ sameRegs s t ∧ t.pc = s.pc + 4#32 ∧
    (∀ k, k < n → memByte t.mem (a.toNat + k) = v.extractLsb' (8 * k) 8) ∧
    sameMemoryOutside a.toNat n s t ∧
    t.csr = s.csr ∧ t.llbit = s.llbit ∧ sameHidden s t ∧ sameDevices s t

/-- The little-endian value of `n` bytes of backing memory from address `a`, as a number. -/
def littleEndian (s : State) (a : Nat) : Nat → Nat
  | 0 => 0
  | n + 1 => (memByte s.mem a).toNat + 256 * littleEndian s (a + 1) n

/-! ## Exceptions -/

/-- ESTAT.Ecode (10_state.md R54). -/
def estatEcode (s : State) : BitVec 6 := s.csr.estat.extractLsb' 16 6
/-- ESTAT.EsubCode (10_state.md R54). -/
def estatEsubcode (s : State) : BitVec 9 := s.csr.estat.extractLsb' 22 9
/-- PRMD.PPLV (10_state.md R51). -/
def prmdPplv (s : State) : BitVec 2 := s.csr.prmd.extractLsb' 0 2
/-- PRMD.PIE (10_state.md R51). -/
def prmdPie (s : State) : Bool := s.csr.prmd.getLsbD 2
/-- The exception entry address `{EENTRY.VA, 0b000000}` (10_state.md R57). -/
def entryAddress (s : State) : Word := s.csr.eentry &&& 0xFFFFFFC0#32

/-- The CSRs that an exception entry does not name are as before, and BADV too unless `badv` is given
(60_exceptions.md R412). -/
def sameOtherCsrs (s t : State) : Prop :=
  ∀ c, c ≠ .prmd → c ≠ .crmd → c ≠ .estat → c ≠ .era → c ≠ .badv → csrStored t.csr c = csrStored s.csr c

/-- `t` is `s` after an exception or interrupt entry with this Ecode, EsubCode and BADV (60_exceptions.md R412). -/
structure Entered (code : BitVec 6) (sub : BitVec 9) (badv : Word) (s t : State) : Prop where
  pplv : prmdPplv t = crmdPlv s
  pie : prmdPie t = crmdIe s
  prmdRest : t.csr.prmd.extractLsb' 3 29 = s.csr.prmd.extractLsb' 3 29
  plv : crmdPlv t = 0#2
  ie : crmdIe t = false
  crmdRest : t.csr.crmd.extractLsb' 3 29 = s.csr.crmd.extractLsb' 3 29
  cause : estatEcode t = code
  subcause : estatEsubcode t = sub
  pending : t.csr.estat.extractLsb' 0 16 = s.csr.estat.extractLsb' 0 16
  estatTop : t.csr.estat.getLsbD 31 = s.csr.estat.getLsbD 31
  era : t.csr.era = s.pc
  badv : t.csr.badv = badv
  otherCsrs : sameOtherCsrs s t
  pc : t.pc = entryAddress s
  regs : sameRegs s t
  llbit : t.llbit = s.llbit
  hidden : sameHidden s t
  memory : sameMemory s t
  devices : sameDevices s t

/-- `exec i s` takes the exception with this Ecode (EsubCode 0) and BADV, its effect skipped. -/
def takesException (i : Instr) (s : State) (code : BitVec 6) (badv : Word) : Prop :=
  ∃ t, exec i s = .next t ∧ Entered code 0#9 badv s t

/-- The privileged instructions (60_exceptions.md R441), INVTLB in its valid forms (43_system.md R374). -/
def isPrivileged : Instr → Bool
  | .csrrd _ _ => true | .csrwr _ _ => true | .csrxchg _ _ _ => true | .cacop _ _ _ => true | .tlbsrch => true
  | .tlbrd => true | .tlbwr => true | .tlbfill => true | .ertn => true | .idle _ => true | .invtlb op _ _ => op ≤ 6#5
  | .rdcntvlW _ | .rdcntidW _ | .rdcntvhW _ | .addW _ _ _ | .subW _ _ _ | .slt _ _ _ | .sltu _ _ _ | .nor _ _ _
  | .and _ _ _ | .or _ _ _ | .xor _ _ _ | .sllW _ _ _ | .srlW _ _ _ | .sraW _ _ _ | .mulW _ _ _ | .mulhW _ _ _
  | .mulhWu _ _ _ | .divW _ _ _ | .modW _ _ _ | .divWu _ _ _ | .modWu _ _ _ | .brk _ | .syscall _ | .slliW _ _ _
  | .srliW _ _ _ | .sraiW _ _ _ | .slti _ _ _ | .sltui _ _ _ | .addiW _ _ _ | .andi _ _ _ | .ori _ _ _ | .xori _ _ _
  | .lu12iW _ _ | .pcaddu12i _ _ | .llW _ _ _ | .scW _ _ _ | .ldB _ _ _ | .ldH _ _ _ | .ldW _ _ _ | .stB _ _ _
  | .stH _ _ _ | .stW _ _ _ | .ldBu _ _ _ | .ldHu _ _ _ | .preld _ _ _ | .dbar _ | .ibar _ | .jirl _ _ _ | .b _
  | .bl _ | .beq _ _ _ | .bne _ _ _ | .blt _ _ _ | .bge _ _ _ | .bltu _ _ _ | .bgeu _ _ _ | .invalid _ => false

/-- The synchronous exceptions that phase B finds, each with its Ecode and the BADV after its entry
(60_exceptions.md R403, R422 to R427). -/
inductive Raised : Instr → State → BitVec 6 → Word → Prop where
  /-- INE at the wildcard (R426). -/
  | invalidWord (w : Word) (s : State) : Raised (.invalid w) s 0xD#6 s.csr.badv
  /-- INE at INVTLB with `op > 6`, at every level (R426). -/
  | invtlbOp (op : BitVec 5) (rj rk : Reg) (s : State) (h : 6 < op.toNat) : Raised (.invtlb op rj rk) s 0xD#6 s.csr.badv
  /-- IPE at a privileged instruction at PLV ≠ 0 (R427). -/
  | privilege (i : Instr) (s : State) (h : isPrivileged i = true) (hp : crmdPlv s ≠ 0#2) : Raised i s 0xE#6 s.csr.badv
  /-- SYS at every SYSCALL (R424). -/
  | syscall (code : BitVec 15) (s : State) : Raised (.syscall code) s 0xB#6 s.csr.badv
  /-- BRK at a BREAK that does not end the run (R425). -/
  | brk (code : BitVec 15) (s : State) (h : s.platform.breakIsHalt = false) : Raised (.brk code) s 0xC#6 s.csr.badv
  /-- ALE at a half-word access to an odd address (R422). -/
  | half (i : Instr) (rd rj : Reg) (si12 : BitVec 12) (s : State)
      (hi : i = .ldH rd rj si12 ∨ i = .ldHu rd rj si12 ∨ i = .stH rd rj si12)
      (h : (readReg s rj + si12.signExtend 32).toNat % 2 ≠ 0) : Raised i s 0x9#6 (readReg s rj + si12.signExtend 32)
  /-- ALE at a word access off a multiple of 4 (R422). -/
  | word (i : Instr) (rd rj : Reg) (si12 : BitVec 12) (s : State) (hi : i = .ldW rd rj si12 ∨ i = .stW rd rj si12)
      (h : (readReg s rj + si12.signExtend 32).toNat % 4 ≠ 0) : Raised i s 0x9#6 (readReg s rj + si12.signExtend 32)
  /-- ALE at LL.W or SC.W off a multiple of 4, whatever the LLbit is (R422). -/
  | linked (i : Instr) (rd rj : Reg) (si14 : BitVec 14) (s : State) (hi : i = .llW rd rj si14 ∨ i = .scW rd rj si14)
      (h : (readReg s rj + BitVec.ofInt 32 (si14.toInt * 4)).toNat % 4 ≠ 0) :
      Raised i s 0x9#6 (readReg s rj + BitVec.ofInt 32 (si14.toInt * 4))

/-- The TLB instructions in their valid forms (60_exceptions.md R407; 43_system.md R370 to R374). -/
def isTlb (i : Instr) : Prop :=
  i = .tlbsrch ∨ i = .tlbrd ∨ i = .tlbwr ∨ i = .tlbfill ∨ ∃ op rj rk, i = .invtlb op rj rk ∧ op.toNat ≤ 6

/-! ## Router and CSR writes -/

/-- The `n` bytes from address `a` lie in backing memory (20_memory.md R100, R107). -/
def insideBacking (s : State) (a : Word) (n : Nat) : Prop :=
  s.platform.pmemBase ≤ a.toNat ∧ a.toNat + n ≤ s.platform.pmemBase + s.platform.pmemSize

/-- The `n` bytes from address `a` lie in no single target: neither in backing memory nor in one region
(20_memory.md R106, R107). -/
def insideNothing (s : State) (a : Word) (n : Nat) : Prop :=
  ¬insideBacking s a n ∧ ∀ g ∈ s.platform.regions, ¬(g.base ≤ a.toNat ∧ a.toNat + n ≤ g.base + g.size)

/-- The out-of-bound fault of an access at `a`: address, pc, first and last address of backing memory
(20_memory.md R106); at PMEM_BASE = PMEM_SIZE = 0 the last address 0 is the model's choice (log 17). -/
def outOfBoundAt (a : Word) (s : State) : Fault :=
  .outOfBound a s.pc s.platform.pmemBase (s.platform.pmemBase + s.platform.pmemSize - 1)

/-- The word a fetch reads: the little-endian word of backing memory at the pc, or the free word of the region there
(20_memory.md R114). -/
def fetchedWord (s : State) (w : Word) : Prop :=
  (insideBacking s s.pc 4 ∧ w = BitVec.ofNat 32 (littleEndian s s.pc.toNat 4)) ∨
    (¬insideBacking s s.pc 4 ∧ ∃ g, regionOf s.platform s.pc.toNat 4 = some g ∧
      w = Config.devRead s.draws g.base (s.pc.toNat - g.base))

/-- The shadow buffers hold the bytes of `v` at the four addresses from `a`, little-endian, and every other byte of them
as before (20_memory.md R109 to R111). -/
def shadowStored (a : Word) (v : Word) (before after : List Host.Cell) : Prop :=
  (∀ k, k < 4 → shadowAt after (a.toNat + k) = v.extractLsb' (8 * k) 8) ∧
    ∀ x, x < a.toNat ∨ a.toNat + 4 ≤ x → shadowAt after x = shadowAt before x

/-- The CSR numbers of 10_state.md R42, written out from its table. -/
def specNumber : Csr → BitVec 14
  | .crmd => 0x000#14 | .prmd => 0x001#14 | .euen => 0x002#14 | .ecfg => 0x004#14 | .estat => 0x005#14
  | .era => 0x006#14 | .badv => 0x007#14 | .eentry => 0x00C#14 | .tlbidx => 0x010#14 | .tlbehi => 0x011#14
  | .tlbelo0 => 0x012#14 | .tlbelo1 => 0x013#14 | .asid => 0x018#14 | .pgdl => 0x019#14 | .pgdh => 0x01A#14
  | .pgd => 0x01B#14 | .cpuid => 0x020#14 | .save0 => 0x030#14 | .save1 => 0x031#14 | .save2 => 0x032#14
  | .save3 => 0x033#14 | .tid => 0x040#14 | .tcfg => 0x041#14 | .tval => 0x042#14 | .ticlr => 0x044#14
  | .llbctl => 0x060#14 | .tlbrentry => 0x088#14 | .ctag => 0x098#14 | .dmw0 => 0x180#14 | .dmw1 => 0x181#14

/-- `WMASK`, written out from 10_state.md R49. -/
def specWmask : Csr → Word
  | .crmd => 0x000001FF#32 | .prmd => 0x00000007#32 | .euen => 0x00000001#32 | .ecfg => 0x00001BFF#32
  | .estat => 0x00000003#32 | .era => 0xFFFFFFFF#32 | .badv => 0xFFFFFFFF#32 | .eentry => 0xFFFFFFC0#32
  | .tlbidx => 0xBF00000F#32 | .tlbehi => 0xFFFFE000#32 | .tlbelo0 => 0x0FFFFF7F#32 | .tlbelo1 => 0x0FFFFF7F#32
  | .asid => 0x000003FF#32 | .pgdl => 0xFFFFF000#32 | .pgdh => 0xFFFFF000#32 | .pgd => 0x00000000#32
  | .cpuid => 0x00000000#32 | .save0 => 0xFFFFFFFF#32 | .save1 => 0xFFFFFFFF#32 | .save2 => 0xFFFFFFFF#32
  | .save3 => 0xFFFFFFFF#32 | .tid => 0xFFFFFFFF#32 | .tcfg => 0xFFFFFFFF#32 | .tval => 0x00000000#32
  | .ticlr => 0x00000000#32 | .llbctl => 0x00000004#32 | .tlbrentry => 0xFFFFFFC0#32 | .ctag => 0xFFFFFFFF#32
  | .dmw0 => 0xEE000039#32 | .dmw1 => 0xEE000039#32

/-- The bits a CSR stores: its RW bits, and the `R` bits of ESTAT, CPUID and TVAL that the hardware maintains
(10_state.md R49, R54, R65, R69). -/
def specStoredMask (c : Csr) : Word :=
  if c = .estat then 0x7FFF1BFF#32 else if c = .cpuid then 0x000001FF#32 else if c = .tval then 0xFFFFFFFF#32
  else specWmask c

/-- The value a read of an implemented CSR returns (10_state.md R48): the stored RW and R bits, zeros in the others;
PGD from BADV, PGDL and PGDH (R64); ASID with ASIDBITS = 10 (R61); LLBCTL with ROLLB = LLbit (R71); TICLR reads 0 (R70). -/
def csrReads (c : Csr) (s : State) (v : Word) : Prop :=
  if c = .pgd then v = (if s.csr.badv.getLsbD 31 then s.csr.pgdh else s.csr.pgdl) &&& 0xFFFFF000#32
  else if c = .asid then v = 0x000A0000#32 ||| (s.csr.asid &&& 0x3FF#32)
  else if c = .llbctl then v = (s.csr.llbctl &&& 0x4#32) ||| (if s.llbit then 1#32 else 0#32)
  else if c = .ticlr then v = 0#32
  else if c = .estat then v = s.csr.estat &&& 0x7FFF1BFF#32
  else if c = .cpuid then v = s.csr.cpuid &&& 0x1FF#32
  else if c = .tval then v = s.csr.tval
  else v = csrStored s.csr c &&& specWmask c

/-- What a CSR write of `v` to the implemented CSR `c` leaves (10_state.md R49): the RW bits of `c` from `v`, its other
bits as before; the side effects of TCFG, TICLR and LLBCTL; every other CSR as before. -/
def csrWritten (c : Csr) (v : Word) (s t : State) : Prop :=
  (c ≠ .pgd → c ≠ .ticlr → ∀ k, (csrStored t.csr c).getLsbD k =
    if (specWmask c).getLsbD k then v.getLsbD k else (csrStored s.csr c).getLsbD k) ∧
  (∀ d, d ≠ c → ¬(c = .tcfg ∧ d = .tval) → ¬(c = .ticlr ∧ d = .estat) → csrStored t.csr d = csrStored s.csr d) ∧
  (c = .tcfg → t.csr.tval.extractLsb' 2 30 = v.extractLsb' 2 30 ∧ t.csr.tval.extractLsb' 0 2 = 0#2) ∧
  (c = .ticlr → ∀ k, t.csr.estat.getLsbD k = (s.csr.estat.getLsbD k && !(k == 11 && v.getLsbD 0))) ∧
  t.timerEn = (if c = .tcfg then v.getLsbD 0 else s.timerEn) ∧
  t.llbit = (s.llbit && !(c == .llbctl && v.getLsbD 1))

/-! ## Invariants -/

/-- r0's slot holds 0: "`gpr[0]` reads as zero at the start of every step" (10_state.md R31). -/
def r0IsZero (s : State) : Prop := s.gpr[0] = 0#32

/-- Backing memory and the shadow buffers are in canonical form. -/
def memoryCanonical (s : State) : Prop := Memory.wf s.mem = true ∧ Shadow.wf s.shadow = true

/-- Every listed byte of backing memory lies in its range (20_memory.md R100), and every listed byte of the shadow buffers
in a region (R110). -/
def memoryInside (s : State) : Prop :=
  (∀ c ∈ s.mem, s.platform.pmemBase ≤ c.1 ∧ c.1 < s.platform.pmemBase + s.platform.pmemSize) ∧
    ∀ c ∈ s.shadow, ∃ g ∈ s.platform.regions, g.base ≤ c.1 ∧ c.1 < g.base + g.size

/-- The bits of a CSR that its rule stores nothing in hold 0 (10_state.md R43, R50 to R74). -/
def reservedBitsZero (s : State) : Prop := ∀ c : Csr, csrStored s.csr c &&& ~~~specStoredMask c = 0#32

/-- The Ecodes this hardware raises (60_exceptions.md R419). -/
def raisedEcodes : List (BitVec 6) := [0x0#6, 0x8#6, 0x9#6, 0xB#6, 0xC#6, 0xD#6, 0xE#6]

/-- ESTAT holds the code of a cause this hardware raises, with EsubCode 0 (60_exceptions.md R419, R423). -/
def causeIsRaised (s : State) : Prop := estatEcode s ∈ raisedEcodes ∧ estatEsubcode s = 0#9

/-- No inter-processor interrupt is pending, and the core number is 0 (60_exceptions.md R461). -/
def singleCore (s : State) : Prop := s.csr.estat.getLsbD 12 = false ∧ s.csr.cpuid = 0#32

/-- Every pending hardware interrupt has its line raised (60_exceptions.md R431). -/
def pendingHaveLines (s : State) : Prop := ∀ k, 2 ≤ k → k ≤ 9 → s.csr.estat.getLsbD k = true → s.lines.getLsbD k = true

/-- A step may do something: the status is `running` and the core is in direct translation (60_exceptions.md R403). -/
def canStep (s : State) : Prop := s.status = .running ∧ inMappedMode s = false

end Sys2Proof.Machine
end

