-- ==== Sys2Proof/WellFormed.lean ====
section
/-! DEFINITION. Well-formed instructions: the terms that stand for a word of their own row. The operand types already
bound every field; what is left is the first-match order of the catalog (30_encoding.md R160 to R163). -/

namespace Sys2Proof

/-- An instruction is well formed when the word of its row decodes to that row:
RDCNTID.W has `rj ≠ 0` (the word with both fields 0 is RDCNTVL.W, 30_encoding.md R162), CSRXCHG has `rj ≥ 2` (`rj` 0 and
1 are CSRRD and CSRWR, R161), and the wildcard stands for a word that no other row matches (R160). -/
def Instr.wellFormed : Instr → Bool
  | .rdcntidW rj => rj != 0#5
  | .csrxchg _ rj _ => rj != 0#5 && rj != 1#5
  | .invalid word => isInvalidWord word
  | .rdcntvlW _ | .rdcntvhW _ | .addW _ _ _ | .subW _ _ _ | .slt _ _ _ | .sltu _ _ _ | .nor _ _ _ | .and _ _ _
  | .or _ _ _ | .xor _ _ _ | .sllW _ _ _ | .srlW _ _ _ | .sraW _ _ _ | .mulW _ _ _ | .mulhW _ _ _
  | .mulhWu _ _ _ | .divW _ _ _ | .modW _ _ _ | .divWu _ _ _ | .modWu _ _ _ | .brk _ | .syscall _
  | .slliW _ _ _ | .srliW _ _ _ | .sraiW _ _ _ | .slti _ _ _ | .sltui _ _ _ | .addiW _ _ _ | .andi _ _ _
  | .ori _ _ _ | .xori _ _ _ | .csrrd _ _ | .csrwr _ _ | .cacop _ _ _ | .tlbsrch | .tlbrd | .tlbwr | .tlbfill
  | .ertn | .idle _ | .invtlb _ _ _ | .lu12iW _ _ | .pcaddu12i _ _ | .llW _ _ _ | .scW _ _ _ | .ldB _ _ _
  | .ldH _ _ _ | .ldW _ _ _ | .stB _ _ _ | .stH _ _ _ | .stW _ _ _ | .ldBu _ _ _ | .ldHu _ _ _ | .preld _ _ _
  | .dbar _ | .ibar _ | .jirl _ _ _ | .b _ | .bl _ | .beq _ _ _ | .bne _ _ _ | .blt _ _ _ | .bge _ _ _
  | .bltu _ _ _ | .bgeu _ _ _ => true

end Sys2Proof
end

