-- ==== Sys2Proof/Certificates/Slice0/Obligations.lean ====
section
/-! DEFINITION. The statements of this model, one `def Obligations.<Name> : Prop` each. Every docstring names the rules of
spec/ it rests on; a clause that is the model's own choice says so and names its log entry. -/

open Sys2Proof Sys2Proof.Machine

/-! ## Encoding -/

/-- Decode of encode is the instruction, for every well-formed instruction with every operand value
(30_encoding.md R151, R160, R170). -/
def Obligations.DecodeOfEncodeIsInstruction : Prop :=
  ∀ (i : Instr) (rest : List Byte), i.wellFormed = true → decode (encode i ++ rest) = .ok (i, rest)

/-- Encode of decode is the word, and what decodes is well formed: each of the 2^32 words stands for exactly one
well-formed instruction (30_encoding.md R160). -/
def Obligations.EncodeOfDecodeIsWord : Prop :=
  ∀ w : Word, ∃ i, decodeWord w = some i ∧ i.wellFormed = true ∧ encodeWord i = w

/-- Two rows of the catalog before the wildcard share a word only if they are one of the three overlapping pairs of
30_encoding.md R170. -/
def Obligations.CatalogRowsDisjointButThreePairs : Prop :=
  ∀ (k m : Nat) (r q : Row) (w : Word), k < m → m < 67 → catalog[k]? = some r → catalog[m]? = some q →
    rowMatches r w = true → rowMatches q w = true →
    (r.mnemonic = "rdcntvl.w" ∧ q.mnemonic = "rdcntid.w") ∨ (r.mnemonic = "csrrd" ∧ q.mnemonic = "csrxchg") ∨
      (r.mnemonic = "csrwr" ∧ q.mnemonic = "csrxchg")

/-- The words whose rows overlap, told apart by fields (30_encoding.md R161, R162). Counter reads: `rj = 0` and `rd = 0`
select, both zero is RDCNTVL.W r0 and changes nothing but the pc, the other words of the group are invalid. CSR
instructions: `rj` selects, and the CSR number is not checked. -/
def Obligations.OverlappingWords : Prop :=
  (∀ w : Word, w.extractLsb' 10 22 = 0x18#22 →
    (w.extractLsb' 5 5 = 0#5 → decodeWord w = some (.rdcntvlW (w.extractLsb' 0 5))) ∧
    (w.extractLsb' 5 5 ≠ 0#5 → w.extractLsb' 0 5 = 0#5 → decodeWord w = some (.rdcntidW (w.extractLsb' 5 5))) ∧
    (w.extractLsb' 5 5 ≠ 0#5 → w.extractLsb' 0 5 ≠ 0#5 → decodeWord w = some (.invalid w))) ∧
  (∀ w : Word, w.extractLsb' 10 22 = 0x19#22 →
    (w.extractLsb' 5 5 = 0#5 → decodeWord w = some (.rdcntvhW (w.extractLsb' 0 5))) ∧
    (w.extractLsb' 5 5 ≠ 0#5 → decodeWord w = some (.invalid w))) ∧
  decodeWord 0x00006000#32 = some (.rdcntvlW 0#5) ∧ (∀ s, completesIdly (.rdcntvlW 0#5) s) ∧
  (∀ w : Word, w.extractLsb' 24 8 = 0x04#8 →
    (w.extractLsb' 5 5 = 0#5 → decodeWord w = some (.csrrd (w.extractLsb' 0 5) (w.extractLsb' 10 14))) ∧
    (w.extractLsb' 5 5 = 1#5 → decodeWord w = some (.csrwr (w.extractLsb' 0 5) (w.extractLsb' 10 14))) ∧
    (w.extractLsb' 5 5 ≠ 0#5 → w.extractLsb' 5 5 ≠ 1#5 →
      decodeWord w = some (.csrxchg (w.extractLsb' 0 5) (w.extractLsb' 5 5) (w.extractLsb' 10 14))))

/-- The words of every format but the counter reads, CSR instructions and fixed words: register fields, raw immediate
bits above `rj` and `rd`, the split offset of B and BL, the code fields (30_encoding.md R151, R153, R170). -/
def Obligations.FormatWords : Prop :=
  (∀ rd rj rk : Reg,
      let word := fun op : Nat => BitVec.ofNat 32 (op + rk.toNat * 1024 + rj.toNat * 32 + rd.toNat)
      decodeWord (word 0x00100000) = some (.addW rd rj rk) ∧ decodeWord (word 0x00110000) = some (.subW rd rj rk) ∧
      decodeWord (word 0x00120000) = some (.slt rd rj rk) ∧ decodeWord (word 0x00128000) = some (.sltu rd rj rk) ∧
      decodeWord (word 0x00140000) = some (.nor rd rj rk) ∧ decodeWord (word 0x00148000) = some (.and rd rj rk) ∧
      decodeWord (word 0x00150000) = some (.or rd rj rk) ∧ decodeWord (word 0x00158000) = some (.xor rd rj rk) ∧
      decodeWord (word 0x00170000) = some (.sllW rd rj rk) ∧ decodeWord (word 0x00178000) = some (.srlW rd rj rk) ∧
      decodeWord (word 0x00180000) = some (.sraW rd rj rk) ∧ decodeWord (word 0x001C0000) = some (.mulW rd rj rk) ∧
      decodeWord (word 0x001C8000) = some (.mulhW rd rj rk) ∧ decodeWord (word 0x001D0000) = some (.mulhWu rd rj rk) ∧
      decodeWord (word 0x00200000) = some (.divW rd rj rk) ∧ decodeWord (word 0x00208000) = some (.modW rd rj rk) ∧
      decodeWord (word 0x00210000) = some (.divWu rd rj rk) ∧ decodeWord (word 0x00218000) = some (.modWu rd rj rk) ∧
      decodeWord (word 0x00408000) = some (.slliW rd rj rk) ∧ decodeWord (word 0x00448000) = some (.srliW rd rj rk) ∧
      decodeWord (word 0x00488000) = some (.sraiW rd rj rk) ∧ decodeWord (word 0x06498000) = some (.invtlb rd rj rk)) ∧
  ∀ rd rj : Reg,
      (∀ i12 : BitVec 12,
        let word := fun op : Nat => BitVec.ofNat 32 (op + i12.toNat * 1024 + rj.toNat * 32 + rd.toNat)
        decodeWord (word 0x02000000) = some (.slti rd rj i12) ∧ decodeWord (word 0x02400000) = some (.sltui rd rj i12) ∧
        decodeWord (word 0x02800000) = some (.addiW rd rj i12) ∧ decodeWord (word 0x03400000) = some (.andi rd rj i12) ∧
        decodeWord (word 0x03800000) = some (.ori rd rj i12) ∧ decodeWord (word 0x03C00000) = some (.xori rd rj i12) ∧
        decodeWord (word 0x06000000) = some (.cacop rd rj i12) ∧ decodeWord (word 0x28000000) = some (.ldB rd rj i12) ∧
        decodeWord (word 0x28400000) = some (.ldH rd rj i12) ∧ decodeWord (word 0x28800000) = some (.ldW rd rj i12) ∧
        decodeWord (word 0x29000000) = some (.stB rd rj i12) ∧ decodeWord (word 0x29400000) = some (.stH rd rj i12) ∧
        decodeWord (word 0x29800000) = some (.stW rd rj i12) ∧ decodeWord (word 0x2A000000) = some (.ldBu rd rj i12) ∧
        decodeWord (word 0x2A400000) = some (.ldHu rd rj i12) ∧ decodeWord (word 0x2AC00000) = some (.preld rd rj i12)) ∧
      (∀ i14 : BitVec 14,
        let word := fun op : Nat => BitVec.ofNat 32 (op + i14.toNat * 1024 + rj.toNat * 32 + rd.toNat)
        decodeWord (word 0x20000000) = some (.llW rd rj i14) ∧ decodeWord (word 0x21000000) = some (.scW rd rj i14)) ∧
      (∀ i20 : BitVec 20,
        let word := fun op : Nat => BitVec.ofNat 32 (op + i20.toNat * 32 + rd.toNat)
        decodeWord (word 0x14000000) = some (.lu12iW rd i20) ∧ decodeWord (word 0x1C000000) = some (.pcaddu12i rd i20)) ∧
      (∀ offs : BitVec 16,
        let word := fun op : Nat => BitVec.ofNat 32 (op + offs.toNat * 1024 + rj.toNat * 32 + rd.toNat)
        decodeWord (word 0x4C000000) = some (.jirl rd rj offs) ∧ decodeWord (word 0x58000000) = some (.beq rj rd offs) ∧
        decodeWord (word 0x5C000000) = some (.bne rj rd offs) ∧ decodeWord (word 0x60000000) = some (.blt rj rd offs) ∧
        decodeWord (word 0x64000000) = some (.bge rj rd offs) ∧ decodeWord (word 0x68000000) = some (.bltu rj rd offs) ∧
        decodeWord (word 0x6C000000) = some (.bgeu rj rd offs)) ∧
      (∀ offs : BitVec 26,
        let word := fun op : Nat => BitVec.ofNat 32 (op + offs.toNat % 65536 * 1024 + offs.toNat / 65536)
        decodeWord (word 0x50000000) = some (.b offs) ∧ decodeWord (word 0x54000000) = some (.bl offs)) ∧
      (∀ code : BitVec 15,
        let word := fun op : Nat => BitVec.ofNat 32 (op + code.toNat)
        decodeWord (word 0x002A0000) = some (.brk code) ∧ decodeWord (word 0x002B0000) = some (.syscall code) ∧
        decodeWord (word 0x06488000) = some (.idle code) ∧ decodeWord (word 0x38720000) = some (.dbar code) ∧
        decodeWord (word 0x38728000) = some (.ibar code))

/-- A few words of the spec's own test vectors decode to the instructions they stand for (95_test_vectors.md sections 2 to
6 and 10). A sanity statement. -/
def Obligations.SampleWordsDecode : Prop :=
  decodeWord 0x001018A4#32 = some (.addW 4 5 6) ∧ decodeWord 0x02BFFCA4#32 = some (.addiW 4 5 0xFFF) ∧
  decodeWord 0x5FFFFC85#32 = some (.bne 4 5 0xFFFF) ∧ decodeWord 0x297FF8A4#32 = some (.stH 4 5 0xFFE) ∧
  decodeWord 0x040010A4#32 = some (.csrxchg 4 5 4) ∧ decodeWord 0x064998A0#32 = some (.invtlb 0 5 6) ∧
  decodeWord 0x06483800#32 = some .ertn ∧ decodeWord 0x06483801#32 = some (.invalid 0x06483801)

/-! ## The step -/

/-- When the bytes at an aligned pc in backing memory decode to an instruction, the step of a running core in direct
translation that does not wait is: phase A (the lines sampled, the idle bit cleared); an enabled interrupt if the
instruction raises nothing, else `exec` of the instruction; phase D (60_exceptions.md R403, R402). -/
def Obligations.StepRunsDecodedInstruction : Prop :=
  ∀ (s : State) (i : Instr), canStep s → stillWaiting (sampleLines s) = false →
    s.pc.toNat % 4 = 0 → insideBacking s s.pc 4 →
    decode [memByte s.mem s.pc.toNat, memByte s.mem (s.pc.toNat + 1), memByte s.mem (s.pc.toNat + 2),
      memByte s.mem (s.pc.toNat + 3)] = .ok (i, []) →
    step s =
      if raises i (wake (sampleLines s)) = none ∧
          interruptDue (wake (sampleLines s)) = true then
        .next (endOfStep (enter causeInt (wake (sampleLines s))))
      else finish (exec i (wake (sampleLines s)))

/-- A fetch from a device region is a region read: the handler is called once, the shadow buffer holds the free word
`dev_read`, and the instruction is that of the word; nothing else changes before phase C (20_memory.md R114, R109).
Three things are the model's choice: the free word and the draw counter (log 4; the statement holds for every value of the
word), that the read leaves every other byte of the shadow buffers as before (log 6), and the record of the read in
`events` (log 7). -/
def Obligations.FetchFromRegionRunsDeviceWord : Prop :=
  ∀ (s : State) (g : Region) (i : Instr), canStep s → stillWaiting (sampleLines s) = false →
    s.pc.toNat % 4 = 0 → ¬insideBacking s s.pc 4 → regionOf s.platform s.pc.toNat 4 = some g →
    let w := Config.devRead s.draws g.base (s.pc.toNat - g.base)
    decodeWord w = some i →
    ∃ shadow, shadowStored s.pc w s.shadow shadow ∧
      let u := { wake (sampleLines s) with
        shadow := shadow, events := s.events ++ [.read g.base (s.pc.toNat - g.base) w], draws := s.draws + 1 }
      step s = if raises i u = none ∧ interruptDue u = true then .next (endOfStep (enter causeInt u))
        else finish (exec i u)

/-- Synchronous before asynchronous. The check that decides it finds exactly the exceptions of phase B, `exec` takes each of
them, and at an instruction that raises one the step takes it whatever interrupt is pending, the pending bits kept
(60_exceptions.md R429, R403). -/
def Obligations.SynchronousExceptionBeforeInterrupt : Prop :=
  (∀ (i : Instr) (s : State) (code : BitVec 6) (badv : Word), Raised i s code badv ↔
    ∃ c, raises i s = some c ∧ ecode c.name = code ∧ esubcode c.name = 0#9 ∧
      (if ecode c.name = 0x8#6 ∨ ecode c.name = 0x9#6 then c.badv else s.csr.badv) = badv) ∧
  (∀ (i : Instr) (s : State) (code : BitVec 6) (badv : Word), Raised i s code badv → takesException i s code badv) ∧
  ∀ (s : State) (i : Instr) (code : BitVec 6) (badv : Word), canStep s → stillWaiting (sampleLines s) = false →
    s.pc.toNat % 4 = 0 → insideBacking s s.pc 4 → decodeWord (memReadBytes s.mem s.pc.toNat 4) = some i →
    Raised i (wake (sampleLines s)) code badv →
    ∃ t, step s = .next (endOfStep t) ∧ Entered code 0#9 badv (wake (sampleLines s)) t

/-- An interrupt is taken when a pending bit is enabled, CRMD.IE is set and the instruction raises nothing: Ecode 0,
ERA the pc of the instruction not executed, BADV unchanged, the pending bits kept (60_exceptions.md R430, R413). -/
def Obligations.InterruptIsTaken : Prop :=
  ∀ (s : State) (i : Instr), canStep s → stillWaiting (sampleLines s) = false →
    s.pc.toNat % 4 = 0 → insideBacking s s.pc 4 → decodeWord (memReadBytes s.mem s.pc.toNat 4) = some i →
    (∀ code badv, ¬Raised i (wake (sampleLines s)) code badv) →
    (sampleLines s).csr.estat &&& s.csr.ecfg &&& 0x00001BFF#32 ≠ 0#32 → crmdIe s = true →
    ∃ t, step s = .next (endOfStep t) ∧
      Entered 0x0#6 0#9 s.csr.badv (wake (sampleLines s)) t

/-- A pc that is not a multiple of 4 raises ADEF before any fetch, with ERA = BADV = pc (60_exceptions.md R420). -/
def Obligations.MisalignedPcRaisesAdef : Prop :=
  ∀ s : State, canStep s → stillWaiting (sampleLines s) = false → s.pc.toNat % 4 ≠ 0 →
    ∃ t, step s = .next (endOfStep t) ∧ Entered 0x8#6 0#9 s.pc (wake (sampleLines s)) t

/-- While the core idles and nothing pending is enabled, a step changes no register, no memory and not the pc, and only
samples, counts and ticks; once something enabled is pending, whatever CRMD.IE is, the step is the step of the same state
with the idle bit clear (60_exceptions.md R404). -/
def Obligations.IdleStepWaitsOrWakes : Prop :=
  ∀ s : State, canStep s → s.idle = true →
    ((sampleLines s).csr.estat &&& s.csr.ecfg &&& 0x00001BFF#32 = 0#32 →
      ∃ t, step s = .next t ∧ t = timerTick (refreshCounter (zeroR0 (sampleLines s))) ∧ t.pc = s.pc ∧ t.idle = true ∧
        sameRegs s t ∧ sameMemory s t) ∧
    ((sampleLines s).csr.estat &&& s.csr.ecfg &&& 0x00001BFF#32 ≠ 0#32 → step s = step (wake s))

/-- halted, faulted and refused are terminal: a further call answers the same and changes nothing (60_exceptions.md
R408). That a halted core answers `next` with the same state is the model's rendering of the outcome (log 11). -/
def Obligations.TerminalStatusRepeats : Prop :=
  ∀ s : State, (∀ c, s.status = .halted c → step s = .next s) ∧ (∀ f, s.status = .faulted f → step s = .fault f) ∧
    (∀ r, s.status = .refused r → step s = .refused r)

/-- A running core's step faults only for memory: out of bound, with the step's pc and the range, or a region access that
is not 4 bytes wide; and a fetch outside every target does fault (60_exceptions.md R406; 20_memory.md R106, R114). The
last address reported when backing memory is empty at address 0 is the model's choice (log 17). -/
def Obligations.StepFaultsAreRouterFaults : Prop :=
  (∀ (s : State) (f : Fault), s.status = .running → step s = .fault f →
    ∃ a, f = outOfBoundAt a s ∨ f = .mmioWidth a s.pc 1 ∨ f = .mmioWidth a s.pc 2) ∧
  ∀ s : State, canStep s → stillWaiting (sampleLines s) = false → s.pc.toNat % 4 = 0 → insideNothing s s.pc 4 →
    step s = .fault (outOfBoundAt s.pc s)

/-- A running core's step is refused in mapped mode (CRMD.DA ≠ 1 or CRMD.PG ≠ 0), before anything else, and else only at a
TLB instruction in PLV0: the word at the aligned pc decodes to TLBSRCH, TLBRD, TLBWR, TLBFILL or INVTLB with `op ≤ 6`
(60_exceptions.md R407; 20_memory.md R122). -/
def Obligations.StepRefusalsAreTheSpecs : Prop :=
  ∀ s : State, s.status = .running →
    (s.csr.crmd.getLsbD 3 = false ∨ s.csr.crmd.getLsbD 4 = true → step s = .refused .mappedMode) ∧
    (s.csr.crmd.getLsbD 3 = true → s.csr.crmd.getLsbD 4 = false → ∀ r, step s = .refused r →
      r = .tlbInstruction ∧ crmdPlv s = 0#2 ∧ s.pc.toNat % 4 = 0 ∧
        ∃ w i, fetchedWord s w ∧ decodeWord w = some i ∧ isTlb i)

/-! ## Exceptions, privilege, return -/

/-- Taking an exception or interrupt, field by field, for every cause (60_exceptions.md R412). -/
def Obligations.EntryEffect : Prop :=
  ∀ (c : Cause) (s : State),
    Entered (ecode c.name) (esubcode c.name)
      (if ecode c.name = 0x8#6 ∨ ecode c.name = 0x9#6 then c.badv else s.csr.badv) s (enter c s)

/-- ERTN at PLV0: the mode bits restored from PRMD, the LLbit cleared unless KLO keeps it once, on to ERA; nothing else
changes (43_system.md R355). -/
def Obligations.ErtnCompletes : Prop :=
  ∀ s : State, crmdPlv s = 0#2 →
    ∃ t, exec .ertn s = .next t ∧ crmdPlv t = prmdPplv s ∧ crmdIe t = prmdPie s ∧
      t.csr.crmd.extractLsb' 3 29 = s.csr.crmd.extractLsb' 3 29 ∧ t.pc = s.csr.era ∧
      (llbctlKlo s = false → t.llbit = false) ∧ (llbctlKlo s = true → t.llbit = s.llbit) ∧
      (∀ k, t.csr.llbctl.getLsbD k = (s.csr.llbctl.getLsbD k && k != 2)) ∧
      (∀ d, d ≠ .crmd → d ≠ .llbctl → csrStored t.csr d = csrStored s.csr d) ∧
      sameRegs s t ∧ sameHidden s t ∧ sameMemory s t ∧ sameDevices s t

/-- Entry then ERTN: the mode bits come back exactly as saved and execution resumes at the saved address
(43_system.md R355). -/
def Obligations.EntryThenErtnRoundTrip : Prop :=
  ∀ (c : Cause) (s : State),
    ∃ t, exec .ertn (enter c s) = .next t ∧ t.csr.crmd = s.csr.crmd ∧ t.pc = s.pc ∧ sameRegs s t ∧ sameMemory s t

/-- A privileged instruction at PLV ≠ 0 raises IPE, with ERA its pc; no other instruction raises it
(60_exceptions.md R427, R441). -/
def Obligations.PrivilegedInstructionsRaiseIpe : Prop :=
  (∀ (i : Instr) (s : State), isPrivileged i = true → crmdPlv s ≠ 0#2 → takesException i s 0xE#6 s.csr.badv) ∧
  ∀ (i : Instr) (s : State) (c : Cause), raises i s = some c → c.name = .ipe →
    isPrivileged i = true ∧ crmdPlv s ≠ 0#2

/-- Every SYSCALL, whatever its code and the level, raises SYS with ERA its pc (60_exceptions.md R424). -/
def Obligations.SyscallRaisesSys : Prop :=
  ∀ (code : BitVec 15) (s : State), takesException (.syscall code) s 0xB#6 s.csr.badv

/-- BREAK ends the run with the exit code in r4 when BREAK_IS_HALT is true, the pc past it and nothing else changed, and
raises BRK when it is false (43_system.md R351; 60_exceptions.md R425). That the halting step answers `next` with status
`halted` is the model's rendering of the outcome `trapped` (log 11). -/
def Obligations.BreakHaltsOrRaisesBrk : Prop :=
  ∀ (code : BitVec 15) (s : State),
    (s.platform.breakIsHalt = true →
      ∃ t, exec (.brk code) s = .next t ∧ t.status = .halted (readReg s 4#5) ∧ t.pc = s.pc + 4#32 ∧ sameRegs s t ∧
        t.csr = s.csr ∧ t.llbit = s.llbit ∧ t.counter = s.counter ∧ t.timerEn = s.timerEn ∧ t.idle = s.idle ∧
        t.lines = s.lines ∧ t.platform = s.platform ∧ sameMemory s t ∧ sameDevices s t) ∧
    (s.platform.breakIsHalt = false → takesException (.brk code) s 0xC#6 s.csr.badv)

/-- A word that is no instruction, and INVTLB with `op > 6` at every level, raise INE with ERA the pc
(60_exceptions.md R426). -/
def Obligations.InvalidInstructionsRaiseIne : Prop :=
  (∀ (w : Word) (s : State), takesException (.invalid w) s 0xD#6 s.csr.badv) ∧
  ∀ (op : BitVec 5) (rj rk : Reg) (s : State), 6 < op.toNat → takesException (.invtlb op rj rk) s 0xD#6 s.csr.badv

/-- Half-word accesses at odd addresses and word accesses off a multiple of 4 raise ALE with BADV the address; SC.W
whatever the LLbit is (60_exceptions.md R422). -/
def Obligations.MisalignedAccessesRaiseAle : Prop :=
  ∀ (rd rj : Reg) (s : State),
    (∀ si12 : BitVec 12, (readReg s rj + si12.signExtend 32).toNat % 2 ≠ 0 →
      takesException (.ldH rd rj si12) s 0x9#6 (readReg s rj + si12.signExtend 32) ∧
      takesException (.ldHu rd rj si12) s 0x9#6 (readReg s rj + si12.signExtend 32) ∧
      takesException (.stH rd rj si12) s 0x9#6 (readReg s rj + si12.signExtend 32)) ∧
    (∀ si12 : BitVec 12, (readReg s rj + si12.signExtend 32).toNat % 4 ≠ 0 →
      takesException (.ldW rd rj si12) s 0x9#6 (readReg s rj + si12.signExtend 32) ∧
      takesException (.stW rd rj si12) s 0x9#6 (readReg s rj + si12.signExtend 32)) ∧
    (∀ si14 : BitVec 14, (readReg s rj + BitVec.ofInt 32 (si14.toInt * 4)).toNat % 4 ≠ 0 →
      takesException (.llW rd rj si14) s 0x9#6 (readReg s rj + BitVec.ofInt 32 (si14.toInt * 4)) ∧
      takesException (.scW rd rj si14) s 0x9#6 (readReg s rj + BitVec.ofInt 32 (si14.toInt * 4)))

/-! ## Integer results -/

/-- ADD.W, SUB.W, ADDI.W, LU12I.W, PCADDU12I: sums modulo 2^32, no trap on overflow (40_integer.md R200 to R204, R209). -/
def Obligations.AddSubtractResults : Prop :=
  ∀ (rd rj rk : Reg) (s : State),
    completesWriting (.addW rd rj rk) s rd (BitVec.ofNat 32 ((readReg s rj).toNat + (readReg s rk).toNat)) ∧
    completesWriting (.subW rd rj rk) s rd (BitVec.ofInt 32 ((readReg s rj).toInt - (readReg s rk).toInt)) ∧
    (∀ si12 : BitVec 12,
      completesWriting (.addiW rd rj si12) s rd (BitVec.ofInt 32 ((readReg s rj).toInt + si12.toInt))) ∧
    (∀ si20 : BitVec 20, completesWriting (.lu12iW rd si20) s rd (BitVec.ofNat 32 (si20.toNat * 4096))) ∧
    (∀ si20 : BitVec 20,
      completesWriting (.pcaddu12i rd si20) s rd (BitVec.ofNat 32 (s.pc.toNat + si20.toNat * 4096)))

/-- SLT, SLTU, SLTI, SLTUI: 1 or 0 by the signed or unsigned order; SLTUI compares unsigned with the sign-extended
immediate (40_integer.md R205 to R208). -/
def Obligations.CompareResults : Prop :=
  ∀ (rd rj rk : Reg) (si12 : BitVec 12) (s : State),
    completesWriting (.slt rd rj rk) s rd (if (readReg s rj).toInt < (readReg s rk).toInt then 1#32 else 0#32) ∧
    completesWriting (.sltu rd rj rk) s rd (if (readReg s rj).toNat < (readReg s rk).toNat then 1#32 else 0#32) ∧
    completesWriting (.slti rd rj si12) s rd (if (readReg s rj).toInt < si12.toInt then 1#32 else 0#32) ∧
    completesWriting (.sltui rd rj si12) s rd
      (if (readReg s rj).toNat < (si12.signExtend 32).toNat then 1#32 else 0#32)

/-- AND, OR, NOR, XOR, ANDI, ORI, XORI, bit by bit; the immediate is zero-extended (40_integer.md R210 to R216). -/
def Obligations.LogicResults : Prop :=
  ∀ (rd rj rk : Reg) (ui12 : BitVec 12) (s : State),
    (∃ v, completesWriting (.and rd rj rk) s rd v ∧
      ∀ k, k < 32 → v.getLsbD k = ((readReg s rj).getLsbD k && (readReg s rk).getLsbD k)) ∧
    (∃ v, completesWriting (.or rd rj rk) s rd v ∧
      ∀ k, k < 32 → v.getLsbD k = ((readReg s rj).getLsbD k || (readReg s rk).getLsbD k)) ∧
    (∃ v, completesWriting (.nor rd rj rk) s rd v ∧
      ∀ k, k < 32 → v.getLsbD k = !((readReg s rj).getLsbD k || (readReg s rk).getLsbD k)) ∧
    (∃ v, completesWriting (.xor rd rj rk) s rd v ∧
      ∀ k, k < 32 → v.getLsbD k = ((readReg s rj).getLsbD k != (readReg s rk).getLsbD k)) ∧
    (∃ v, completesWriting (.andi rd rj ui12) s rd v ∧
      ∀ k, k < 32 → v.getLsbD k = ((readReg s rj).getLsbD k && decide (k < 12) && ui12.getLsbD k)) ∧
    (∃ v, completesWriting (.ori rd rj ui12) s rd v ∧
      ∀ k, k < 32 → v.getLsbD k = ((readReg s rj).getLsbD k || (decide (k < 12) && ui12.getLsbD k))) ∧
    (∃ v, completesWriting (.xori rd rj ui12) s rd v ∧
      ∀ k, k < 32 → v.getLsbD k = ((readReg s rj).getLsbD k != (decide (k < 12) && ui12.getLsbD k)))

/-- Shifts: the register amount is taken modulo 32; left drops the high bits, right logical divides, right arithmetic
divides rounding down (40_integer.md R217 to R222). -/
def Obligations.ShiftResults : Prop :=
  ∀ (rd rj rk : Reg) (ui5 : BitVec 5) (s : State),
    completesWriting (.sllW rd rj rk) s rd
      (BitVec.ofNat 32 ((readReg s rj).toNat * 2 ^ ((readReg s rk).toNat % 32))) ∧
    completesWriting (.srlW rd rj rk) s rd
      (BitVec.ofNat 32 ((readReg s rj).toNat / 2 ^ ((readReg s rk).toNat % 32))) ∧
    completesWriting (.sraW rd rj rk) s rd
      (BitVec.ofInt 32 ((readReg s rj).toInt / 2 ^ ((readReg s rk).toNat % 32))) ∧
    completesWriting (.slliW rd rj ui5) s rd (BitVec.ofNat 32 ((readReg s rj).toNat * 2 ^ ui5.toNat)) ∧
    completesWriting (.srliW rd rj ui5) s rd (BitVec.ofNat 32 ((readReg s rj).toNat / 2 ^ ui5.toNat)) ∧
    completesWriting (.sraiW rd rj ui5) s rd (BitVec.ofInt 32 ((readReg s rj).toInt / 2 ^ ui5.toNat))

/-- MUL.W is the low word of the product; MULH.W and MULH.WU are the high words of the exact signed and unsigned
products (40_integer.md R223 to R225). -/
def Obligations.MultiplyResults : Prop :=
  ∀ (rd rj rk : Reg) (s : State),
    completesWriting (.mulW rd rj rk) s rd (BitVec.ofNat 32 ((readReg s rj).toNat * (readReg s rk).toNat)) ∧
    completesWriting (.mulhW rd rj rk) s rd
      (BitVec.ofInt 32 ((readReg s rj).toInt * (readReg s rk).toInt / 4294967296)) ∧
    completesWriting (.mulhWu rd rj rk) s rd
      (BitVec.ofNat 32 ((readReg s rj).toNat * (readReg s rk).toNat / 4294967296))

/-- DIV.W, MOD.W, DIV.WU, MOD.WU: the exact quotient truncated toward zero and its remainder, the overflow case, and
the free value DIVZ on a zero divisor, for every value of it (40_integer.md R226 to R229, R233). -/
def Obligations.DivideResults : Prop :=
  ∀ (rd rj rk : Reg) (s : State),
    ∃ q r qu ru, completesWriting (.divW rd rj rk) s rd q ∧ completesWriting (.modW rd rj rk) s rd r ∧
      completesWriting (.divWu rd rj rk) s rd qu ∧ completesWriting (.modWu rd rj rk) s rd ru ∧
      (readReg s rk = 0#32 → q = Config.divz .divW (readReg s rj) ∧ r = Config.divz .modW (readReg s rj) ∧
        qu = Config.divz .divWu (readReg s rj) ∧ ru = Config.divz .modWu (readReg s rj)) ∧
      (readReg s rk ≠ 0#32 → qu.toNat = (readReg s rj).toNat / (readReg s rk).toNat ∧
        ru.toNat = (readReg s rj).toNat % (readReg s rk).toNat) ∧
      (readReg s rj = 0x80000000#32 → readReg s rk = 0xFFFFFFFF#32 → q = 0x80000000#32 ∧ r = 0#32) ∧
      (readReg s rk ≠ 0#32 → ¬(readReg s rj = 0x80000000#32 ∧ readReg s rk = 0xFFFFFFFF#32) →
        q.toInt = (readReg s rj).toInt.tdiv (readReg s rk).toInt ∧
        r.toInt = (readReg s rj).toInt.tmod (readReg s rk).toInt)

/-! ## Control transfer -/

/-- The conditional branches: `pc + offset` when the condition holds, with the 16-bit field times 4 as signed offset,
else the next instruction; nothing else changes (41_control.md R260 to R266). -/
def Obligations.BranchesComplete : Prop :=
  ∀ (rj rd : Reg) (offs : BitVec 16) (s : State),
    let target := s.pc + BitVec.ofInt 32 (offs.toInt * 4)
    let next := s.pc + 4#32
    completesJumping (.beq rj rd offs) s (if readReg s rj = readReg s rd then target else next) ∧
    completesJumping (.bne rj rd offs) s (if readReg s rj = readReg s rd then next else target) ∧
    completesJumping (.blt rj rd offs) s (if (readReg s rj).toInt < (readReg s rd).toInt then target else next) ∧
    completesJumping (.bge rj rd offs) s (if (readReg s rd).toInt ≤ (readReg s rj).toInt then target else next) ∧
    completesJumping (.bltu rj rd offs) s (if (readReg s rj).toNat < (readReg s rd).toNat then target else next) ∧
    completesJumping (.bgeu rj rd offs) s (if (readReg s rd).toNat ≤ (readReg s rj).toNat then target else next)

/-- B jumps by the 26-bit field times 4; BL links `pc + 4` in r1; JIRL goes to the old `x[rj]` plus its offset and links
in `rd`, a misaligned target being installed like any other (41_control.md R267 to R270). -/
def Obligations.JumpsComplete : Prop :=
  ∀ s : State,
    (∀ offs : BitVec 26, completesJumping (.b offs) s (s.pc + BitVec.ofInt 32 (offs.toInt * 4))) ∧
    (∀ offs : BitVec 26, ∃ t, exec (.bl offs) s = .next t ∧ t.pc = s.pc + BitVec.ofInt 32 (offs.toInt * 4) ∧
      regWritten 1#5 (s.pc + 4#32) s t ∧ sameBesideRegs s t) ∧
    (∀ (rd rj : Reg) (offs : BitVec 16), ∃ t, exec (.jirl rd rj offs) s = .next t ∧
      t.pc = readReg s rj + BitVec.ofInt 32 (offs.toInt * 4) ∧ regWritten rd (s.pc + 4#32) s t ∧ sameBesideRegs s t)

/-! ## Memory access -/

/-- Loads from backing memory: the little-endian bytes at `x[rj] + si12`, sign- or zero-extended, into `rd`
(42_memory_access.md R290 to R295). -/
def Obligations.LoadsComplete : Prop :=
  ∀ (rd rj : Reg) (si12 : BitVec 12) (s : State),
    let a := readReg s rj + si12.signExtend 32
    (insideBacking s a 1 →
      completesWriting (.ldB rd rj si12) s rd ((memByte s.mem a.toNat).signExtend 32) ∧
      completesWriting (.ldBu rd rj si12) s rd ((memByte s.mem a.toNat).setWidth 32)) ∧
    (insideBacking s a 2 → a.toNat % 2 = 0 →
      completesWriting (.ldH rd rj si12) s rd ((BitVec.ofNat 16 (littleEndian s a.toNat 2)).signExtend 32) ∧
      completesWriting (.ldHu rd rj si12) s rd (BitVec.ofNat 32 (littleEndian s a.toNat 2))) ∧
    (insideBacking s a 4 → a.toNat % 4 = 0 →
      completesWriting (.ldW rd rj si12) s rd (BitVec.ofNat 32 (littleEndian s a.toNat 4)))

/-- Stores to backing memory: the low bytes of `x[rd]`, little-endian, at `x[rj] + si12`, and every other byte as before
(42_memory_access.md R290, R296 to R298). -/
def Obligations.StoresComplete : Prop :=
  ∀ (rd rj : Reg) (si12 : BitVec 12) (s : State),
    let a := readReg s rj + si12.signExtend 32
    (insideBacking s a 1 → completesStoring (.stB rd rj si12) s a (readReg s rd) 1) ∧
    (insideBacking s a 2 → a.toNat % 2 = 0 → completesStoring (.stH rd rj si12) s a (readReg s rd) 2) ∧
    (insideBacking s a 4 → a.toNat % 4 = 0 → completesStoring (.stW rd rj si12) s a (readReg s rd) 4)

/-- A word store followed by a word load of the same address returns the stored value, for any aligned address fully
inside backing memory; at a misaligned one both raise ALE (42_memory_access.md R300). -/
def Obligations.StoreThenLoadReturnsValue : Prop :=
  ∀ (rd rj rt : Reg) (si12 : BitVec 12) (s : State),
    let a := readReg s rj + si12.signExtend 32
    (insideBacking s a 4 → a.toNat % 4 = 0 →
      ∃ t u, exec (.stW rd rj si12) s = .next t ∧ exec (.ldW rt rj si12) t = .next u ∧
        regWritten rt (readReg s rd) s u ∧ u.pc = s.pc + 8#32) ∧
    (a.toNat % 4 ≠ 0 → takesException (.stW rd rj si12) s 0x9#6 a ∧ takesException (.ldW rt rj si12) s 0x9#6 a)

/-- LL.W from backing memory: the word into `rd` and the LLbit set; nothing else changes (42_memory_access.md R310). -/
def Obligations.LoadLinkedCompletes : Prop :=
  ∀ (rd rj : Reg) (si14 : BitVec 14) (s : State),
    let a := readReg s rj + BitVec.ofInt 32 (si14.toInt * 4)
    insideBacking s a 4 → a.toNat % 4 = 0 →
      ∃ t, exec (.llW rd rj si14) s = .next t ∧
        regWritten rd (BitVec.ofNat 32 (littleEndian s a.toNat 4)) s t ∧ t.llbit = true ∧ t.pc = s.pc + 4#32 ∧
        t.csr = s.csr ∧ sameHidden s t ∧ sameMemory s t ∧ sameDevices s t

/-- SC.W at an aligned address: with the LLbit set it stores the old `x[rd]` in backing memory and `rd` becomes 1; with
it clear no access is made, wherever the address lies, and `rd` becomes 0; the LLbit is cleared (42_memory_access.md R311,
R312). -/
def Obligations.StoreConditionalCompletes : Prop :=
  ∀ (rd rj : Reg) (si14 : BitVec 14) (s : State),
    let a := readReg s rj + BitVec.ofInt 32 (si14.toInt * 4)
    a.toNat % 4 = 0 →
      (s.llbit = true → insideBacking s a 4 →
        ∃ t, exec (.scW rd rj si14) s = .next t ∧ regWritten rd 1#32 s t ∧ t.llbit = false ∧ t.pc = s.pc + 4#32 ∧
          (∀ k, k < 4 → memByte t.mem (a.toNat + k) = (readReg s rd).extractLsb' (8 * k) 8) ∧
          sameMemoryOutside a.toNat 4 s t ∧ t.csr = s.csr ∧ sameHidden s t ∧ sameDevices s t) ∧
      (s.llbit = false →
        ∃ t, exec (.scW rd rj si14) s = .next t ∧ regWritten rd 0#32 s t ∧ t.llbit = false ∧ t.pc = s.pc + 4#32 ∧
          t.csr = s.csr ∧ sameHidden s t ∧ sameMemory s t ∧ sameDevices s t)

/-- A word load from a region returns the free word `dev_read` after one handler call, and the shadow buffer holds it; a
word store to a region puts its bytes in the shadow buffer and calls the handler once with the offset from the region's
base; every other byte of the shadow buffers, and backing memory, are untouched
(20_memory.md R108, R109, R111). Three things are the model's choice: the free word and the draw counter (log 4), that a
read leaves every other byte of the shadow buffers as before (log 6), and the record of calls in `events` (log 7). -/
def Obligations.RegionWordAccessesComplete : Prop :=
  ∀ (rd rj : Reg) (si12 : BitVec 12) (s : State) (g : Region),
    let a := readReg s rj + si12.signExtend 32
    a.toNat % 4 = 0 → ¬insideBacking s a 4 → regionOf s.platform a.toNat 4 = some g →
      (∃ t, exec (.ldW rd rj si12) s = .next t ∧
        regWritten rd (Config.devRead s.draws g.base (a.toNat - g.base)) s t ∧ t.pc = s.pc + 4#32 ∧
        t.events = s.events ++ [.read g.base (a.toNat - g.base) (Config.devRead s.draws g.base (a.toNat - g.base))] ∧
        shadowStored a (Config.devRead s.draws g.base (a.toNat - g.base)) s.shadow t.shadow ∧
        t.draws = s.draws + 1 ∧ t.csr = s.csr ∧ t.llbit = s.llbit ∧ sameHidden s t ∧ sameMemory s t) ∧
      (∃ t, exec (.stW rd rj si12) s = .next t ∧ sameRegs s t ∧ t.pc = s.pc + 4#32 ∧
        shadowStored a (readReg s rd) s.shadow t.shadow ∧
        t.events = s.events ++ [.write g.base (a.toNat - g.base) (readReg s rd)] ∧
        t.draws = s.draws ∧ t.csr = s.csr ∧ t.llbit = s.llbit ∧ sameHidden s t ∧ sameMemory s t)

/-- LL.W and SC.W at a device region: LL.W is a region read that also sets the LLbit; SC.W with the LLbit set is a region
write, after which `rd` is 1 and the LLbit clear (42_memory_access.md R310, R311; 20_memory.md R108, R109, R111).
Three things are the model's choice: the free word and the draw counter (log 4), that the region read leaves every other
byte of the shadow buffers as before (log 6), and the record of calls in `events` (log 7). -/
def Obligations.RegionLinkedAccessesComplete : Prop :=
  ∀ (rd rj : Reg) (si14 : BitVec 14) (s : State) (g : Region),
    let a := readReg s rj + BitVec.ofInt 32 (si14.toInt * 4)
    a.toNat % 4 = 0 → ¬insideBacking s a 4 → regionOf s.platform a.toNat 4 = some g →
      (∃ t, exec (.llW rd rj si14) s = .next t ∧
        regWritten rd (Config.devRead s.draws g.base (a.toNat - g.base)) s t ∧ t.llbit = true ∧ t.pc = s.pc + 4#32 ∧
        t.events = s.events ++ [.read g.base (a.toNat - g.base) (Config.devRead s.draws g.base (a.toNat - g.base))] ∧
        shadowStored a (Config.devRead s.draws g.base (a.toNat - g.base)) s.shadow t.shadow ∧
        t.draws = s.draws + 1 ∧ t.csr = s.csr ∧ sameHidden s t ∧ sameMemory s t) ∧
      (s.llbit = true → ∃ t, exec (.scW rd rj si14) s = .next t ∧ regWritten rd 1#32 s t ∧ t.llbit = false ∧
        t.pc = s.pc + 4#32 ∧
        shadowStored a (readReg s rd) s.shadow t.shadow ∧
        t.events = s.events ++ [.write g.base (a.toNat - g.base) (readReg s rd)] ∧
        t.draws = s.draws ∧ t.csr = s.csr ∧ sameHidden s t ∧ sameMemory s t)

/-- Accesses that abort the run (20_memory.md R106 to R108; 42_memory_access.md R311). First part: a byte or half-word
access to a region. Second part: an access whose byte range lies in no single target, with the address, the pc and the
range of backing memory; SC.W only when its LLbit is set. The last address reported when backing memory is empty at address
0 is the model's choice (log 17). -/
def Obligations.FailedAccessesFault : Prop :=
  (∀ (rd rj : Reg) (si12 : BitVec 12) (s : State),
      let a := readReg s rj + si12.signExtend 32
      (¬insideBacking s a 1 → (regionOf s.platform a.toNat 1).isSome = true →
        exec (.ldB rd rj si12) s = .fault (.mmioWidth a s.pc 1) ∧
        exec (.ldBu rd rj si12) s = .fault (.mmioWidth a s.pc 1) ∧
        exec (.stB rd rj si12) s = .fault (.mmioWidth a s.pc 1)) ∧
      (a.toNat % 2 = 0 → ¬insideBacking s a 2 → (regionOf s.platform a.toNat 2).isSome = true →
        exec (.ldH rd rj si12) s = .fault (.mmioWidth a s.pc 2) ∧
        exec (.ldHu rd rj si12) s = .fault (.mmioWidth a s.pc 2) ∧
        exec (.stH rd rj si12) s = .fault (.mmioWidth a s.pc 2))) ∧
  ∀ (rd rj : Reg) (s : State),
      (∀ si12 : BitVec 12,
        let a := readReg s rj + si12.signExtend 32
        (insideNothing s a 1 →
          exec (.ldB rd rj si12) s = .fault (outOfBoundAt a s) ∧ exec (.ldBu rd rj si12) s = .fault (outOfBoundAt a s) ∧
          exec (.stB rd rj si12) s = .fault (outOfBoundAt a s)) ∧
        (a.toNat % 2 = 0 → insideNothing s a 2 →
          exec (.ldH rd rj si12) s = .fault (outOfBoundAt a s) ∧ exec (.ldHu rd rj si12) s = .fault (outOfBoundAt a s) ∧
          exec (.stH rd rj si12) s = .fault (outOfBoundAt a s)) ∧
        (a.toNat % 4 = 0 → insideNothing s a 4 →
          exec (.ldW rd rj si12) s = .fault (outOfBoundAt a s) ∧ exec (.stW rd rj si12) s = .fault (outOfBoundAt a s))) ∧
      (∀ si14 : BitVec 14,
        let a := readReg s rj + BitVec.ofInt 32 (si14.toInt * 4)
        a.toNat % 4 = 0 → insideNothing s a 4 →
          exec (.llW rd rj si14) s = .fault (outOfBoundAt a s) ∧
          (s.llbit = true → exec (.scW rd rj si14) s = .fault (outOfBoundAt a s)))

/-- PRELD, DBAR and IBAR with every hint, and CACOP with every code at PLV0, change nothing but the pc: no access, no
fault (42_memory_access.md R299, R320, R321; 43_system.md R360). -/
def Obligations.HintsAndBarriersChangeNothing : Prop :=
  ∀ s : State,
    (∀ hint rj si12, completesIdly (.preld hint rj si12) s) ∧ (∀ code, completesIdly (.dbar code) s) ∧
    (∀ code, completesIdly (.ibar code) s) ∧
    (crmdPlv s = 0#2 → ∀ code rj si12, completesIdly (.cacop code rj si12) s)

/-! ## System instructions -/

/-- CSRRD, CSRWR and CSRXCHG of every implemented CSR at PLV0 (43_system.md R330 to R332; 10_state.md R48, R49): `rd` takes
the old value; CSRRD changes nothing else; CSRWR writes the old `x[rd]` and CSRXCHG `(old & ~mask) | (x[rd] & mask)` with
`mask = x[rj]`, under WMASK and with the side effects of TCFG, TICLR and LLBCTL, also for mask 0; numbers and
masks are the literals of the tables of R42 and R49. -/
def Obligations.CsrAccessCompletes : Prop :=
  ∀ (rd rj : Reg) (c : Csr) (s : State), crmdPlv s = 0#2 →
    ∃ v, csrReads c s v ∧ completesWriting (.csrrd rd (specNumber c)) s rd v ∧
      ∀ i w, (i = .csrwr rd (specNumber c) ∧ w = readReg s rd) ∨
          (i = .csrxchg rd rj (specNumber c) ∧ w = (v &&& ~~~readReg s rj) ||| (readReg s rd &&& readReg s rj)) →
        ∃ t, exec i s = .next t ∧ regWritten rd v s t ∧ csrWritten c w s t ∧ t.pc = s.pc + 4#32 ∧
          t.counter = s.counter ∧ t.idle = s.idle ∧ t.lines = s.lines ∧ t.status = s.status ∧
          t.platform = s.platform ∧ sameMemory s t ∧ sameDevices s t

/-- The three CSR instructions on an unimplemented number at PLV0: `rd` takes a free value, for every value of it, and a
write changes nothing (10_state.md R48, R49). -/
def Obligations.UnimplementedCsrAccess : Prop :=
  ∀ (rd rj : Reg) (n : BitVec 14) (s : State), crmdPlv s = 0#2 → (∀ c, specNumber c ≠ n) →
    ∀ i, i = .csrrd rd n ∨ i = .csrwr rd n ∨ i = .csrxchg rd rj n →
      ∃ t, exec i s = .next t ∧ regWritten rd (Config.csrUndefRead s.draws) s t ∧ t.pc = s.pc + 4#32 ∧
        t.csr = s.csr ∧ t.llbit = s.llbit ∧ sameHidden s t ∧ sameMemory s t ∧ t.shadow = s.shadow ∧
        t.events = s.events

/-- RDCNTVL.W, RDCNTVH.W and RDCNTID.W, at every level: the halves of the counter before this step's refresh, and TID
(43_system.md R340 to R342). -/
def Obligations.CounterReadsComplete : Prop :=
  ∀ (r : Reg) (s : State),
    completesWriting (.rdcntvlW r) s r (BitVec.ofNat 32 s.counter.toNat) ∧
    completesWriting (.rdcntvhW r) s r (BitVec.ofNat 32 (s.counter.toNat / 4294967296)) ∧
    completesWriting (.rdcntidW r) s r s.csr.tid

/-- IDLE at PLV0: the idle bit is set and the pc moves past it; nothing else changes (43_system.md R356). -/
def Obligations.IdleCompletes : Prop :=
  ∀ (code : BitVec 15) (s : State), crmdPlv s = 0#2 →
    ∃ t, exec (.idle code) s = .next t ∧ t.idle = true ∧ t.pc = s.pc + 4#32 ∧ sameRegs s t ∧ t.csr = s.csr ∧
      t.llbit = s.llbit ∧ t.counter = s.counter ∧ t.timerEn = s.timerEn ∧ t.lines = s.lines ∧ t.status = s.status ∧
      t.platform = s.platform ∧ sameMemory s t ∧ sameDevices s t

/-- The TLB instructions at PLV0 are refused: the spec gives them no effect (43_system.md R370 to R374). -/
def Obligations.TlbInstructionsAreRefused : Prop :=
  ∀ s : State, crmdPlv s = 0#2 →
    exec .tlbsrch s = .refused .tlbInstruction ∧ exec .tlbrd s = .refused .tlbInstruction ∧
    exec .tlbwr s = .refused .tlbInstruction ∧ exec .tlbfill s = .refused .tlbInstruction ∧
    ∀ (op : BitVec 5) (rj rk : Reg), op.toNat ≤ 6 → exec (.invtlb op rj rk) s = .refused .tlbInstruction

/-! ## Timer, counter, lines, host -/

/-- `timer_tick`, case by case, as equal states: stopped, counting, and expired with or without reload; nothing else
changes (60_exceptions.md R450). -/
def Obligations.TimerTickEffect : Prop :=
  ∀ s : State,
    (s.timerEn = false → timerTick s = s) ∧
    (s.timerEn = true → 1 < s.csr.tval.toNat →
      timerTick s = { s with csr := { s.csr with tval := s.csr.tval - 1#32 } }) ∧
    (s.timerEn = true → s.csr.tval.toNat ≤ 1 → s.csr.tcfg.getLsbD 1 = true →
      timerTick s = { s with csr := { s.csr with
        estat := s.csr.estat ||| 0x00000800#32, tval := s.csr.tcfg.extractLsb' 2 30 ++ 0#2 } }) ∧
    (s.timerEn = true → s.csr.tval.toNat ≤ 1 → s.csr.tcfg.getLsbD 1 = false →
      timerTick s = { s with timerEn := false
                             csr := { s.csr with estat := s.csr.estat ||| 0x00000800#32, tval := 0#32 } })

/-- A one-shot countdown of `n > 0` ticks: after `k < n` ticks the count is `n - k` and the timer interrupt bit is as it
was; after `n` ticks the count is 0, the bit is set and the timer has stopped (60_exceptions.md R450). -/
def Obligations.OneShotCountdown : Prop :=
  ∀ (s : State) (k : Nat), s.timerEn = true → s.csr.tcfg.getLsbD 1 = false → 0 < s.csr.tval.toNat →
    (k < s.csr.tval.toNat →
      (timerTick^[k] s).csr.tval.toNat = s.csr.tval.toNat - k ∧ (timerTick^[k] s).timerEn = true ∧
        (timerTick^[k] s).csr.estat = s.csr.estat) ∧
    (s.csr.tval.toNat ≤ k →
      (timerTick^[k] s).csr.tval = 0#32 ∧ (timerTick^[k] s).timerEn = false ∧
        (timerTick^[k] s).csr.estat.getLsbD 11 = true)

/-- Every step of a running core refreshes the counter once, by a free number of ticks modulo 2^64, whatever the
instruction does, for every value of the draw (or by the number the platform fixes, log 1); an instruction that reads the
counter reads it from before the refresh (10_state.md R76). -/
def Obligations.StepRefreshesCounter : Prop :=
  (∀ s t : State, canStep s → step s = .next t →
    ∃ d, s.draws ≤ d ∧ d < t.draws ∧
      t.counter = s.counter + BitVec.ofNat 64 (s.platform.fixedTick.getD (Config.tickDelta d))) ∧
  ∀ (rd : Reg) (s t : State),
    (exec (.rdcntvlW rd) s = .next t →
      t.counter = s.counter ∧ readReg t rd = (if rd = 0#5 then 0#32 else BitVec.ofNat 32 s.counter.toNat)) ∧
    (exec (.rdcntvhW rd) s = .next t →
      t.counter = s.counter ∧
        readReg t rd = (if rd = 0#5 then 0#32 else BitVec.ofNat 32 (s.counter.toNat / 4294967296)))

/-- The sample ORs the lines into ESTAT.IS[9:2] and changes nothing else; when every pending hardware bit has its line
raised, the bits then equal the lines (60_exceptions.md R431). -/
def Obligations.SampleFollowsLines : Prop :=
  ∀ s : State,
    (∀ k, (sampleLines s).csr.estat.getLsbD k =
      (s.csr.estat.getLsbD k || (decide (2 ≤ k ∧ k ≤ 9) && s.lines.getLsbD k))) ∧
    sampleLines s = { s with csr := { s.csr with estat := (sampleLines s).csr.estat } } ∧
    (pendingHaveLines s → ∀ k, 2 ≤ k → k ≤ 9 → (sampleLines s).csr.estat.getLsbD k = s.lines.getLsbD k)

/-- `raise_interrupt` and `clear_interrupt` set and clear their line at once, and the clear also clears ESTAT.IS[N] for N
from 2 to 9; both are idempotent and change nothing else (60_exceptions.md R456). The width of the line vector is the
model's choice (log 8). -/
def Obligations.InterruptLineControl : Prop :=
  ∀ (n : Nat) (s : State), n < 32 →
    (∀ k, (raiseInterrupt n s).lines.getLsbD k = (s.lines.getLsbD k || k == n)) ∧
    raiseInterrupt n s = { s with lines := (raiseInterrupt n s).lines } ∧
    raiseInterrupt n (raiseInterrupt n s) = raiseInterrupt n s ∧
    (∀ k, (clearInterrupt n s).lines.getLsbD k = (s.lines.getLsbD k && k != n)) ∧
    (∀ k, (clearInterrupt n s).csr.estat.getLsbD k = (s.csr.estat.getLsbD k && !(k == n && decide (2 ≤ n ∧ n ≤ 9)))) ∧
    clearInterrupt n s = { s with lines := (clearInterrupt n s).lines
                                  csr := { s.csr with estat := (clearInterrupt n s).csr.estat } } ∧
    clearInterrupt n (clearInterrupt n s) = clearInterrupt n s

/-- A registration is host-fatal when its range is empty, passes 2^32, or shares an address with backing memory or a
registered region; else the region joins the table; nothing else changes (60_exceptions.md R457). That the status alone
changes on a malformed registration is the model's reading (log 14), and that an empty range overlaps nothing is its
choice (log 16). -/
def Obligations.RegionRegistration : Prop :=
  ∀ (g : Region) (s : State),
    let shared := ∃ a, g.base ≤ a ∧ a < g.base + g.size ∧
      ((s.platform.pmemBase ≤ a ∧ a < s.platform.pmemBase + s.platform.pmemSize) ∨
        ∃ h ∈ s.platform.regions, h.base ≤ a ∧ a < h.base + h.size)
    (g.size = 0 ∨ 2 ^ 32 < g.base + g.size ∨ shared →
      registerRegion g s = { s with status := .faulted (.malformedRegion g.name g.base g.size) }) ∧
    (g.size ≠ 0 → g.base + g.size ≤ 2 ^ 32 → ¬shared →
      registerRegion g s = { s with platform := { s.platform with regions := s.platform.regions ++ [g] } })

/-- The host's accesses, with no alignment check (60_exceptions.md R458; 20_memory.md R112). In backing memory a write
stores the low bytes, little-endian, and changes nothing else, a read changes nothing, and a read after a write of the same
width returns the low bytes. In a region a word access is one handler call and a narrower one makes the status faulted.
Outside every target the status becomes faulted. Five things are the model's choice: the
free word and the draw counter (log 4), that a region read leaves every other byte of the shadow buffers as before (log 6),
the record of calls in `events` (log 7), the answer `none` of a failed read (log 14), and the last address reported when
backing memory is empty at address 0 (log 17). -/
def Obligations.HostPhysicalAccess : Prop :=
  ∀ (a v : Word) (w : Width) (s : State),
    (insideBacking s a (widthBytes w) →
      (∃ mem, writePhysical a w v s = { s with mem := mem } ∧
        (∀ k, k < widthBytes w → memByte mem (a.toNat + k) = v.extractLsb' (8 * k) 8) ∧
        sameMemoryOutside a.toNat (widthBytes w) s { s with mem := mem }) ∧
      readPhysical a w s = (some (BitVec.ofNat 32 (littleEndian s a.toNat (widthBytes w))), s) ∧
      (readPhysical a w (writePhysical a w v s)).1 = some (BitVec.ofNat 32 (v.toNat % 256 ^ widthBytes w))) ∧
    (∀ g, ¬insideBacking s a (widthBytes w) → regionOf s.platform a.toNat (widthBytes w) = some g →
      (w = .word → ∃ written read,
        shadowStored a v s.shadow written ∧
        writePhysical a w v s =
          { s with shadow := written, events := s.events ++ [.write g.base (a.toNat - g.base) v] } ∧
        shadowStored a (Config.devRead s.draws g.base (a.toNat - g.base)) s.shadow read ∧
        readPhysical a w s = (some (Config.devRead s.draws g.base (a.toNat - g.base)),
          { s with shadow := read, draws := s.draws + 1
                   events := s.events ++
                     [.read g.base (a.toNat - g.base) (Config.devRead s.draws g.base (a.toNat - g.base))] })) ∧
      (w ≠ .word →
        writePhysical a w v s = { s with status := .faulted (.mmioWidth a s.pc (widthBytes w)) } ∧
        readPhysical a w s = (none, { s with status := .faulted (.mmioWidth a s.pc (widthBytes w)) }))) ∧
    (insideNothing s a (widthBytes w) →
      writePhysical a w v s = { s with status := .faulted (outOfBoundAt a s) } ∧
      readPhysical a w s = (none, { s with status := .faulted (outOfBoundAt a s) }))

/-! ## Reset and invariants -/

/-- Reset, for every platform and reset vector: the value of every piece of state the spec gives
(70_reset_and_hazards.md R470; 10_state.md R85). -/
def Obligations.ResetValues : Prop :=
  ∀ (p : Platform) (pc : Word),
    let s := State.resetOf p pc
    (∀ r, readReg s r = 0#32) ∧ s.pc = pc ∧ csrStored s.csr .crmd = 0x00000008#32 ∧
    (∀ c, c ≠ .crmd → csrStored s.csr c = 0#32) ∧ csrValue .asid s = 0x000A0000#32 ∧
    (∀ c, c ≠ .crmd → c ≠ .asid → csrValue c s = 0#32) ∧ crmdPlv s = 0#2 ∧ crmdIe s = false ∧ crmdDa s = true ∧
    crmdPg s = false ∧ s.counter = 0#64 ∧ s.llbit = false ∧ s.timerEn = false ∧ s.idle = false ∧ s.lines = 0#32 ∧
    s.status = .running

/-- The state after reset meets every invariant of this file and can step. Its platform and reset vector are the spec's
test configuration (log 1, log 2); a clause about them is the model's choice. -/
def Obligations.ResetMeetsInvariants : Prop :=
  r0IsZero State.reset ∧ memoryCanonical State.reset ∧ memoryInside State.reset ∧ reservedBitsZero State.reset ∧
    causeIsRaised State.reset ∧ singleCore State.reset ∧ pendingHaveLines State.reset ∧ canStep State.reset ∧
    platformWf State.reset.platform = true

/-- Register 0: every read returns 0 in every state, and after every step of a running core its slot holds 0, whatever
was written to it during the step (10_state.md R31, R32). -/
def Obligations.RegisterZeroIsZero : Prop :=
  (∀ s, readReg s 0#5 = 0#32) ∧ ∀ s t : State, canStep s → step s = .next t → r0IsZero t

/-- Every step keeps backing memory and the shadow buffers in canonical form, and every listed byte of backing memory
inside its range, every listed byte of the shadow buffers inside a region (20_memory.md R100, R104, R110). -/
def Obligations.StepKeepsMemoryForm : Prop :=
  ∀ s t : State, memoryCanonical s → memoryInside s → step s = .next t → memoryCanonical t ∧ memoryInside t

/-- Every step keeps the reserved bits of every CSR at 0 (10_state.md R43, R49 to R74). -/
def Obligations.StepKeepsReservedBits : Prop :=
  ∀ s t : State, reservedBitsZero s → step s = .next t → reservedBitsZero t

/-- Every step keeps ESTAT at the code of a cause this hardware raises, and no step makes an inter-processor interrupt
pending or changes the core number (60_exceptions.md R419, R423, R461). -/
def Obligations.StepKeepsRaisedCause : Prop :=
  ∀ s t : State, causeIsRaised s → singleCore s → step s = .next t → causeIsRaised t ∧ singleCore t

/-- Every step keeps "every pending hardware interrupt has its line raised" (60_exceptions.md R431), and no step changes a
line or a parameter of the machine (10_state.md R80; 20_memory.md R103). -/
def Obligations.StepKeepsLinesAndPlatform : Prop :=
  ∀ s t : State, step s = .next t →
    t.lines = s.lines ∧ t.platform = s.platform ∧ (pendingHaveLines s → pendingHaveLines t)

/-- An unprivileged step is confined: either the level stays, every CSR but ESTAT and TVAL keeps its stored bits, and ESTAT
keeps all but the sampled lines and the timer bit (so its cause fields, IS[1:0] and IS[12]); or an exception or interrupt
was entered, at PLV0, at EENTRY, with the level and the pc saved, and every CSR that an entry does not name, but TVAL, keeps
its stored bits (60_exceptions.md R442, R441). -/
def Obligations.UnprivilegedStepIsConfined : Prop :=
  ∀ s t : State, canStep s → crmdPlv s ≠ 0#2 → step s = .next t →
    (crmdPlv t = crmdPlv s ∧
      (∀ k, ¬(2 ≤ k ∧ k ≤ 9) → k ≠ 11 → t.csr.estat.getLsbD k = s.csr.estat.getLsbD k) ∧
      ∀ c, c ≠ .estat → c ≠ .tval → csrStored t.csr c = csrStored s.csr c) ∨
    (crmdPlv t = 0#2 ∧ crmdIe t = false ∧ t.pc = entryAddress s ∧ t.csr.era = s.pc ∧ prmdPplv t = crmdPlv s ∧
      prmdPie t = crmdIe s ∧ t.csr.crmd.extractLsb' 3 29 = s.csr.crmd.extractLsb' 3 29 ∧
      (∀ k, k < 16 → ¬(2 ≤ k ∧ k ≤ 9) → k ≠ 11 → t.csr.estat.getLsbD k = s.csr.estat.getLsbD k) ∧
      ∀ c, c ≠ .prmd → c ≠ .crmd → c ≠ .estat → c ≠ .era → c ≠ .badv → c ≠ .tval →
        csrStored t.csr c = csrStored s.csr c)
end

