-- ==== Sys2Proof/Laws/State.lean ====
section
/-! SUPPORT. One lemma per field of State per named update: what the update makes of the field, or that it leaves it.
They are true by rfl (by cases for the timer's tick and the CSR write), so that no later proof unfolds a record update. -/

namespace Sys2Proof.Machine

/-! ## writeReg -/

@[simp] theorem writeReg_pc (r : Reg) (v : Word) (s : State) : (writeReg r v s).pc = s.pc := rfl
@[simp] theorem writeReg_csr (r : Reg) (v : Word) (s : State) : (writeReg r v s).csr = s.csr := rfl
@[simp] theorem writeReg_counter (r : Reg) (v : Word) (s : State) : (writeReg r v s).counter = s.counter := rfl
@[simp] theorem writeReg_llbit (r : Reg) (v : Word) (s : State) : (writeReg r v s).llbit = s.llbit := rfl
@[simp] theorem writeReg_timerEn (r : Reg) (v : Word) (s : State) : (writeReg r v s).timerEn = s.timerEn := rfl
@[simp] theorem writeReg_idle (r : Reg) (v : Word) (s : State) : (writeReg r v s).idle = s.idle := rfl
@[simp] theorem writeReg_lines (r : Reg) (v : Word) (s : State) : (writeReg r v s).lines = s.lines := rfl
@[simp] theorem writeReg_status (r : Reg) (v : Word) (s : State) : (writeReg r v s).status = s.status := rfl
@[simp] theorem writeReg_mem (r : Reg) (v : Word) (s : State) : (writeReg r v s).mem = s.mem := rfl
@[simp] theorem writeReg_shadow (r : Reg) (v : Word) (s : State) : (writeReg r v s).shadow = s.shadow := rfl
@[simp] theorem writeReg_events (r : Reg) (v : Word) (s : State) : (writeReg r v s).events = s.events := rfl
@[simp] theorem writeReg_platform (r : Reg) (v : Word) (s : State) : (writeReg r v s).platform = s.platform := rfl
@[simp] theorem writeReg_draws (r : Reg) (v : Word) (s : State) : (writeReg r v s).draws = s.draws := rfl

/-! ## zeroR0 -/

@[simp] theorem zeroR0_pc (s : State) : (zeroR0 s).pc = s.pc := rfl
@[simp] theorem zeroR0_csr (s : State) : (zeroR0 s).csr = s.csr := rfl
@[simp] theorem zeroR0_counter (s : State) : (zeroR0 s).counter = s.counter := rfl
@[simp] theorem zeroR0_llbit (s : State) : (zeroR0 s).llbit = s.llbit := rfl
@[simp] theorem zeroR0_timerEn (s : State) : (zeroR0 s).timerEn = s.timerEn := rfl
@[simp] theorem zeroR0_idle (s : State) : (zeroR0 s).idle = s.idle := rfl
@[simp] theorem zeroR0_lines (s : State) : (zeroR0 s).lines = s.lines := rfl
@[simp] theorem zeroR0_status (s : State) : (zeroR0 s).status = s.status := rfl
@[simp] theorem zeroR0_mem (s : State) : (zeroR0 s).mem = s.mem := rfl
@[simp] theorem zeroR0_shadow (s : State) : (zeroR0 s).shadow = s.shadow := rfl
@[simp] theorem zeroR0_events (s : State) : (zeroR0 s).events = s.events := rfl
@[simp] theorem zeroR0_platform (s : State) : (zeroR0 s).platform = s.platform := rfl
@[simp] theorem zeroR0_draws (s : State) : (zeroR0 s).draws = s.draws := rfl

/-! ## wake -/

@[simp] theorem wake_gpr (s : State) : (wake s).gpr = s.gpr := rfl
@[simp] theorem wake_pc (s : State) : (wake s).pc = s.pc := rfl
@[simp] theorem wake_csr (s : State) : (wake s).csr = s.csr := rfl
@[simp] theorem wake_counter (s : State) : (wake s).counter = s.counter := rfl
@[simp] theorem wake_llbit (s : State) : (wake s).llbit = s.llbit := rfl
@[simp] theorem wake_timerEn (s : State) : (wake s).timerEn = s.timerEn := rfl
@[simp] theorem wake_lines (s : State) : (wake s).lines = s.lines := rfl
@[simp] theorem wake_status (s : State) : (wake s).status = s.status := rfl
@[simp] theorem wake_mem (s : State) : (wake s).mem = s.mem := rfl
@[simp] theorem wake_shadow (s : State) : (wake s).shadow = s.shadow := rfl
@[simp] theorem wake_events (s : State) : (wake s).events = s.events := rfl
@[simp] theorem wake_platform (s : State) : (wake s).platform = s.platform := rfl
@[simp] theorem wake_draws (s : State) : (wake s).draws = s.draws := rfl
@[simp] theorem wake_idle (s : State) : (wake s).idle = false := rfl

/-! ## advance -/

@[simp] theorem advance_gpr (s : State) : (advance s).gpr = s.gpr := rfl
@[simp] theorem advance_csr (s : State) : (advance s).csr = s.csr := rfl
@[simp] theorem advance_counter (s : State) : (advance s).counter = s.counter := rfl
@[simp] theorem advance_llbit (s : State) : (advance s).llbit = s.llbit := rfl
@[simp] theorem advance_timerEn (s : State) : (advance s).timerEn = s.timerEn := rfl
@[simp] theorem advance_idle (s : State) : (advance s).idle = s.idle := rfl
@[simp] theorem advance_lines (s : State) : (advance s).lines = s.lines := rfl
@[simp] theorem advance_status (s : State) : (advance s).status = s.status := rfl
@[simp] theorem advance_mem (s : State) : (advance s).mem = s.mem := rfl
@[simp] theorem advance_shadow (s : State) : (advance s).shadow = s.shadow := rfl
@[simp] theorem advance_events (s : State) : (advance s).events = s.events := rfl
@[simp] theorem advance_platform (s : State) : (advance s).platform = s.platform := rfl
@[simp] theorem advance_draws (s : State) : (advance s).draws = s.draws := rfl

/-! ## jumpTo -/

@[simp] theorem jumpTo_gpr (a : Word) (s : State) : (jumpTo a s).gpr = s.gpr := rfl
@[simp] theorem jumpTo_csr (a : Word) (s : State) : (jumpTo a s).csr = s.csr := rfl
@[simp] theorem jumpTo_counter (a : Word) (s : State) : (jumpTo a s).counter = s.counter := rfl
@[simp] theorem jumpTo_llbit (a : Word) (s : State) : (jumpTo a s).llbit = s.llbit := rfl
@[simp] theorem jumpTo_timerEn (a : Word) (s : State) : (jumpTo a s).timerEn = s.timerEn := rfl
@[simp] theorem jumpTo_idle (a : Word) (s : State) : (jumpTo a s).idle = s.idle := rfl
@[simp] theorem jumpTo_lines (a : Word) (s : State) : (jumpTo a s).lines = s.lines := rfl
@[simp] theorem jumpTo_status (a : Word) (s : State) : (jumpTo a s).status = s.status := rfl
@[simp] theorem jumpTo_mem (a : Word) (s : State) : (jumpTo a s).mem = s.mem := rfl
@[simp] theorem jumpTo_shadow (a : Word) (s : State) : (jumpTo a s).shadow = s.shadow := rfl
@[simp] theorem jumpTo_events (a : Word) (s : State) : (jumpTo a s).events = s.events := rfl
@[simp] theorem jumpTo_platform (a : Word) (s : State) : (jumpTo a s).platform = s.platform := rfl
@[simp] theorem jumpTo_draws (a : Word) (s : State) : (jumpTo a s).draws = s.draws := rfl

/-! ## enter -/

@[simp] theorem enter_gpr (c : Cause) (s : State) : (enter c s).gpr = s.gpr := rfl
@[simp] theorem enter_counter (c : Cause) (s : State) : (enter c s).counter = s.counter := rfl
@[simp] theorem enter_llbit (c : Cause) (s : State) : (enter c s).llbit = s.llbit := rfl
@[simp] theorem enter_timerEn (c : Cause) (s : State) : (enter c s).timerEn = s.timerEn := rfl
@[simp] theorem enter_idle (c : Cause) (s : State) : (enter c s).idle = s.idle := rfl
@[simp] theorem enter_lines (c : Cause) (s : State) : (enter c s).lines = s.lines := rfl
@[simp] theorem enter_status (c : Cause) (s : State) : (enter c s).status = s.status := rfl
@[simp] theorem enter_mem (c : Cause) (s : State) : (enter c s).mem = s.mem := rfl
@[simp] theorem enter_shadow (c : Cause) (s : State) : (enter c s).shadow = s.shadow := rfl
@[simp] theorem enter_events (c : Cause) (s : State) : (enter c s).events = s.events := rfl
@[simp] theorem enter_platform (c : Cause) (s : State) : (enter c s).platform = s.platform := rfl
@[simp] theorem enter_draws (c : Cause) (s : State) : (enter c s).draws = s.draws := rfl

/-! ## returnFromException -/

@[simp] theorem returnFromException_gpr (s : State) : (returnFromException s).gpr = s.gpr := rfl
@[simp] theorem returnFromException_counter (s : State) : (returnFromException s).counter = s.counter := rfl
@[simp] theorem returnFromException_timerEn (s : State) : (returnFromException s).timerEn = s.timerEn := rfl
@[simp] theorem returnFromException_idle (s : State) : (returnFromException s).idle = s.idle := rfl
@[simp] theorem returnFromException_lines (s : State) : (returnFromException s).lines = s.lines := rfl
@[simp] theorem returnFromException_status (s : State) : (returnFromException s).status = s.status := rfl
@[simp] theorem returnFromException_mem (s : State) : (returnFromException s).mem = s.mem := rfl
@[simp] theorem returnFromException_shadow (s : State) : (returnFromException s).shadow = s.shadow := rfl
@[simp] theorem returnFromException_events (s : State) : (returnFromException s).events = s.events := rfl
@[simp] theorem returnFromException_platform (s : State) : (returnFromException s).platform = s.platform := rfl
@[simp] theorem returnFromException_draws (s : State) : (returnFromException s).draws = s.draws := rfl

/-! ## sampleLines -/

@[simp] theorem sampleLines_gpr (s : State) : (sampleLines s).gpr = s.gpr := rfl
@[simp] theorem sampleLines_pc (s : State) : (sampleLines s).pc = s.pc := rfl
@[simp] theorem sampleLines_counter (s : State) : (sampleLines s).counter = s.counter := rfl
@[simp] theorem sampleLines_llbit (s : State) : (sampleLines s).llbit = s.llbit := rfl
@[simp] theorem sampleLines_timerEn (s : State) : (sampleLines s).timerEn = s.timerEn := rfl
@[simp] theorem sampleLines_idle (s : State) : (sampleLines s).idle = s.idle := rfl
@[simp] theorem sampleLines_lines (s : State) : (sampleLines s).lines = s.lines := rfl
@[simp] theorem sampleLines_status (s : State) : (sampleLines s).status = s.status := rfl
@[simp] theorem sampleLines_mem (s : State) : (sampleLines s).mem = s.mem := rfl
@[simp] theorem sampleLines_shadow (s : State) : (sampleLines s).shadow = s.shadow := rfl
@[simp] theorem sampleLines_events (s : State) : (sampleLines s).events = s.events := rfl
@[simp] theorem sampleLines_platform (s : State) : (sampleLines s).platform = s.platform := rfl
@[simp] theorem sampleLines_draws (s : State) : (sampleLines s).draws = s.draws := rfl

/-! ## refreshCounter -/

@[simp] theorem refreshCounter_gpr (s : State) : (refreshCounter s).gpr = s.gpr := rfl
@[simp] theorem refreshCounter_pc (s : State) : (refreshCounter s).pc = s.pc := rfl
@[simp] theorem refreshCounter_csr (s : State) : (refreshCounter s).csr = s.csr := rfl
@[simp] theorem refreshCounter_llbit (s : State) : (refreshCounter s).llbit = s.llbit := rfl
@[simp] theorem refreshCounter_timerEn (s : State) : (refreshCounter s).timerEn = s.timerEn := rfl
@[simp] theorem refreshCounter_idle (s : State) : (refreshCounter s).idle = s.idle := rfl
@[simp] theorem refreshCounter_lines (s : State) : (refreshCounter s).lines = s.lines := rfl
@[simp] theorem refreshCounter_status (s : State) : (refreshCounter s).status = s.status := rfl
@[simp] theorem refreshCounter_mem (s : State) : (refreshCounter s).mem = s.mem := rfl
@[simp] theorem refreshCounter_shadow (s : State) : (refreshCounter s).shadow = s.shadow := rfl
@[simp] theorem refreshCounter_events (s : State) : (refreshCounter s).events = s.events := rfl
@[simp] theorem refreshCounter_platform (s : State) : (refreshCounter s).platform = s.platform := rfl

/-! ## placeAtPc -/

@[simp] theorem placeAtPc_gpr (w : Word) (s : State) : (placeAtPc w s).gpr = s.gpr := rfl
@[simp] theorem placeAtPc_pc (w : Word) (s : State) : (placeAtPc w s).pc = s.pc := rfl
@[simp] theorem placeAtPc_csr (w : Word) (s : State) : (placeAtPc w s).csr = s.csr := rfl
@[simp] theorem placeAtPc_counter (w : Word) (s : State) : (placeAtPc w s).counter = s.counter := rfl
@[simp] theorem placeAtPc_llbit (w : Word) (s : State) : (placeAtPc w s).llbit = s.llbit := rfl
@[simp] theorem placeAtPc_timerEn (w : Word) (s : State) : (placeAtPc w s).timerEn = s.timerEn := rfl
@[simp] theorem placeAtPc_idle (w : Word) (s : State) : (placeAtPc w s).idle = s.idle := rfl
@[simp] theorem placeAtPc_lines (w : Word) (s : State) : (placeAtPc w s).lines = s.lines := rfl
@[simp] theorem placeAtPc_status (w : Word) (s : State) : (placeAtPc w s).status = s.status := rfl
@[simp] theorem placeAtPc_shadow (w : Word) (s : State) : (placeAtPc w s).shadow = s.shadow := rfl
@[simp] theorem placeAtPc_events (w : Word) (s : State) : (placeAtPc w s).events = s.events := rfl
@[simp] theorem placeAtPc_platform (w : Word) (s : State) : (placeAtPc w s).platform = s.platform := rfl
@[simp] theorem placeAtPc_draws (w : Word) (s : State) : (placeAtPc w s).draws = s.draws := rfl

/-! ## raiseInterrupt -/

@[simp] theorem raiseInterrupt_gpr (n : Nat) (s : State) : (raiseInterrupt n s).gpr = s.gpr := rfl
@[simp] theorem raiseInterrupt_pc (n : Nat) (s : State) : (raiseInterrupt n s).pc = s.pc := rfl
@[simp] theorem raiseInterrupt_csr (n : Nat) (s : State) : (raiseInterrupt n s).csr = s.csr := rfl
@[simp] theorem raiseInterrupt_counter (n : Nat) (s : State) : (raiseInterrupt n s).counter = s.counter := rfl
@[simp] theorem raiseInterrupt_llbit (n : Nat) (s : State) : (raiseInterrupt n s).llbit = s.llbit := rfl
@[simp] theorem raiseInterrupt_timerEn (n : Nat) (s : State) : (raiseInterrupt n s).timerEn = s.timerEn := rfl
@[simp] theorem raiseInterrupt_idle (n : Nat) (s : State) : (raiseInterrupt n s).idle = s.idle := rfl
@[simp] theorem raiseInterrupt_status (n : Nat) (s : State) : (raiseInterrupt n s).status = s.status := rfl
@[simp] theorem raiseInterrupt_mem (n : Nat) (s : State) : (raiseInterrupt n s).mem = s.mem := rfl
@[simp] theorem raiseInterrupt_shadow (n : Nat) (s : State) : (raiseInterrupt n s).shadow = s.shadow := rfl
@[simp] theorem raiseInterrupt_events (n : Nat) (s : State) : (raiseInterrupt n s).events = s.events := rfl
@[simp] theorem raiseInterrupt_platform (n : Nat) (s : State) : (raiseInterrupt n s).platform = s.platform := rfl
@[simp] theorem raiseInterrupt_draws (n : Nat) (s : State) : (raiseInterrupt n s).draws = s.draws := rfl

/-! ## clearInterrupt -/

@[simp] theorem clearInterrupt_gpr (n : Nat) (s : State) : (clearInterrupt n s).gpr = s.gpr := rfl
@[simp] theorem clearInterrupt_pc (n : Nat) (s : State) : (clearInterrupt n s).pc = s.pc := rfl
@[simp] theorem clearInterrupt_counter (n : Nat) (s : State) : (clearInterrupt n s).counter = s.counter := rfl
@[simp] theorem clearInterrupt_llbit (n : Nat) (s : State) : (clearInterrupt n s).llbit = s.llbit := rfl
@[simp] theorem clearInterrupt_timerEn (n : Nat) (s : State) : (clearInterrupt n s).timerEn = s.timerEn := rfl
@[simp] theorem clearInterrupt_idle (n : Nat) (s : State) : (clearInterrupt n s).idle = s.idle := rfl
@[simp] theorem clearInterrupt_status (n : Nat) (s : State) : (clearInterrupt n s).status = s.status := rfl
@[simp] theorem clearInterrupt_mem (n : Nat) (s : State) : (clearInterrupt n s).mem = s.mem := rfl
@[simp] theorem clearInterrupt_shadow (n : Nat) (s : State) : (clearInterrupt n s).shadow = s.shadow := rfl
@[simp] theorem clearInterrupt_events (n : Nat) (s : State) : (clearInterrupt n s).events = s.events := rfl
@[simp] theorem clearInterrupt_platform (n : Nat) (s : State) : (clearInterrupt n s).platform = s.platform := rfl
@[simp] theorem clearInterrupt_draws (n : Nat) (s : State) : (clearInterrupt n s).draws = s.draws := rfl

/-! ## handlerStore -/

@[simp] theorem handlerStore_gpr (g : Region) (k : Nat) (v : Byte) (s : State) : (handlerStore g k v s).gpr = s.gpr := by
  unfold handlerStore; split <;> rfl
@[simp] theorem handlerStore_pc (g : Region) (k : Nat) (v : Byte) (s : State) : (handlerStore g k v s).pc = s.pc := by
  unfold handlerStore; split <;> rfl
@[simp] theorem handlerStore_csr (g : Region) (k : Nat) (v : Byte) (s : State) : (handlerStore g k v s).csr = s.csr := by
  unfold handlerStore; split <;> rfl
@[simp] theorem handlerStore_mem (g : Region) (k : Nat) (v : Byte) (s : State) : (handlerStore g k v s).mem = s.mem := by
  unfold handlerStore; split <;> rfl
@[simp] theorem handlerStore_platform (g : Region) (k : Nat) (v : Byte) (s : State) :
    (handlerStore g k v s).platform = s.platform := by
  unfold handlerStore; split <;> rfl

/-! ## What the changed fields become -/

@[simp] theorem advance_pc (s : State) : (advance s).pc = s.pc + 4#32 := rfl
@[simp] theorem jumpTo_pc (a : Word) (s : State) : (jumpTo a s).pc = a := rfl
@[simp] theorem enter_pc (c : Cause) (s : State) : (enter c s).pc = csrValue .eentry s := rfl
@[simp] theorem enter_era (c : Cause) (s : State) : (enter c s).csr.era = s.pc := rfl
@[simp] theorem enter_prmd (c : Cause) (s : State) : (enter c s).csr.prmd = savedMode s := rfl
@[simp] theorem enter_crmd (c : Cause) (s : State) : (enter c s).csr.crmd = handlerMode s := rfl
@[simp] theorem enter_estat (c : Cause) (s : State) : (enter c s).csr.estat = recordedCause c.name s := rfl
@[simp] theorem returnFromException_pc (s : State) : (returnFromException s).pc = csrValue .era s := rfl
@[simp] theorem returnFromException_crmd (s : State) : (returnFromException s).csr.crmd = restoredMode s := rfl
@[simp] theorem returnFromException_llbit (s : State) :
    (returnFromException s).llbit = (s.llbit && llbctlKlo s) := rfl
@[simp] theorem sampleLines_estat (s : State) :
    (sampleLines s).csr.estat = s.csr.estat ||| (s.lines &&& fieldMask 2 8) := rfl
@[simp] theorem refreshCounter_counter (s : State) :
    (refreshCounter s).counter = s.counter + BitVec.ofNat 64 (stepTicks s) := rfl
@[simp] theorem refreshCounter_draws (s : State) : (refreshCounter s).draws = s.draws + 1 := rfl
@[simp] theorem placeAtPc_mem (w : Word) (s : State) :
    (placeAtPc w s).mem = memWriteBytes s.mem s.pc.toNat w 4 := rfl

/-! ## timerTick -/

@[simp] theorem timerTick_gpr (s : State) : (timerTick s).gpr = s.gpr := by
  unfold timerTick; (repeat' split) <;> rfl
@[simp] theorem timerTick_pc (s : State) : (timerTick s).pc = s.pc := by
  unfold timerTick; (repeat' split) <;> rfl
@[simp] theorem timerTick_counter (s : State) : (timerTick s).counter = s.counter := by
  unfold timerTick; (repeat' split) <;> rfl
@[simp] theorem timerTick_llbit (s : State) : (timerTick s).llbit = s.llbit := by
  unfold timerTick; (repeat' split) <;> rfl
@[simp] theorem timerTick_idle (s : State) : (timerTick s).idle = s.idle := by
  unfold timerTick; (repeat' split) <;> rfl
@[simp] theorem timerTick_lines (s : State) : (timerTick s).lines = s.lines := by
  unfold timerTick; (repeat' split) <;> rfl
@[simp] theorem timerTick_status (s : State) : (timerTick s).status = s.status := by
  unfold timerTick; (repeat' split) <;> rfl
@[simp] theorem timerTick_mem (s : State) : (timerTick s).mem = s.mem := by
  unfold timerTick; (repeat' split) <;> rfl
@[simp] theorem timerTick_shadow (s : State) : (timerTick s).shadow = s.shadow := by
  unfold timerTick; (repeat' split) <;> rfl
@[simp] theorem timerTick_events (s : State) : (timerTick s).events = s.events := by
  unfold timerTick; (repeat' split) <;> rfl
@[simp] theorem timerTick_platform (s : State) : (timerTick s).platform = s.platform := by
  unfold timerTick; (repeat' split) <;> rfl
@[simp] theorem timerTick_draws (s : State) : (timerTick s).draws = s.draws := by
  unfold timerTick; (repeat' split) <;> rfl

/-! ## endOfStep -/

@[simp] theorem endOfStep_pc (s : State) : (endOfStep s).pc = s.pc := by simp [endOfStep]
@[simp] theorem endOfStep_llbit (s : State) : (endOfStep s).llbit = s.llbit := by simp [endOfStep]
@[simp] theorem endOfStep_idle (s : State) : (endOfStep s).idle = s.idle := by simp [endOfStep]
@[simp] theorem endOfStep_lines (s : State) : (endOfStep s).lines = s.lines := by simp [endOfStep]
@[simp] theorem endOfStep_status (s : State) : (endOfStep s).status = s.status := by simp [endOfStep]
@[simp] theorem endOfStep_mem (s : State) : (endOfStep s).mem = s.mem := by simp [endOfStep]
@[simp] theorem endOfStep_shadow (s : State) : (endOfStep s).shadow = s.shadow := by simp [endOfStep]
@[simp] theorem endOfStep_events (s : State) : (endOfStep s).events = s.events := by simp [endOfStep]
@[simp] theorem endOfStep_platform (s : State) : (endOfStep s).platform = s.platform := by simp [endOfStep]
@[simp] theorem endOfStep_gpr (s : State) : (endOfStep s).gpr = s.gpr.set 0 0#32 := by simp [endOfStep, zeroR0]
@[simp] theorem endOfStep_counter (s : State) :
    (endOfStep s).counter = s.counter + BitVec.ofNat 64 (stepTicks s) := by simp [endOfStep, stepTicks]
@[simp] theorem endOfStep_draws (s : State) : (endOfStep s).draws = s.draws + 1 := by simp [endOfStep]

/-! ## csrWrite and csrSideEffect -/

@[simp] theorem csrSideEffect_gpr (c : Csr) (v : Word) (s : State) : (csrSideEffect c v s).gpr = s.gpr := by
  cases c <;> simp only [csrSideEffect] <;> (repeat' split) <;> rfl
@[simp] theorem csrSideEffect_pc (c : Csr) (v : Word) (s : State) : (csrSideEffect c v s).pc = s.pc := by
  cases c <;> simp only [csrSideEffect] <;> (repeat' split) <;> rfl
@[simp] theorem csrSideEffect_counter (c : Csr) (v : Word) (s : State) : (csrSideEffect c v s).counter = s.counter := by
  cases c <;> simp only [csrSideEffect] <;> (repeat' split) <;> rfl
@[simp] theorem csrSideEffect_idle (c : Csr) (v : Word) (s : State) : (csrSideEffect c v s).idle = s.idle := by
  cases c <;> simp only [csrSideEffect] <;> (repeat' split) <;> rfl
@[simp] theorem csrSideEffect_lines (c : Csr) (v : Word) (s : State) : (csrSideEffect c v s).lines = s.lines := by
  cases c <;> simp only [csrSideEffect] <;> (repeat' split) <;> rfl
@[simp] theorem csrSideEffect_status (c : Csr) (v : Word) (s : State) : (csrSideEffect c v s).status = s.status := by
  cases c <;> simp only [csrSideEffect] <;> (repeat' split) <;> rfl
@[simp] theorem csrSideEffect_mem (c : Csr) (v : Word) (s : State) : (csrSideEffect c v s).mem = s.mem := by
  cases c <;> simp only [csrSideEffect] <;> (repeat' split) <;> rfl
@[simp] theorem csrSideEffect_shadow (c : Csr) (v : Word) (s : State) : (csrSideEffect c v s).shadow = s.shadow := by
  cases c <;> simp only [csrSideEffect] <;> (repeat' split) <;> rfl
@[simp] theorem csrSideEffect_events (c : Csr) (v : Word) (s : State) : (csrSideEffect c v s).events = s.events := by
  cases c <;> simp only [csrSideEffect] <;> (repeat' split) <;> rfl
@[simp] theorem csrSideEffect_platform (c : Csr) (v : Word) (s : State) : (csrSideEffect c v s).platform = s.platform := by
  cases c <;> simp only [csrSideEffect] <;> (repeat' split) <;> rfl
@[simp] theorem csrSideEffect_draws (c : Csr) (v : Word) (s : State) : (csrSideEffect c v s).draws = s.draws := by
  cases c <;> simp only [csrSideEffect] <;> (repeat' split) <;> rfl
@[simp] theorem csrWrite_gpr (n : BitVec 14) (v : Word) (s : State) : (csrWrite n v s).gpr = s.gpr := by
  unfold csrWrite; split <;> simp
@[simp] theorem csrWrite_pc (n : BitVec 14) (v : Word) (s : State) : (csrWrite n v s).pc = s.pc := by
  unfold csrWrite; split <;> simp
@[simp] theorem csrWrite_counter (n : BitVec 14) (v : Word) (s : State) : (csrWrite n v s).counter = s.counter := by
  unfold csrWrite; split <;> simp
@[simp] theorem csrWrite_idle (n : BitVec 14) (v : Word) (s : State) : (csrWrite n v s).idle = s.idle := by
  unfold csrWrite; split <;> simp
@[simp] theorem csrWrite_lines (n : BitVec 14) (v : Word) (s : State) : (csrWrite n v s).lines = s.lines := by
  unfold csrWrite; split <;> simp
@[simp] theorem csrWrite_status (n : BitVec 14) (v : Word) (s : State) : (csrWrite n v s).status = s.status := by
  unfold csrWrite; split <;> simp
@[simp] theorem csrWrite_mem (n : BitVec 14) (v : Word) (s : State) : (csrWrite n v s).mem = s.mem := by
  unfold csrWrite; split <;> simp
@[simp] theorem csrWrite_shadow (n : BitVec 14) (v : Word) (s : State) : (csrWrite n v s).shadow = s.shadow := by
  unfold csrWrite; split <;> simp
@[simp] theorem csrWrite_events (n : BitVec 14) (v : Word) (s : State) : (csrWrite n v s).events = s.events := by
  unfold csrWrite; split <;> simp
@[simp] theorem csrWrite_platform (n : BitVec 14) (v : Word) (s : State) : (csrWrite n v s).platform = s.platform := by
  unfold csrWrite; split <;> simp
@[simp] theorem csrWrite_draws (n : BitVec 14) (v : Word) (s : State) : (csrWrite n v s).draws = s.draws := by
  unfold csrWrite; split <;> simp

end Sys2Proof.Machine
end

