-- ==== Sys2Proof/Laws/Csr.lean ====
section
/-! SUPPORT. Laws of the CSR file: what a store, a read and a CSR write can do. -/

namespace Sys2Proof.Machine

/-- A CSR with storage: every one but PGD and TICLR. -/
def csrHasStorage (c : Csr) : Bool := c != .pgd && c != .ticlr

@[simp] theorem csrStored_csrStore_same (r : Csrs) {c : Csr} (v : Word) (h : csrHasStorage c = true) :
    csrStored (csrStore r c v) c = v := by
  cases c <;> first | rfl | simp [csrHasStorage] at h

theorem csrStored_csrStore_other (r : Csrs) {c d : Csr} (v : Word) (h : d ≠ c) :
    csrStored (csrStore r c v) d = csrStored r d := by
  cases c <;> cases d <;> first | rfl | exact absurd rfl h

/-- The number of an implemented CSR names it (10_state.md R42). -/
@[simp] theorem csrOfNumber_csrNumber (c : Csr) : csrOfNumber (csrNumber c) = some c := by
  cases c <;> decide

/-- The CSR a number names has that number. -/
theorem csrNumber_of_csrOfNumber {n : BitVec 14} {c : Csr} (h : csrOfNumber n = some c) : csrNumber c = n := by
  simpa using List.find?_some h

/-- All a CSR read can do (10_state.md R48). -/
theorem csrRead_cases (n : BitVec 14) (s : State) :
    (∃ c, csrOfNumber n = some c ∧ csrRead n s = (csrValue c s, s)) ∨
      (csrOfNumber n = none ∧ csrRead n s = (Config.csrUndefRead s.draws, { s with draws := s.draws + 1 })) := by
  unfold csrRead
  cases h : csrOfNumber n with
  | none => exact .inr ⟨rfl, rfl⟩
  | some c => exact .inl ⟨c, rfl, rfl⟩

/-- A CSR write of an implemented number: the masked store, then the side effects (10_state.md R49). -/
theorem csrWrite_of_some {n : BitVec 14} {c : Csr} (v : Word) (s : State) (h : csrOfNumber n = some c) :
    csrWrite n v s =
      csrSideEffect c v { s with csr := csrStore s.csr c (merge (csrWmask c) (csrStored s.csr c) v) } := by
  simp [csrWrite, h]

/-- A CSR write of an unimplemented number changes nothing (10_state.md R49). -/
theorem csrWrite_of_none {n : BitVec 14} (v : Word) (s : State) (h : csrOfNumber n = none) : csrWrite n v s = s := by
  simp [csrWrite, h]

/-- The side effects of a CSR write on the CSRs: TCFG loads TVAL, TICLR clears ESTAT.IS[11], every other CSR has none
(10_state.md R49). -/
theorem csrSideEffect_csr (c : Csr) (v : Word) (s : State) :
    (csrSideEffect c v s).csr =
      if c = .tcfg then { s.csr with tval := v &&& 0xFFFFFFFC }
      else if c = .ticlr ∧ v.getLsbD 0 = true then { s.csr with estat := putBit s.csr.estat 11 false }
      else s.csr := by
  cases c <;> simp [csrSideEffect] <;> split <;> rfl

/-- The LLbit after a CSR write's side effects: cleared by LLBCTL.WCLLB (10_state.md R71). -/
theorem csrSideEffect_llbit (c : Csr) (v : Word) (s : State) :
    (csrSideEffect c v s).llbit = (if c = .llbctl ∧ v.getLsbD 1 = true then false else s.llbit) := by
  cases c <;> simp only [csrSideEffect] <;> (repeat' split) <;> simp_all

/-- `timer_en` after a CSR write's side effects: TCFG.En of a TCFG write (10_state.md R68). -/
theorem csrSideEffect_timerEn (c : Csr) (v : Word) (s : State) :
    (csrSideEffect c v s).timerEn = (if c = .tcfg then v.getLsbD 0 else s.timerEn) := by
  cases c <;> simp [csrSideEffect] <;> split <;> rfl

/-- The implemented CSR that a CSR write names keeps its bits outside WMASK, and takes the written bits inside
(10_state.md R49): bit by bit, before the side effects. -/
theorem getLsbD_merge (mask old new : Word) (i : Nat) :
    (merge mask old new).getLsbD i = if mask.getLsbD i then new.getLsbD i else old.getLsbD i := by
  by_cases hi : i < 32
  · simp only [merge, BitVec.getLsbD_or, BitVec.getLsbD_and, BitVec.getLsbD_not, hi, decide_true, Bool.true_and]
    cases mask.getLsbD i <;> simp
  · simp [merge, BitVec.getLsbD_of_ge _ _ (Nat.le_of_not_lt hi)]

/-- Bits of `putField`: the field inside, the old word outside. -/
theorem getLsbD_putField (v : Word) (lo len : Nat) (f : BitVec len) (i : Nat) (h : lo + len ≤ 32) :
    (putField v lo len f).getLsbD i = if lo ≤ i ∧ i < lo + len then f.getLsbD (i - lo) else v.getLsbD i := by
  by_cases hi : i < 32
  · simp only [putField, fieldMask, BitVec.getLsbD_or, BitVec.getLsbD_and, BitVec.getLsbD_not,
      BitVec.getLsbD_shiftLeft, BitVec.getLsbD_setWidth, BitVec.getLsbD_allOnes, hi, decide_true, Bool.true_and]
    by_cases h1 : i < lo
    · simp [h1, show ¬(lo ≤ i ∧ i < lo + len) by omega]
    · by_cases h2 : i < lo + len
      · simp [h1, show i - lo < 32 by omega, show i - lo < len by omega, show lo ≤ i ∧ i < lo + len by omega]
      · have hf : f.getLsbD (i - lo) = false := BitVec.getLsbD_of_ge _ _ (by omega)
        simp [h1, show ¬(i - lo < len) by omega, show ¬(lo ≤ i ∧ i < lo + len) by omega, hf]
  · rw [BitVec.getLsbD_of_ge _ _ (Nat.le_of_not_lt hi), BitVec.getLsbD_of_ge v _ (Nat.le_of_not_lt hi)]
    simp [show ¬(lo ≤ i ∧ i < lo + len) by omega]

/-- Bits of `putBit`. -/
theorem getLsbD_putBit (v : Word) (n : Nat) (b : Bool) (i : Nat) (h : n < 32) :
    (putBit v n b).getLsbD i = if i = n then b else v.getLsbD i := by
  rw [putBit, getLsbD_putField _ _ _ _ _ (by omega)]
  by_cases hi : i = n
  · subst hi; simp
  · rw [if_neg (by omega), if_neg hi]

end Sys2Proof.Machine
end

