-- ==== Sys2Proof/Laws/Decode.lean ====
section
/-! SUPPORT. Laws of the decoder and the encoder: which row a word takes, the bits of each encoding format, the fields
read back from it, and the bits its row fixes. -/

namespace Sys2Proof

/-! ## Which row a word takes -/

@[simp] theorem rowMatches_iff {r : Row} {w : Word} : rowMatches r w = true ↔ w &&& r.mask = r.pattern := by
  simp [rowMatches]

/-- A word that matches one row does not match a row whose fixed bits clash with it. -/
theorem not_rowMatches_of_clash {r q : Row} {w : Word} (hw : rowMatches r w = true)
    (h : r.pattern &&& q.mask ≠ q.pattern &&& r.mask) : rowMatches q w = false := by
  by_contra hq
  rw [Bool.not_eq_false, rowMatches_iff] at hq
  rw [rowMatches_iff] at hw
  apply h
  rw [← hw, ← hq, BitVec.and_assoc, BitVec.and_assoc, BitVec.and_comm r.mask]

/-- The first row that matches decides (30_encoding.md R160). -/
theorem decodeWord_of_split {w : Word} {r : Row} {before after : List Row} (hc : catalog = before ++ r :: after)
    (hb : ∀ q ∈ before, rowMatches q w = false) (hr : rowMatches r w = true) : decodeWord w = some (r.build w) := by
  have hn : before.find? (fun q => rowMatches q w) = none :=
    List.find?_eq_none.2 fun q hq => by simp [hb q hq, -rowMatches_iff]
  simp [decodeWord, hc, List.find?_append, hn, hr]

/-- The row at place `k` decodes a word it matches, when its fixed bits clash with those of every row before it. -/
theorem decodeWord_of_row {w : Word} {r : Row} (k : Nat) (hr : catalog[k]? = some r) (hw : w &&& r.mask = r.pattern)
    (hc : ∀ q ∈ catalog.take k, r.pattern &&& q.mask ≠ q.pattern &&& r.mask) : decodeWord w = some (r.build w) := by
  have hw' : rowMatches r w = true := rowMatches_iff.2 hw
  obtain ⟨hk, rfl⟩ := List.getElem?_eq_some_iff.1 hr
  refine decodeWord_of_split (before := catalog.take k) (after := catalog.drop (k + 1)) ?_
    (fun q hq => not_rowMatches_of_clash hw' (hc q hq)) hw'
  rw [← List.drop_eq_getElem_cons hk, List.take_append_drop]

/-- The wildcard matches every word, so every word decodes (30_encoding.md R160). -/
theorem decodeWord_isSome (w : Word) : (decodeWord w).isSome = true := by
  unfold decodeWord
  rw [Option.isSome_map, List.find?_isSome]
  refine ⟨{ mnemonic := "(invalid)", pattern := 0x00000000#32, mask := 0x00000000#32, build := fun w => .invalid (w) }, ?_, ?_⟩
  · simp [catalog, catalogWildcard]
  · simp

/-! ## The bits of each format -/

theorem getLsbD_enc2R (m : Word) (rj rd : Reg) (i : Nat) :
    (enc2R m rj rd).getLsbD i =
      if i < 5 then rd.getLsbD i else if i < 10 then rj.getLsbD (i - 5) else m.getLsbD i := by
  simp only [enc2R, BitVec.getLsbD_append, BitVec.getLsbD_extractLsb']
  split_ifs <;> first | rfl | omega | skip
  by_cases h : i < 32
  · simp [show i - 5 - 5 < 22 by omega, show 10 + (i - 5 - 5) = i by omega]
  · simp [show ¬(i - 5 - 5 < 22) by omega, BitVec.getLsbD_of_ge m i (by omega)]

theorem getLsbD_enc3R (m : Word) (rk rj rd : Reg) (i : Nat) :
    (enc3R m rk rj rd).getLsbD i =
      if i < 5 then rd.getLsbD i else if i < 10 then rj.getLsbD (i - 5) else if i < 15 then rk.getLsbD (i - 10)
      else m.getLsbD i := by
  simp only [enc3R, BitVec.getLsbD_append, BitVec.getLsbD_extractLsb']
  split_ifs <;> first | rfl | omega | skip
  by_cases h : i < 32
  · simp [show i - 5 - 5 - 5 < 17 by omega, show 15 + (i - 5 - 5 - 5) = i by omega]
  · simp [show ¬(i - 5 - 5 - 5 < 17) by omega, BitVec.getLsbD_of_ge m i (by omega)]

theorem getLsbD_enc2RI12 (m : Word) (i12 : BitVec 12) (rj rd : Reg) (i : Nat) :
    (enc2RI12 m i12 rj rd).getLsbD i =
      if i < 5 then rd.getLsbD i else if i < 10 then rj.getLsbD (i - 5) else if i < 22 then i12.getLsbD (i - 10)
      else m.getLsbD i := by
  simp only [enc2RI12, BitVec.getLsbD_append, BitVec.getLsbD_extractLsb']
  split_ifs <;> first | rfl | omega | skip
  by_cases h : i < 32
  · simp [show i - 5 - 5 - 12 < 10 by omega, show 22 + (i - 5 - 5 - 12) = i by omega]
  · simp [show ¬(i - 5 - 5 - 12 < 10) by omega, BitVec.getLsbD_of_ge m i (by omega)]

theorem getLsbD_enc2RI14 (m : Word) (i14 : BitVec 14) (rj rd : Reg) (i : Nat) :
    (enc2RI14 m i14 rj rd).getLsbD i =
      if i < 5 then rd.getLsbD i else if i < 10 then rj.getLsbD (i - 5) else if i < 24 then i14.getLsbD (i - 10)
      else m.getLsbD i := by
  simp only [enc2RI14, BitVec.getLsbD_append, BitVec.getLsbD_extractLsb']
  split_ifs <;> first | rfl | omega | skip
  by_cases h : i < 32
  · simp [show i - 5 - 5 - 14 < 8 by omega, show 24 + (i - 5 - 5 - 14) = i by omega]
  · simp [show ¬(i - 5 - 5 - 14 < 8) by omega, BitVec.getLsbD_of_ge m i (by omega)]

theorem getLsbD_enc2RI16 (m : Word) (offs : BitVec 16) (rj rd : Reg) (i : Nat) :
    (enc2RI16 m offs rj rd).getLsbD i =
      if i < 5 then rd.getLsbD i else if i < 10 then rj.getLsbD (i - 5) else if i < 26 then offs.getLsbD (i - 10)
      else m.getLsbD i := by
  simp only [enc2RI16, BitVec.getLsbD_append, BitVec.getLsbD_extractLsb']
  split_ifs <;> first | rfl | omega | skip
  by_cases h : i < 32
  · simp [show i - 5 - 5 - 16 < 6 by omega, show 26 + (i - 5 - 5 - 16) = i by omega]
  · simp [show ¬(i - 5 - 5 - 16 < 6) by omega, BitVec.getLsbD_of_ge m i (by omega)]

theorem getLsbD_enc1RI20 (m : Word) (si20 : BitVec 20) (rd : Reg) (i : Nat) :
    (enc1RI20 m si20 rd).getLsbD i =
      if i < 5 then rd.getLsbD i else if i < 25 then si20.getLsbD (i - 5) else m.getLsbD i := by
  simp only [enc1RI20, BitVec.getLsbD_append, BitVec.getLsbD_extractLsb']
  split_ifs <;> first | rfl | omega | skip
  by_cases h : i < 32
  · simp [show i - 5 - 20 < 7 by omega, show 25 + (i - 5 - 20) = i by omega]
  · simp [show ¬(i - 5 - 20 < 7) by omega, BitVec.getLsbD_of_ge m i (by omega)]

theorem getLsbD_encI26 (m : Word) (offs : BitVec 26) (i : Nat) :
    (encI26 m offs).getLsbD i =
      if i < 10 then offs.getLsbD (16 + i) else if i < 26 then offs.getLsbD (i - 10) else m.getLsbD i := by
  simp only [encI26, BitVec.getLsbD_append, BitVec.getLsbD_extractLsb']
  split_ifs with h1 h2 h3 <;> first | omega | skip
  · simp [h1]
  · simp [show i - 10 < 16 by omega]
  · by_cases h : i < 32
    · simp [show i - 10 - 16 < 6 by omega, show 26 + (i - 10 - 16) = i by omega]
    · simp [show ¬(i - 10 - 16 < 6) by omega, BitVec.getLsbD_of_ge m i (by omega)]

theorem getLsbD_encCode15 (m : Word) (code : BitVec 15) (i : Nat) :
    (encCode15 m code).getLsbD i = if i < 15 then code.getLsbD i else m.getLsbD i := by
  simp only [encCode15, BitVec.getLsbD_append, BitVec.getLsbD_extractLsb']
  split_ifs <;> first | rfl | skip
  by_cases h : i < 32
  · simp [show i - 15 < 17 by omega, show 15 + (i - 15) = i by omega]
  · simp [show ¬(i - 15 < 17) by omega, BitVec.getLsbD_of_ge m i (by omega)]

/-! ## The fields read back from a format -/

/-- A field of a word is the vector with those bits. -/
theorem extractLsb'_eq_of_bits {w : Word} {lo len : Nat} {v : BitVec len}
    (h : ∀ i, i < len → w.getLsbD (lo + i) = v.getLsbD i) : w.extractLsb' lo len = v := by
  apply BitVec.eq_of_getLsbD_eq
  intro i hi
  simp [hi, h i hi]

@[simp] theorem fieldRd_enc2R (m : Word) (rj rd : Reg) : fieldRd (enc2R m rj rd) = rd :=
  extractLsb'_eq_of_bits fun i hi => by rw [getLsbD_enc2R, if_pos (by omega), Nat.zero_add]
@[simp] theorem fieldRj_enc2R (m : Word) (rj rd : Reg) : fieldRj (enc2R m rj rd) = rj :=
  extractLsb'_eq_of_bits fun i hi => by
    rw [getLsbD_enc2R, if_neg (by omega), if_pos (by omega), Nat.add_sub_cancel_left]

@[simp] theorem fieldRd_enc3R (m : Word) (rk rj rd : Reg) : fieldRd (enc3R m rk rj rd) = rd :=
  extractLsb'_eq_of_bits fun i hi => by rw [getLsbD_enc3R, if_pos (by omega), Nat.zero_add]
@[simp] theorem fieldLow5_enc3R (m : Word) (rk rj : Reg) (op : BitVec 5) : fieldLow5 (enc3R m rk rj op) = op :=
  fieldRd_enc3R m rk rj op
@[simp] theorem fieldRj_enc3R (m : Word) (rk rj rd : Reg) : fieldRj (enc3R m rk rj rd) = rj :=
  extractLsb'_eq_of_bits fun i hi => by
    rw [getLsbD_enc3R, if_neg (by omega), if_pos (by omega), Nat.add_sub_cancel_left]
@[simp] theorem fieldRk_enc3R (m : Word) (rk rj rd : Reg) : fieldRk (enc3R m rk rj rd) = rk :=
  extractLsb'_eq_of_bits fun i hi => by
    rw [getLsbD_enc3R, if_neg (by omega), if_neg (by omega), if_pos (by omega), Nat.add_sub_cancel_left]
@[simp] theorem fieldUi5_enc3R (m : Word) (ui5 : BitVec 5) (rj rd : Reg) : fieldUi5 (enc3R m ui5 rj rd) = ui5 :=
  fieldRk_enc3R m ui5 rj rd

@[simp] theorem fieldRd_enc2RI12 (m : Word) (i12 : BitVec 12) (rj rd : Reg) : fieldRd (enc2RI12 m i12 rj rd) = rd :=
  extractLsb'_eq_of_bits fun i hi => by rw [getLsbD_enc2RI12, if_pos (by omega), Nat.zero_add]
@[simp] theorem fieldLow5_enc2RI12 (m : Word) (i12 : BitVec 12) (rj : Reg) (c : BitVec 5) :
    fieldLow5 (enc2RI12 m i12 rj c) = c := fieldRd_enc2RI12 m i12 rj c
@[simp] theorem fieldRj_enc2RI12 (m : Word) (i12 : BitVec 12) (rj rd : Reg) : fieldRj (enc2RI12 m i12 rj rd) = rj :=
  extractLsb'_eq_of_bits fun i hi => by
    rw [getLsbD_enc2RI12, if_neg (by omega), if_pos (by omega), Nat.add_sub_cancel_left]
@[simp] theorem fieldI12_enc2RI12 (m : Word) (i12 : BitVec 12) (rj rd : Reg) : fieldI12 (enc2RI12 m i12 rj rd) = i12 :=
  extractLsb'_eq_of_bits fun i hi => by
    rw [getLsbD_enc2RI12, if_neg (by omega), if_neg (by omega), if_pos (by omega), Nat.add_sub_cancel_left]

@[simp] theorem fieldRd_enc2RI14 (m : Word) (i14 : BitVec 14) (rj rd : Reg) : fieldRd (enc2RI14 m i14 rj rd) = rd :=
  extractLsb'_eq_of_bits fun i hi => by rw [getLsbD_enc2RI14, if_pos (by omega), Nat.zero_add]
@[simp] theorem fieldRj_enc2RI14 (m : Word) (i14 : BitVec 14) (rj rd : Reg) : fieldRj (enc2RI14 m i14 rj rd) = rj :=
  extractLsb'_eq_of_bits fun i hi => by
    rw [getLsbD_enc2RI14, if_neg (by omega), if_pos (by omega), Nat.add_sub_cancel_left]
@[simp] theorem fieldI14_enc2RI14 (m : Word) (i14 : BitVec 14) (rj rd : Reg) : fieldI14 (enc2RI14 m i14 rj rd) = i14 :=
  extractLsb'_eq_of_bits fun i hi => by
    rw [getLsbD_enc2RI14, if_neg (by omega), if_neg (by omega), if_pos (by omega), Nat.add_sub_cancel_left]

@[simp] theorem fieldRd_enc2RI16 (m : Word) (offs : BitVec 16) (rj rd : Reg) : fieldRd (enc2RI16 m offs rj rd) = rd :=
  extractLsb'_eq_of_bits fun i hi => by rw [getLsbD_enc2RI16, if_pos (by omega), Nat.zero_add]
@[simp] theorem fieldRj_enc2RI16 (m : Word) (offs : BitVec 16) (rj rd : Reg) : fieldRj (enc2RI16 m offs rj rd) = rj :=
  extractLsb'_eq_of_bits fun i hi => by
    rw [getLsbD_enc2RI16, if_neg (by omega), if_pos (by omega), Nat.add_sub_cancel_left]
@[simp] theorem fieldOffs16_enc2RI16 (m : Word) (offs : BitVec 16) (rj rd : Reg) :
    fieldOffs16 (enc2RI16 m offs rj rd) = offs :=
  extractLsb'_eq_of_bits fun i hi => by
    rw [getLsbD_enc2RI16, if_neg (by omega), if_neg (by omega), if_pos (by omega), Nat.add_sub_cancel_left]

@[simp] theorem fieldRd_enc1RI20 (m : Word) (si20 : BitVec 20) (rd : Reg) : fieldRd (enc1RI20 m si20 rd) = rd :=
  extractLsb'_eq_of_bits fun i hi => by rw [getLsbD_enc1RI20, if_pos (by omega), Nat.zero_add]
@[simp] theorem fieldSi20_enc1RI20 (m : Word) (si20 : BitVec 20) (rd : Reg) : fieldSi20 (enc1RI20 m si20 rd) = si20 :=
  extractLsb'_eq_of_bits fun i hi => by
    rw [getLsbD_enc1RI20, if_neg (by omega), if_pos (by omega), Nat.add_sub_cancel_left]

@[simp] theorem fieldOffs26_encI26 (m : Word) (offs : BitVec 26) : fieldOffs26 (encI26 m offs) = offs := by
  apply BitVec.eq_of_getLsbD_eq
  intro i hi
  rw [fieldOffs26, BitVec.getLsbD_append]
  split_ifs with h
  · rw [BitVec.getLsbD_extractLsb', getLsbD_encI26, if_neg (by omega), if_pos (by omega), Nat.add_sub_cancel_left]
    simp [h]
  · rw [BitVec.getLsbD_extractLsb', getLsbD_encI26, if_pos (by omega), show 16 + (0 + (i - 16)) = i by omega]
    simp [show i - 16 < 10 by omega]

@[simp] theorem fieldCode15_encCode15 (m : Word) (code : BitVec 15) : fieldCode15 (encCode15 m code) = code :=
  extractLsb'_eq_of_bits fun i hi => by rw [getLsbD_encCode15, if_pos (by omega), Nat.zero_add]

/-! ## The bits a format fixes -/

/-- A pattern with its mask: the masked word is the pattern when its bits are the pattern's under the mask, and the
pattern has no other bits. -/
theorem and_mask_eq_of_bits {w m mask : Word} (hm : m &&& mask = m)
    (h : ∀ i, i < 32 → mask.getLsbD i = true → w.getLsbD i = m.getLsbD i) : w &&& mask = m := by
  rw [← hm]
  apply BitVec.eq_of_getLsbD_eq
  intro i hi
  rw [BitVec.getLsbD_and, BitVec.getLsbD_and]
  cases hb : mask.getLsbD i with
  | false => simp
  | true => rw [h i hi hb]

/-- The masks of the formats, bit by bit. -/
theorem mask_bits_15 : ∀ i, i < 32 → (0xFFFF8000#32).getLsbD i = decide (15 ≤ i) := by decide
theorem mask_bits_22 : ∀ i, i < 32 → (0xFFC00000#32).getLsbD i = decide (22 ≤ i) := by decide
theorem mask_bits_24 : ∀ i, i < 32 → (0xFF000000#32).getLsbD i = decide (24 ≤ i) := by decide
theorem mask_bits_25 : ∀ i, i < 32 → (0xFE000000#32).getLsbD i = decide (25 ≤ i) := by decide
theorem mask_bits_26 : ∀ i, i < 32 → (0xFC000000#32).getLsbD i = decide (26 ≤ i) := by decide
theorem mask_bits_rdcntv : ∀ i, i < 32 → (0xFFFFFFE0#32).getLsbD i = decide (5 ≤ i) := by decide
theorem mask_bits_rdcntid : ∀ i, i < 32 → (0xFFFFFC1F#32).getLsbD i = decide (i < 5 ∨ 10 ≤ i) := by decide
theorem mask_bits_csr1 : ∀ i, i < 32 → (0xFF0003E0#32).getLsbD i = decide ((5 ≤ i ∧ i < 10) ∨ 24 ≤ i) := by decide

theorem enc3R_fixed {m : Word} (hm : m &&& 0xFFFF8000#32 = m) (rk rj rd : Reg) :
    enc3R m rk rj rd &&& 0xFFFF8000#32 = m :=
  and_mask_eq_of_bits hm fun i hi hb => by
    rw [mask_bits_15 i hi, decide_eq_true_eq] at hb
    rw [getLsbD_enc3R, if_neg (by omega), if_neg (by omega), if_neg (by omega)]

theorem enc2RI12_fixed {m : Word} (hm : m &&& 0xFFC00000#32 = m) (i12 : BitVec 12) (rj rd : Reg) :
    enc2RI12 m i12 rj rd &&& 0xFFC00000#32 = m :=
  and_mask_eq_of_bits hm fun i hi hb => by
    rw [mask_bits_22 i hi, decide_eq_true_eq] at hb
    rw [getLsbD_enc2RI12, if_neg (by omega), if_neg (by omega), if_neg (by omega)]

theorem enc2RI14_fixed {m : Word} (hm : m &&& 0xFF000000#32 = m) (i14 : BitVec 14) (rj rd : Reg) :
    enc2RI14 m i14 rj rd &&& 0xFF000000#32 = m :=
  and_mask_eq_of_bits hm fun i hi hb => by
    rw [mask_bits_24 i hi, decide_eq_true_eq] at hb
    rw [getLsbD_enc2RI14, if_neg (by omega), if_neg (by omega), if_neg (by omega)]

theorem enc2RI16_fixed {m : Word} (hm : m &&& 0xFC000000#32 = m) (offs : BitVec 16) (rj rd : Reg) :
    enc2RI16 m offs rj rd &&& 0xFC000000#32 = m :=
  and_mask_eq_of_bits hm fun i hi hb => by
    rw [mask_bits_26 i hi, decide_eq_true_eq] at hb
    rw [getLsbD_enc2RI16, if_neg (by omega), if_neg (by omega), if_neg (by omega)]

theorem enc1RI20_fixed {m : Word} (hm : m &&& 0xFE000000#32 = m) (si20 : BitVec 20) (rd : Reg) :
    enc1RI20 m si20 rd &&& 0xFE000000#32 = m :=
  and_mask_eq_of_bits hm fun i hi hb => by
    rw [mask_bits_25 i hi, decide_eq_true_eq] at hb
    rw [getLsbD_enc1RI20, if_neg (by omega), if_neg (by omega)]

theorem encI26_fixed {m : Word} (hm : m &&& 0xFC000000#32 = m) (offs : BitVec 26) :
    encI26 m offs &&& 0xFC000000#32 = m :=
  and_mask_eq_of_bits hm fun i hi hb => by
    rw [mask_bits_26 i hi, decide_eq_true_eq] at hb
    rw [getLsbD_encI26, if_neg (by omega), if_neg (by omega)]

theorem encCode15_fixed {m : Word} (hm : m &&& 0xFFFF8000#32 = m) (code : BitVec 15) :
    encCode15 m code &&& 0xFFFF8000#32 = m :=
  and_mask_eq_of_bits hm fun i hi hb => by
    rw [mask_bits_15 i hi, decide_eq_true_eq] at hb
    rw [getLsbD_encCode15, if_neg (by omega)]

/-- RDCNTVL.W and RDCNTVH.W fix `rj = 0` as well. -/
theorem enc2R_fixed_rd {m : Word} (hm : m &&& 0xFFFFFFE0#32 = m) (hj : ∀ i, i < 10 → m.getLsbD i = false) (rd : Reg) :
    enc2R m 0#5 rd &&& 0xFFFFFFE0#32 = m :=
  and_mask_eq_of_bits hm fun i hi hb => by
    rw [mask_bits_rdcntv i hi, decide_eq_true_eq] at hb
    rw [getLsbD_enc2R, if_neg (by omega)]
    split_ifs with h
    · rw [hj i h]; simp
    · rfl

/-- RDCNTID.W fixes `rd = 0` as well. -/
theorem enc2R_fixed_rj {m : Word} (hm : m &&& 0xFFFFFC1F#32 = m) (hj : ∀ i, i < 10 → m.getLsbD i = false) (rj : Reg) :
    enc2R m rj 0#5 &&& 0xFFFFFC1F#32 = m :=
  and_mask_eq_of_bits hm fun i hi hb => by
    rw [mask_bits_rdcntid i hi, decide_eq_true_eq] at hb
    rw [getLsbD_enc2R]
    split_ifs with h1 h2
    · rw [hj i (by omega)]; simp
    · omega
    · rfl

/-- CSRRD and CSRWR fix `rj` as well. -/
theorem enc2RI14_fixed_rj {m : Word} (k : Reg) (hm : m &&& 0xFF0003E0#32 = m)
    (hk : ∀ i, i < 5 → m.getLsbD (5 + i) = k.getLsbD i) (csr : BitVec 14) (rd : Reg) :
    enc2RI14 m csr k rd &&& 0xFF0003E0#32 = m :=
  and_mask_eq_of_bits hm fun i hi hb => by
    rw [mask_bits_csr1 i hi, decide_eq_true_eq] at hb
    rw [getLsbD_enc2RI14, if_neg (by omega)]
    split_ifs with h1 h2
    · rw [← hk (i - 5) (by omega), show 5 + (i - 5) = i by omega]
    · omega
    · rfl

/-! ## Words and bytes -/

/-- The four bytes of a word read back as the word. -/
@[simp] theorem wordOfBytes_bytesOfWord (w : Word) :
    wordOfBytes (w.extractLsb' 0 8) (w.extractLsb' 8 8) (w.extractLsb' 16 8) (w.extractLsb' 24 8) = w := by
  apply BitVec.eq_of_getLsbD_eq
  intro i hi
  simp only [wordOfBytes, BitVec.getLsbD_append, BitVec.getLsbD_extractLsb']
  split_ifs with h1 h2 h3
  · simp [h1]
  · simp [h2, show 8 + (i - 8) = i by omega]
  · simp [h3, show 16 + (i - 8 - 8) = i by omega]
  · simp [show i - 8 - 8 - 8 < 8 by omega, show 24 + (i - 8 - 8 - 8) = i by omega]

/-- Decoding the bytes of a word decodes the word. -/
theorem decode_bytesOfWord (w : Word) (rest : List Byte) :
    decode (bytesOfWord w ++ rest) =
      match decodeWord w with
      | some i => .ok (i, rest)
      | none => .error .noMatchingRow := by
  cases h : decodeWord w <;>
    simp only [bytesOfWord, List.cons_append, List.nil_append, decode, wordOfBytes_bytesOfWord, h]

/-! ## The formats as numbers -/

/-- A field appended below a word's higher fields, as a sum. -/
theorem toNat_append_field {m n : Nat} (x : BitVec m) (y : BitVec n) : (x ++ y).toNat = x.toNat * 2 ^ n + y.toNat := by
  rw [BitVec.toNat_append, ← Nat.shiftLeft_add_eq_or_of_lt y.isLt, Nat.shiftLeft_eq]

theorem toNat_enc3R (m : Word) (rk rj rd : Reg) :
    (enc3R m rk rj rd).toNat = m.toNat / 32768 * 32768 + rk.toNat * 1024 + rj.toNat * 32 + rd.toNat := by
  have := m.isLt
  simp only [enc3R, toNat_append_field, BitVec.extractLsb'_toNat, Nat.shiftRight_eq_div_pow]
  omega

theorem toNat_enc2RI12 (m : Word) (i12 : BitVec 12) (rj rd : Reg) :
    (enc2RI12 m i12 rj rd).toNat = m.toNat / 4194304 * 4194304 + i12.toNat * 1024 + rj.toNat * 32 + rd.toNat := by
  have := m.isLt
  simp only [enc2RI12, toNat_append_field, BitVec.extractLsb'_toNat, Nat.shiftRight_eq_div_pow]
  omega

theorem toNat_enc2RI14 (m : Word) (i14 : BitVec 14) (rj rd : Reg) :
    (enc2RI14 m i14 rj rd).toNat = m.toNat / 16777216 * 16777216 + i14.toNat * 1024 + rj.toNat * 32 + rd.toNat := by
  have := m.isLt
  simp only [enc2RI14, toNat_append_field, BitVec.extractLsb'_toNat, Nat.shiftRight_eq_div_pow]
  omega

theorem toNat_enc2RI16 (m : Word) (offs : BitVec 16) (rj rd : Reg) :
    (enc2RI16 m offs rj rd).toNat = m.toNat / 67108864 * 67108864 + offs.toNat * 1024 + rj.toNat * 32 + rd.toNat := by
  have := m.isLt
  simp only [enc2RI16, toNat_append_field, BitVec.extractLsb'_toNat, Nat.shiftRight_eq_div_pow]
  omega

theorem toNat_enc1RI20 (m : Word) (si20 : BitVec 20) (rd : Reg) :
    (enc1RI20 m si20 rd).toNat = m.toNat / 33554432 * 33554432 + si20.toNat * 32 + rd.toNat := by
  have := m.isLt
  simp only [enc1RI20, toNat_append_field, BitVec.extractLsb'_toNat, Nat.shiftRight_eq_div_pow]
  omega

theorem toNat_encI26 (m : Word) (offs : BitVec 26) :
    (encI26 m offs).toNat =
      m.toNat / 67108864 * 67108864 + offs.toNat % 65536 * 1024 + offs.toNat / 65536 := by
  have := m.isLt
  have := offs.isLt
  simp only [encI26, toNat_append_field, BitVec.extractLsb'_toNat, Nat.shiftRight_eq_div_pow]
  omega

theorem toNat_encCode15 (m : Word) (code : BitVec 15) :
    (encCode15 m code).toNat = m.toNat / 32768 * 32768 + code.toNat := by
  have := m.isLt
  simp only [encCode15, toNat_append_field, BitVec.extractLsb'_toNat, Nat.shiftRight_eq_div_pow]
  omega

end Sys2Proof
end

