-- ==== Sys2Proof/Laws/Memory.lean ====
section
/-! SUPPORT. Laws of backing memory and the shadow buffers: read after write, every other address untouched, and the
canonical form kept by every memory operation. -/

namespace Sys2Proof.Machine

/-! ## Cells -/

@[simp] theorem cellAt_cellPut_same (l : List Host.Cell) (a : Nat) (v : Byte) : cellAt (cellPut l a v) a = some v := by
  induction l with
  | nil => simp [cellPut, cellAt]
  | cons c rest ih =>
    obtain ⟨b, w⟩ := c
    simp only [cellPut]
    split
    · simp [cellAt]
    · split
      · simp [cellAt]
      · rename_i h; simp [cellAt, h, ih]

theorem cellAt_cellPut_other (l : List Host.Cell) {a x : Nat} (v : Byte) (h : x ≠ a) :
    cellAt (cellPut l a v) x = cellAt l x := by
  induction l with
  | nil => simp [cellPut, cellAt, h]
  | cons c rest ih =>
    obtain ⟨b, w⟩ := c
    simp only [cellPut]
    split
    · simp [cellAt, h]
    · split
      · rename_i hb; subst hb; simp [cellAt, h]
      · simp [cellAt, ih]

@[simp] theorem cellAt_cellDrop_same (l : List Host.Cell) (a : Nat) : cellAt (cellDrop l a) a = none := by
  induction l with
  | nil => simp [cellDrop, cellAt]
  | cons c rest ih =>
    obtain ⟨b, w⟩ := c
    simp only [cellDrop]
    split
    · exact ih
    · rename_i h; simp [cellAt, h, ih]

theorem cellAt_cellDrop_other (l : List Host.Cell) {a x : Nat} (h : x ≠ a) :
    cellAt (cellDrop l a) x = cellAt l x := by
  induction l with
  | nil => simp [cellDrop, cellAt]
  | cons c rest ih =>
    obtain ⟨b, w⟩ := c
    simp only [cellDrop]
    split
    · rename_i hb; subst hb; simp [cellAt, h, ih]
    · simp [cellAt, ih]

/-- A cell of a list with a byte put in is that byte or one of the list. -/
theorem mem_cellPut {l : List Host.Cell} {a : Nat} {v : Byte} {c : Host.Cell} (h : c ∈ cellPut l a v) :
    c = (a, v) ∨ c ∈ l := by
  induction l with
  | nil => simpa [cellPut] using h
  | cons d rest ih =>
    obtain ⟨b, w⟩ := d
    simp only [cellPut] at h
    split at h
    · simpa using h
    · split at h
      · simp only [List.mem_cons] at h ⊢; tauto
      · simp only [List.mem_cons] at h ⊢; tauto

/-- A cell of a list with an address dropped is one of the list. -/
theorem mem_cellDrop {l : List Host.Cell} {a : Nat} {c : Host.Cell} (h : c ∈ cellDrop l a) : c ∈ l := by
  induction l with
  | nil => simp [cellDrop] at h
  | cons d rest ih =>
    obtain ⟨b, w⟩ := d
    simp only [cellDrop] at h
    split at h
    · exact List.mem_cons_of_mem _ (ih h)
    · simp only [List.mem_cons] at h ⊢; tauto

/-- `Memory.wf` of a list with a head, as propositions. -/
theorem memory_wf_cons {a : Nat} {v : Byte} {rest : List Host.Cell} :
    Memory.wf ((a, v) :: rest) = true ↔ v ≠ unlistedByte ∧ (∀ c ∈ rest, a < c.1) ∧ Memory.wf rest = true := by
  simp [Memory.wf, and_assoc]

/-- `Shadow.wf` of a list with a head, as propositions. -/
theorem shadow_wf_cons {a : Nat} {v : Byte} {rest : List Host.Cell} :
    Shadow.wf ((a, v) :: rest) = true ↔ (∀ c ∈ rest, a < c.1) ∧ Shadow.wf rest = true := by
  simp [Shadow.wf]

theorem memory_wf_cellPut {l : List Host.Cell} (a : Nat) {v : Byte} (hv : v ≠ unlistedByte)
    (h : Memory.wf l = true) : Memory.wf (cellPut l a v) = true := by
  induction l with
  | nil => simp [cellPut, Memory.wf, hv]
  | cons d rest ih =>
    obtain ⟨b, w⟩ := d
    obtain ⟨hw, hlt, hrest⟩ := memory_wf_cons.1 h
    simp only [cellPut]
    split
    · rename_i hab
      refine memory_wf_cons.2 ⟨hv, fun c hc => ?_, h⟩
      rcases List.mem_cons.1 hc with rfl | hc
      · exact hab
      · exact hab.trans (hlt c hc)
    · split
      · rename_i hab; subst hab
        exact memory_wf_cons.2 ⟨hv, hlt, hrest⟩
      · rename_i hab hne
        refine memory_wf_cons.2 ⟨hw, fun c hc => ?_, ih hrest⟩
        rcases mem_cellPut hc with rfl | hc
        · simp only; omega
        · exact hlt c hc

theorem memory_wf_cellDrop {l : List Host.Cell} (a : Nat) (h : Memory.wf l = true) :
    Memory.wf (cellDrop l a) = true := by
  induction l with
  | nil => simp [cellDrop, Memory.wf]
  | cons d rest ih =>
    obtain ⟨b, w⟩ := d
    obtain ⟨hw, hlt, hrest⟩ := memory_wf_cons.1 h
    simp only [cellDrop]
    split
    · exact ih hrest
    · exact memory_wf_cons.2 ⟨hw, fun c hc => hlt c (mem_cellDrop hc), ih hrest⟩

theorem shadow_wf_cellPut {l : List Host.Cell} (a : Nat) (v : Byte) (h : Shadow.wf l = true) :
    Shadow.wf (cellPut l a v) = true := by
  induction l with
  | nil => simp [cellPut, Shadow.wf]
  | cons d rest ih =>
    obtain ⟨b, w⟩ := d
    obtain ⟨hlt, hrest⟩ := shadow_wf_cons.1 h
    simp only [cellPut]
    split
    · rename_i hab
      refine shadow_wf_cons.2 ⟨fun c hc => ?_, h⟩
      rcases List.mem_cons.1 hc with rfl | hc
      · exact hab
      · exact hab.trans (hlt c hc)
    · split
      · rename_i hab; subst hab
        exact shadow_wf_cons.2 ⟨hlt, hrest⟩
      · rename_i hab hne
        refine shadow_wf_cons.2 ⟨fun c hc => ?_, ih hrest⟩
        rcases mem_cellPut hc with rfl | hc
        · simp only; omega
        · exact hlt c hc

/-! ## Bytes of backing memory -/

/-- Read after write of one byte. -/
@[simp] theorem memByte_memSetByte_same (mem : List Host.Cell) (a : Nat) (v : Byte) :
    memByte (memSetByte mem a v) a = v := by
  unfold memByte memSetByte
  split
  · rename_i h; simp [h]
  · simp

/-- A write of one byte leaves every other byte alone. -/
theorem memByte_memSetByte_other (mem : List Host.Cell) {a x : Nat} (v : Byte) (h : x ≠ a) :
    memByte (memSetByte mem a v) x = memByte mem x := by
  unfold memByte memSetByte
  split
  · rw [cellAt_cellDrop_other _ h]
  · rw [cellAt_cellPut_other _ _ h]

theorem memory_wf_memSetByte {mem : List Host.Cell} (a : Nat) (v : Byte) (h : Memory.wf mem = true) :
    Memory.wf (memSetByte mem a v) = true := by
  unfold memSetByte
  split
  · exact memory_wf_cellDrop a h
  · rename_i hv; exact memory_wf_cellPut a hv h

/-- A cell listed after a byte write was listed before, or is at the written address. -/
theorem mem_memSetByte {mem : List Host.Cell} {a : Nat} {v : Byte} {c : Host.Cell} (h : c ∈ memSetByte mem a v) :
    c.1 = a ∨ c ∈ mem := by
  unfold memSetByte at h
  split at h
  · exact .inr (mem_cellDrop h)
  · rcases mem_cellPut h with rfl | h
    · exact .inl rfl
    · exact .inr h

/-! ## Accesses of several bytes -/

/-- A write of `n` bytes leaves every byte outside them alone. -/
theorem memByte_memWriteBytes_outside {n a x : Nat} (mem : List Host.Cell) (v : Word) (h : x < a ∨ a + n ≤ x) :
    memByte (memWriteBytes mem a v n) x = memByte mem x := by
  induction n generalizing a v with
  | zero => rfl
  | succ n ih =>
    rw [memWriteBytes, memByte_memSetByte_other _ _ (by omega), ih _ (by omega)]

/-- Byte `k` of a write of `n` bytes is bits `8k+7:8k` of the value (20_memory.md R105). -/
theorem memByte_memWriteBytes_inside {n k : Nat} (mem : List Host.Cell) (a : Nat) (v : Word) (h : k < n) :
    memByte (memWriteBytes mem a v n) (a + k) = v.extractLsb' (8 * k) 8 := by
  induction n generalizing a v k with
  | zero => omega
  | succ n ih =>
    rw [memWriteBytes]
    cases k with
    | zero =>
      simp only [Nat.add_zero, memByte_memSetByte_same]
      apply BitVec.eq_of_getLsbD_eq
      intro i hi
      simp [hi]
    | succ k =>
      rw [memByte_memSetByte_other _ _ (by omega), show a + (k + 1) = a + 1 + k by omega, ih _ _ (by omega)]
      apply BitVec.eq_of_getLsbD_eq
      intro i hi
      simp only [BitVec.getLsbD_extractLsb', hi, decide_true, Bool.true_and, BitVec.getLsbD_ushiftRight]
      congr 1
      omega

/-- Bit `8k+i` of a read of `n ≤ 4` bytes is bit `i` of byte `k`; the bits above the last byte are 0
(20_memory.md R105). -/
theorem getLsbD_memReadBytes {n : Nat} (mem : List Host.Cell) (a k i : Nat) (hn : n ≤ 4) (hi : i < 8) :
    (memReadBytes mem a n).getLsbD (8 * k + i) = (decide (k < n) && (memByte mem (a + k)).getLsbD i) := by
  induction n generalizing a k with
  | zero => simp [memReadBytes]
  | succ n ih =>
    rw [memReadBytes, BitVec.getLsbD_or, BitVec.getLsbD_setWidth, BitVec.getLsbD_shiftLeft]
    cases k with
    | zero => simp [hi, show i < 32 by omega]
    | succ k =>
      have hz : (memByte mem a).getLsbD (8 * (k + 1) + i) = false := BitVec.getLsbD_of_ge _ _ (by omega)
      rw [hz, show 8 * (k + 1) + i - 8 = 8 * k + i by omega, ih _ _ (by omega), show a + 1 + k = a + (k + 1) by omega]
      by_cases hk : k < n
      · simp [hk, show 8 * (k + 1) + i < 32 by omega, show ¬8 * (k + 1) + i < 8 by omega]
      · simp [hk]

/-- A read depends on the bytes it covers only. -/
theorem memReadBytes_congr {m m' : List Host.Cell} {a n : Nat} (h : ∀ k, k < n → memByte m (a + k) = memByte m' (a + k)) :
    memReadBytes m a n = memReadBytes m' a n := by
  induction n generalizing a with
  | zero => rfl
  | succ n ih =>
    have h0 := h 0 (by omega)
    rw [Nat.add_zero] at h0
    rw [memReadBytes, memReadBytes, h0, ih fun k hk => ?_]
    have := h (k + 1) (by omega)
    rwa [show a + 1 + k = a + (k + 1) by omega]

theorem memory_wf_memWriteBytes {mem : List Host.Cell} (a : Nat) (v : Word) (n : Nat) (h : Memory.wf mem = true) :
    Memory.wf (memWriteBytes mem a v n) = true := by
  induction n generalizing a v with
  | zero => exact h
  | succ n ih => exact memory_wf_memSetByte _ _ (ih _ _)

theorem shadow_wf_shadowWriteBytes {l : List Host.Cell} (a : Nat) (v : Word) (n : Nat) (h : Shadow.wf l = true) :
    Shadow.wf (shadowWriteBytes l a v n) = true := by
  induction n generalizing a v with
  | zero => exact h
  | succ n ih => exact shadow_wf_cellPut _ _ (ih _ _)

/-- A cell listed after a write of `n` bytes was listed before, or lies in the written range. -/
theorem mem_memWriteBytes {n a : Nat} {mem : List Host.Cell} {v : Word} {c : Host.Cell}
    (h : c ∈ memWriteBytes mem a v n) : (a ≤ c.1 ∧ c.1 < a + n) ∨ c ∈ mem := by
  induction n generalizing a v with
  | zero => exact .inr h
  | succ n ih =>
    rcases mem_memSetByte h with h | h
    · exact .inl ⟨by omega, by omega⟩
    · rcases ih h with h | h
      · exact .inl ⟨by omega, by omega⟩
      · exact .inr h

/-! ## Shadow buffers -/

/-- Read after write of one byte of the shadow buffers. -/
@[simp] theorem shadowAt_cellPut_same (l : List Host.Cell) (a : Nat) (v : Byte) : shadowAt (cellPut l a v) a = v := by
  simp [shadowAt]

/-- A write of one byte of the shadow buffers leaves every other byte alone. -/
theorem shadowAt_cellPut_other (l : List Host.Cell) {a x : Nat} (v : Byte) (h : x ≠ a) :
    shadowAt (cellPut l a v) x = shadowAt l x := by
  simp [shadowAt, cellAt_cellPut_other l v h]

/-- A write of `n` bytes leaves every byte of the shadow buffers outside them alone. -/
theorem shadowAt_shadowWriteBytes_outside {n a x : Nat} (l : List Host.Cell) (v : Word) (h : x < a ∨ a + n ≤ x) :
    shadowAt (shadowWriteBytes l a v n) x = shadowAt l x := by
  induction n generalizing a v with
  | zero => rfl
  | succ n ih => rw [shadowWriteBytes, shadowAt_cellPut_other _ _ (by omega), ih _ (by omega)]

/-- Byte `k` of a write of `n` bytes of the shadow buffers is bits `8k+7:8k` of the value (20_memory.md R111). -/
theorem shadowAt_shadowWriteBytes_inside {n k : Nat} (l : List Host.Cell) (a : Nat) (v : Word) (h : k < n) :
    shadowAt (shadowWriteBytes l a v n) (a + k) = v.extractLsb' (8 * k) 8 := by
  induction n generalizing a v k with
  | zero => omega
  | succ n ih =>
    rw [shadowWriteBytes]
    cases k with
    | zero =>
      simp only [Nat.add_zero, shadowAt_cellPut_same]
      apply BitVec.eq_of_getLsbD_eq
      intro i hi
      simp [hi]
    | succ k =>
      rw [shadowAt_cellPut_other _ _ (by omega), show a + (k + 1) = a + 1 + k by omega, ih _ _ (by omega)]
      apply BitVec.eq_of_getLsbD_eq
      intro i hi
      simp only [BitVec.getLsbD_extractLsb', hi, decide_true, Bool.true_and, BitVec.getLsbD_ushiftRight]
      congr 1
      omega

/-- A cell listed after a write of `n` bytes of the shadow buffers was listed before, or lies in the written range. -/
theorem mem_shadowWriteBytes {n a : Nat} {l : List Host.Cell} {v : Word} {c : Host.Cell}
    (h : c ∈ shadowWriteBytes l a v n) : (a ≤ c.1 ∧ c.1 < a + n) ∨ c ∈ l := by
  induction n generalizing a v with
  | zero => exact .inr h
  | succ n ih =>
    rcases mem_cellPut h with rfl | h
    · exact .inl ⟨Nat.le_refl _, by simp only; omega⟩
    · rcases ih h with h | h
      · exact .inl ⟨by omega, by omega⟩
      · exact .inr h

/-- A region's shadow buffer is `size` bytes (20_memory.md R110). -/
@[simp] theorem length_shadowBuffer (g : Region) (s : State) : (shadowBuffer g s).length = g.size := by
  simp [shadowBuffer]

/-- The byte at `offset` of a region's shadow buffer stands at `base + offset` (20_memory.md R110). -/
theorem getElem_shadowBuffer (g : Region) (s : State) {k : Nat} (h : k < (shadowBuffer g s).length) :
    (shadowBuffer g s)[k] = shadowAt s.shadow (g.base + k) := by
  simp [shadowBuffer]

/-- Read after write of a whole word: the value comes back. -/
theorem memReadBytes_memWriteBytes_word (mem : List Host.Cell) (a : Nat) (v : Word) :
    memReadBytes (memWriteBytes mem a v 4) a 4 = v := by
  apply BitVec.eq_of_getLsbD_eq
  intro j hj
  have h := getLsbD_memReadBytes (memWriteBytes mem a v 4) a (j / 8) (j % 8) (n := 4) (by omega) (by omega)
  rw [show 8 * (j / 8) + j % 8 = j by omega] at h
  rw [h, memByte_memWriteBytes_inside mem a v (by omega), BitVec.getLsbD_extractLsb',
    show 8 * (j / 8) + j % 8 = j by omega]
  simp [show j / 8 < 4 by omega, show j % 8 < 8 by omega]

end Sys2Proof.Machine
end

