-- ==== Sys2Proof/Laws/Ops.lean ====
section
/-! SUPPORT. Laws of the shared operations over registers, the router and exceptions: one lemma per operation that says
all it can do. -/

namespace Sys2Proof.Machine

/-! ## Registers -/

@[simp] theorem readReg_zero (s : State) : readReg s 0#5 = 0#32 := rfl

/-- Reads see the register file only. -/
theorem readReg_congr {s t : State} (h : t.gpr = s.gpr) (r : Reg) : readReg t r = readReg s r := by
  simp [readReg, h]

/-- Read after write of a register: the value, or 0 for r0. -/
@[simp] theorem readReg_writeReg_same (r : Reg) (v : Word) (s : State) :
    readReg (writeReg r v s) r = if r = 0#5 then 0#32 else v := by
  simp [readReg, writeReg]

/-- A register write leaves every other register alone. -/
theorem readReg_writeReg_other {r x : Reg} (v : Word) (s : State) (h : x ≠ r) :
    readReg (writeReg r v s) x = readReg s x := by
  have hne : r.toNat ≠ x.toNat := fun e => h (BitVec.eq_of_toNat_eq e.symm)
  simp [readReg, writeReg, hne]

@[simp] theorem readReg_advance (s : State) (r : Reg) : readReg (advance s) r = readReg s r := rfl
@[simp] theorem readReg_jumpTo (a : Word) (s : State) (r : Reg) : readReg (jumpTo a s) r = readReg s r := rfl
@[simp] theorem readReg_enter (c : Cause) (s : State) (r : Reg) : readReg (enter c s) r = readReg s r := rfl
@[simp] theorem readReg_returnFromException (s : State) (r : Reg) :
    readReg (returnFromException s) r = readReg s r := rfl

/-- Phase D's zeroing of r0's slot changes no register a read can see. -/
@[simp] theorem readReg_zeroR0 (s : State) (r : Reg) : readReg (zeroR0 s) r = readReg s r := by
  unfold readReg zeroR0
  split
  · rfl
  · rename_i h
    have : (0 : Nat) ≠ r.toNat := fun e => h (BitVec.eq_of_toNat_eq e.symm)
    simp [this]

@[simp] theorem readReg_endOfStep (s : State) (r : Reg) : readReg (endOfStep s) r = readReg s r := by
  rw [← readReg_zeroR0 s r]
  exact readReg_congr (by simp [zeroR0]) r

/-! ## The router -/

/-- All a successful read can do: backing memory, unchanged state; or a word of a region, one handler call
(20_memory.md R104, R109). -/
theorem memRead_cases {a : Word} {w : Width} {s t : State} {v : Word} (h : memRead a w s = .ok (v, t)) :
    (inBacking s.platform a.toNat (widthBytes w) = true ∧ v = memReadBytes s.mem a.toNat (widthBytes w) ∧ t = s) ∨
    (inBacking s.platform a.toNat 4 = false ∧ w = .word ∧ ∃ g, regionOf s.platform a.toNat 4 = some g ∧
      v = Config.devRead s.draws g.base (a.toNat - g.base) ∧
      t = { s with shadow := shadowWriteBytes s.shadow a.toNat v 4
                   events := s.events ++ [.read g.base (a.toNat - g.base) v]
                   draws := s.draws + 1 }) := by
  unfold memRead at h
  split at h
  · rename_i hb
    injection h with h; injection h with h1 h2
    exact .inl ⟨hb, h1.symm, h2.symm⟩
  · rename_i hb
    split at h
    · rename_i g hg
      cases w with
      | byte => simp [regionRead] at h
      | half => simp [regionRead] at h
      | word =>
        simp only [regionRead] at h
        injection h with h; injection h with h1 h2
        subst h1
        exact .inr ⟨by simpa [widthBytes] using hb, rfl, g, hg, rfl, h2.symm⟩
    · cases h

/-- All a successful write can do (20_memory.md R104, R111). -/
theorem memWrite_cases {a : Word} {w : Width} {v : Word} {s t : State} (h : memWrite a w v s = .ok t) :
    (inBacking s.platform a.toNat (widthBytes w) = true ∧
      t = { s with mem := memWriteBytes s.mem a.toNat v (widthBytes w) }) ∨
    (inBacking s.platform a.toNat 4 = false ∧ w = .word ∧ ∃ g, regionOf s.platform a.toNat 4 = some g ∧
      t = { s with shadow := shadowWriteBytes s.shadow a.toNat v 4
                   events := s.events ++ [.write g.base (a.toNat - g.base) v] }) := by
  unfold memWrite at h
  split at h
  · rename_i hb
    injection h with h
    exact .inl ⟨hb, h.symm⟩
  · rename_i hb
    split at h
    · rename_i g hg
      cases w with
      | byte => simp [regionWrite] at h
      | half => simp [regionWrite] at h
      | word =>
        simp only [regionWrite] at h
        injection h with h
        exact .inr ⟨by simpa [widthBytes] using hb, rfl, g, hg, h.symm⟩
    · cases h

/-- All a failed read can be: out of bound, or a region access that is not 4 bytes wide (20_memory.md R106, R108). -/
theorem memRead_error {a : Word} {w : Width} {s : State} {f : Fault} (h : memRead a w s = .error f) :
    f = outOfBound a s ∨ (w ≠ .word ∧ f = .mmioWidth a s.pc (widthBytes w)) := by
  unfold memRead at h
  split at h
  · cases h
  · split at h
    · cases w <;> simp only [regionRead] at h <;> first | (cases h; exact .inr ⟨by decide, rfl⟩) | cases h
    · injection h with h; exact .inl h.symm

/-- All a failed write can be (20_memory.md R106, R108). -/
theorem memWrite_error {a : Word} {w : Width} {v : Word} {s : State} {f : Fault} (h : memWrite a w v s = .error f) :
    f = outOfBound a s ∨ (w ≠ .word ∧ f = .mmioWidth a s.pc (widthBytes w)) := by
  unfold memWrite at h
  split at h
  · cases h
  · split at h
    · cases w <;> simp only [regionWrite] at h <;> first | (cases h; exact .inr ⟨by decide, rfl⟩) | cases h
    · injection h with h; exact .inl h.symm

/-- A read in backing memory (20_memory.md R104). -/
theorem memRead_of_inBacking {a : Word} {w : Width} {s : State}
    (h : inBacking s.platform a.toNat (widthBytes w) = true) :
    memRead a w s = .ok (memReadBytes s.mem a.toNat (widthBytes w), s) := by
  simp [memRead, h]

/-- A write in backing memory (20_memory.md R104). -/
theorem memWrite_of_inBacking {a : Word} {w : Width} {s : State} (v : Word)
    (h : inBacking s.platform a.toNat (widthBytes w) = true) :
    memWrite a w v s = .ok { s with mem := memWriteBytes s.mem a.toNat v (widthBytes w) } := by
  simp [memWrite, h]

/-- What a region read leaves in the shadow buffer is the word it returned (20_memory.md R109). -/
theorem regionRead_shadow {g : Region} {a v : Word} {s t : State} (h : regionRead g a .word s = .ok (v, t)) :
    v = Config.devRead s.draws g.base (a.toNat - g.base) ∧ t.shadow = shadowWriteBytes s.shadow a.toNat v 4 := by
  injection h with h; injection h with h1 h2
  subst h1; subst h2
  exact ⟨rfl, rfl⟩

/-! ## Exceptions -/

/-- All `unlessRaised` can do: the exception, or the effect (60_exceptions.md R411). -/
theorem unlessRaised_cases (c : Option Cause) (s : State) (k : Result) :
    (∃ e, c = some e ∧ unlessRaised c s k = .next (enter e s)) ∨ (c = none ∧ unlessRaised c s k = k) := by
  cases c with
  | none => exact .inr ⟨rfl, rfl⟩
  | some e => exact .inl ⟨e, rfl, rfl⟩

@[simp] theorem unlessRaised_some (e : Cause) (s : State) (k : Result) :
    unlessRaised (some e) s k = .next (enter e s) := rfl
@[simp] theorem unlessRaised_none (s : State) (k : Result) : unlessRaised none s k = k := rfl

@[simp] theorem checkPrivilege_of_plv0 {s : State} (h : crmdPlv s = 0#2) : checkPrivilege s = none := by
  simp [checkPrivilege, h]
@[simp] theorem checkPrivilege_of_unprivileged {s : State} (h : crmdPlv s ≠ 0#2) :
    checkPrivilege s = some causeIpe := by
  simp [checkPrivilege, h]
@[simp] theorem checkAlignment_of_aligned {a : Word} {w : Width} (h : isAligned a w = true) :
    checkAlignment a w = none := by
  simp [checkAlignment, h]
@[simp] theorem checkAlignment_of_misaligned {a : Word} {w : Width} (h : isAligned a w = false) :
    checkAlignment a w = some (causeAle a) := by
  simp [checkAlignment, h]

/-- BADV after an entry: the given value for ADEF, ADEM and ALE, else unchanged (60_exceptions.md R421). -/
theorem enter_badv (c : Cause) (s : State) :
    (enter c s).csr.badv = if ecode c.name = 0x8#6 ∨ ecode c.name = 0x9#6 then c.badv else s.csr.badv := rfl

/-- The CSRs an entry does not name are untouched (60_exceptions.md R412). -/
theorem csrStored_enter_other {c : Cause} {s : State} {d : Csr} (h1 : d ≠ .prmd) (h2 : d ≠ .crmd) (h3 : d ≠ .estat)
    (h4 : d ≠ .era) (h5 : d ≠ .badv) : csrStored (enter c s).csr d = csrStored s.csr d := by
  cases d <;> first | rfl | contradiction

end Sys2Proof.Machine
end

