-- ==== Sys2Proof/Laws/Exec.lean ====
section
/-! SUPPORT. All an instruction can do: if `exec i s` answers a next state, the state has one of the shapes of
`ExecShape`. Invariants are proved from the shapes, so that no proof unfolds the meanings again. -/

namespace Sys2Proof.Machine

/-- The shapes of a next state of `exec i s`. `g` is the new register file and `p` the new pc. -/
inductive ExecShape (i : Instr) (s : State) : State → Prop where
  /-- A synchronous exception taken. -/
  | entered {c : Cause} (h : raises i s = some c) : ExecShape i s (enter c s)
  /-- Registers and pc only: integer and control instructions, counter reads, instructions without effect. -/
  | regs (g : Vector Word 32) (p : Word) : ExecShape i s { s with gpr := g, pc := p }
  /-- A load: the router's read, then registers, pc and LLbit. -/
  | loaded {a : Word} {w : Width} {v : Word} {u : State} (h : memRead a w s = .ok (v, u)) (g : Vector Word 32)
      (p : Word) (l : Bool) : ExecShape i s { u with gpr := g, pc := p, llbit := l }
  /-- A store: the router's write, then registers, pc and LLbit. -/
  | stored {a : Word} {w : Width} {v : Word} {u : State} (h : memWrite a w v s = .ok u) (g : Vector Word 32)
      (p : Word) (l : Bool) : ExecShape i s { u with gpr := g, pc := p, llbit := l }
  /-- A store-conditional that stores nothing. -/
  | notStored (g : Vector Word 32) (p : Word) : ExecShape i s { s with gpr := g, pc := p, llbit := false }
  /-- A CSR read, at PLV0; an unimplemented number draws a free value. -/
  | csrRead (h : crmdPlv s = 0#2) (g : Vector Word 32) (p : Word) (n : Nat) (hn : s.draws ≤ n) :
      ExecShape i s { s with gpr := g, pc := p, draws := n }
  /-- A CSR write, at PLV0, after the read of the old value. -/
  | csrWritten (h : crmdPlv s = 0#2) (n : BitVec 14) (v : Word) (d : Nat) (hd : s.draws ≤ d) (g : Vector Word 32) (p : Word) :
      ExecShape i s { csrWrite n v { s with draws := d } with gpr := g, pc := p }
  /-- ERTN at PLV0. -/
  | returned (h : crmdPlv s = 0#2) : ExecShape i s (returnFromException s)
  /-- IDLE at PLV0. -/
  | idled (h : crmdPlv s = 0#2) (p : Word) : ExecShape i s { s with idle := true, pc := p }
  /-- The halting BREAK. -/
  | halted (h : s.platform.breakIsHalt = true) (code p : Word) :
      ExecShape i s { s with status := .halted code, pc := p }

theorem execShape_loadInto {i : Instr} {s t : State} {rd : Reg} {a : Word} {w : Width} {e : Word → Word}
    (h : loadInto rd a w e s = .next t) : ExecShape i s t := by
  unfold loadInto at h
  split at h
  · rename_i v u hm
    injection h with h
    subst h
    have hl : u.llbit = s.llbit := by
      rcases memRead_cases hm with ⟨_, _, rfl⟩ | ⟨_, _, _, _, _, rfl⟩ <;> rfl
    exact .loaded hm (u.gpr.set rd.toNat (e v) rd.isLt) (snpc u) u.llbit
  · cases h

theorem execShape_storeFrom {i : Instr} {s t : State} {a : Word} {w : Width} {v : Word}
    (h : storeFrom a w v s = .next t) : ExecShape i s t := by
  unfold storeFrom at h
  split at h
  · rename_i u hm
    injection h with h
    subst h
    exact .stored hm u.gpr (snpc u) u.llbit
  · cases h

theorem execShape_loadLinked {i : Instr} {s t : State} {rd : Reg} {a : Word} (h : loadLinked rd a s = .next t) :
    ExecShape i s t := by
  unfold loadLinked at h
  split at h
  · rename_i v u hm
    injection h with h
    subst h
    exact .loaded hm (u.gpr.set rd.toNat v rd.isLt) (snpc u) true
  · cases h

theorem execShape_storeConditional {i : Instr} {s t : State} {rd : Reg} {a : Word}
    (h : storeConditional rd a s = .next t) : ExecShape i s t := by
  unfold storeConditional at h
  split at h
  · split at h
    · rename_i u hm
      injection h with h
      subst h
      exact .stored hm (u.gpr.set rd.toNat 1#32 rd.isLt) (snpc u) false
    · cases h
  · injection h with h
    subst h
    exact .notStored _ _

/-- An instruction with a shared check: the exception, or a shape of its effect. -/
theorem execShape_unlessRaised {i : Instr} {s t : State} {c : Option Cause} {k : Result} (hc : raises i s = c)
    (hk : c = none → k = .next t → ExecShape i s t) (h : unlessRaised c s k = .next t) : ExecShape i s t := by
  rcases unlessRaised_cases c s k with ⟨e, he, hu⟩ | ⟨hn, hu⟩
  · rw [hu] at h
    injection h with h
    subst h
    exact .entered (hc.trans he)
  · exact hk hn (hu ▸ h)

/-- The level of a privileged instruction that raises nothing. -/
theorem plv0_of_checkPrivilege {s : State} (h : checkPrivilege s = none) : crmdPlv s = 0#2 := by
  by_contra hp
  rw [checkPrivilege_of_unprivileged hp] at h
  cases h

theorem execShape_privileged {i : Instr} {s t : State} {k : Result} (hc : raises i s = checkPrivilege s)
    (hk : crmdPlv s = 0#2 → k = .next t → ExecShape i s t) (h : privileged s k = .next t) : ExecShape i s t :=
  execShape_unlessRaised hc (fun hn => hk (plv0_of_checkPrivilege hn)) h

theorem execShape_csrSwap {i : Instr} {s t : State} {rd : Reg} {n : BitVec 14} {f : Word → Word}
    (hp : crmdPlv s = 0#2) (h : csrSwap rd n f s = .next t) : ExecShape i s t := by
  unfold csrSwap at h
  rcases csrRead_cases n s with ⟨c, _, hr⟩ | ⟨_, hr⟩
  · rw [hr] at h
    injection h with h
    subst h
    exact .csrWritten hp n (f (csrValue c s)) s.draws (Nat.le_refl _)
      ((csrWrite n (f (csrValue c s)) s).gpr.set rd.toNat (csrValue c s) rd.isLt) _
  · rw [hr] at h
    injection h with h
    subst h
    exact .csrWritten hp n _ (s.draws + 1) (Nat.le_succ _) ((csrWrite n _ _).gpr.set rd.toNat _ rd.isLt) _

/-- All an instruction can do. -/
theorem exec_shape {i : Instr} {s t : State} (h : exec i s = .next t) : ExecShape i s t := by
  cases i <;> simp only [exec] at h
  case brk code =>
    refine execShape_unlessRaised (c := checkBreak s) rfl (fun hn hk => ?_) h
    injection hk with hk
    subst hk
    refine .halted ?_ _ _
    unfold checkBreak at hn
    by_contra hb
    simp [hb] at hn
  case syscall code => injection h with h; subst h; exact .entered rfl
  case invalid word => injection h with h; subst h; exact .entered rfl
  case csrrd rd csr =>
    refine execShape_privileged rfl (fun hp hk => ?_) h
    rcases csrRead_cases csr s with ⟨c, _, hr⟩ | ⟨_, hr⟩
    · rw [hr] at hk; injection hk with hk; subst hk; exact .regs _ _
    · rw [hr] at hk; injection hk with hk; subst hk; exact .csrRead hp _ _ (s.draws + 1) (Nat.le_succ _)
  case csrwr rd csr => exact execShape_privileged rfl (fun hp hk => execShape_csrSwap hp hk) h
  case csrxchg rd rj csr => exact execShape_privileged rfl (fun hp hk => execShape_csrSwap hp hk) h
  case cacop code rj si12 =>
    refine execShape_privileged rfl (fun _ hk => ?_) h
    injection hk with hk; subst hk; exact .regs _ _
  case tlbsrch => exact execShape_privileged rfl (fun _ hk => by cases hk) h
  case tlbrd => exact execShape_privileged rfl (fun _ hk => by cases hk) h
  case tlbwr => exact execShape_privileged rfl (fun _ hk => by cases hk) h
  case tlbfill => exact execShape_privileged rfl (fun _ hk => by cases hk) h
  case ertn =>
    refine execShape_privileged rfl (fun hp hk => ?_) h
    injection hk with hk; subst hk; exact .returned hp
  case idle code =>
    refine execShape_privileged rfl (fun hp hk => ?_) h
    injection hk with hk; subst hk; exact .idled hp _
  case invtlb op rj rk => exact execShape_unlessRaised (c := checkInvtlb op s) rfl (fun _ hk => by cases hk) h
  case ldB rd rj si12 => exact execShape_loadInto h
  case ldBu rd rj si12 => exact execShape_loadInto h
  case ldH rd rj si12 => exact execShape_unlessRaised rfl (fun _ hk => execShape_loadInto hk) h
  case ldHu rd rj si12 => exact execShape_unlessRaised rfl (fun _ hk => execShape_loadInto hk) h
  case ldW rd rj si12 => exact execShape_unlessRaised rfl (fun _ hk => execShape_loadInto hk) h
  case stB rd rj si12 => exact execShape_storeFrom h
  case stH rd rj si12 => exact execShape_unlessRaised rfl (fun _ hk => execShape_storeFrom hk) h
  case stW rd rj si12 => exact execShape_unlessRaised rfl (fun _ hk => execShape_storeFrom hk) h
  case llW rd rj si14 => exact execShape_unlessRaised rfl (fun _ hk => execShape_loadLinked hk) h
  case scW rd rj si14 => exact execShape_unlessRaised rfl (fun _ hk => execShape_storeConditional hk) h
  case beq => injection h with h; subst h; split <;> exact .regs _ _
  case bne => injection h with h; subst h; split <;> exact .regs _ _
  case blt => injection h with h; subst h; split <;> exact .regs _ _
  case bge => injection h with h; subst h; split <;> exact .regs _ _
  case bltu => injection h with h; subst h; split <;> exact .regs _ _
  case bgeu => injection h with h; subst h; split <;> exact .regs _ _
  all_goals (injection h with h; subst h; exact .regs _ _)

/-- An instruction that raises takes the exception, and only that (60_exceptions.md R411). -/
theorem exec_of_raises {i : Instr} {s : State} {c : Cause} (h : raises i s = some c) : exec i s = .next (enter c s) := by
  cases i <;> simp only [raises] at h <;> first
    | (cases h <;> rfl)
    | simp [exec, execBrk, execCsrrd, execCsrwr, execCsrxchg, execCacop, execTlbsrch, execTlbrd, execTlbwr,
        execTlbfill, execErtn, execIdle, privileged, execInvtlb, execLdH, execLdHu, execLdW, execStH, execStW, execLlW,
        execScW, h]

/-- An effect that is neither a fault nor a refusal, behind a shared check, is neither. -/
theorem unlessRaised_eq_stop {c : Option Cause} {s : State} {k r : Result} (hr : ∀ t, r ≠ .next t)
    (h : unlessRaised c s k = r) : c = none ∧ k = r := by
  cases c with
  | none => exact ⟨rfl, h⟩
  | some e => exact absurd h.symm (hr _)

/-- The faults of the memory effects are the router's (20_memory.md R106, R108). -/
theorem loadInto_stop {rd : Reg} {a : Word} {w : Width} {e : Word → Word} {s : State} {r : Result}
    (hr : ∀ t, r ≠ .next t) (h : loadInto rd a w e s = r) : ∃ f, r = .fault f ∧ memRead a w s = .error f := by
  unfold loadInto at h
  split at h
  · exact absurd h.symm (hr _)
  · rename_i f hm; exact ⟨f, h.symm, hm⟩

theorem loadLinked_stop {rd : Reg} {a : Word} {s : State} {r : Result}
    (hr : ∀ t, r ≠ .next t) (h : loadLinked rd a s = r) : ∃ f, r = .fault f ∧ memRead a .word s = .error f := by
  unfold loadLinked at h
  split at h
  · exact absurd h.symm (hr _)
  · rename_i f hm; exact ⟨f, h.symm, hm⟩

theorem storeFrom_stop {a : Word} {w : Width} {v : Word} {s : State} {r : Result}
    (hr : ∀ t, r ≠ .next t) (h : storeFrom a w v s = r) : ∃ f, r = .fault f ∧ memWrite a w v s = .error f := by
  unfold storeFrom at h
  split at h
  · exact absurd h.symm (hr _)
  · rename_i f hm; exact ⟨f, h.symm, hm⟩

theorem storeConditional_stop {rd : Reg} {a : Word} {s : State} {r : Result} (hr : ∀ t, r ≠ .next t)
    (h : storeConditional rd a s = r) : ∃ f, r = .fault f ∧ memWrite a .word (readReg s rd) s = .error f := by
  unfold storeConditional at h
  split at h
  · split at h
    · exact absurd h.symm (hr _)
    · rename_i f hm; exact ⟨f, h.symm, hm⟩
  · exact absurd h.symm (hr _)

/-- All the ways an instruction stops: a TLB instruction at PLV0 is refused, and an access faults in the router. -/
theorem exec_stop {i : Instr} {s : State} {r : Result} (hr : ∀ t, r ≠ .next t) (h : exec i s = r) :
    (r = .refused .tlbInstruction ∧ crmdPlv s = 0#2 ∧ isTlb i) ∨
      ∃ a w f, r = .fault f ∧ (memRead a w s = .error f ∨ ∃ v, memWrite a w v s = .error f) := by
  have hl {rd a w e} (h : loadInto rd a w e s = r) :
      ∃ a w f, r = .fault f ∧ (memRead a w s = .error f ∨ ∃ v, memWrite a w v s = .error f) :=
    have ⟨f, h1, h2⟩ := loadInto_stop hr h; ⟨a, w, f, h1, .inl h2⟩
  have hll {rd a} (h : loadLinked rd a s = r) :
      ∃ a w f, r = .fault f ∧ (memRead a w s = .error f ∨ ∃ v, memWrite a w v s = .error f) :=
    have ⟨f, h1, h2⟩ := loadLinked_stop hr h; ⟨a, .word, f, h1, .inl h2⟩
  have hs {a w v} (h : storeFrom a w v s = r) :
      ∃ a w f, r = .fault f ∧ (memRead a w s = .error f ∨ ∃ v, memWrite a w v s = .error f) :=
    have ⟨f, h1, h2⟩ := storeFrom_stop hr h; ⟨a, w, f, h1, .inr ⟨v, h2⟩⟩
  have hsc {rd a} (h : storeConditional rd a s = r) :
      ∃ a w f, r = .fault f ∧ (memRead a w s = .error f ∨ ∃ v, memWrite a w v s = .error f) :=
    have ⟨f, h1, h2⟩ := storeConditional_stop hr h; ⟨a, .word, f, h1, .inr ⟨_, h2⟩⟩
  have ht (h : privileged s (.refused .tlbInstruction) = r) : r = .refused .tlbInstruction ∧ crmdPlv s = 0#2 :=
    have ⟨h1, h2⟩ := unlessRaised_eq_stop hr h; ⟨h2.symm, plv0_of_checkPrivilege h1⟩
  have hn {c : Option Cause} {t} (h : unlessRaised c s (.next t) = r) : False :=
    have ⟨_, h2⟩ := unlessRaised_eq_stop hr h; hr _ h2.symm
  cases i <;> simp only [exec] at h
  case tlbsrch => exact .inl ⟨(ht h).1, (ht h).2, .inl rfl⟩
  case tlbrd => exact .inl ⟨(ht h).1, (ht h).2, .inr (.inl rfl)⟩
  case tlbwr => exact .inl ⟨(ht h).1, (ht h).2, .inr (.inr (.inl rfl))⟩
  case tlbfill => exact .inl ⟨(ht h).1, (ht h).2, .inr (.inr (.inr (.inl rfl)))⟩
  case invtlb op rj rk =>
    obtain ⟨h1, h2⟩ := unlessRaised_eq_stop hr h
    unfold checkInvtlb at h1
    split at h1
    · cases h1
    · rename_i hop
      have : op.toNat ≤ 6 := by simpa [BitVec.lt_def] using hop
      exact .inl ⟨h2.symm, plv0_of_checkPrivilege h1, .inr (.inr (.inr (.inr ⟨op, rj, rk, rfl, this⟩)))⟩
  case brk => exact (hn h).elim
  case csrrd => exact (hn h).elim
  case csrwr => exact (hn h).elim
  case csrxchg => exact (hn h).elim
  case cacop => exact (hn h).elim
  case ertn => exact (hn h).elim
  case idle => exact (hn h).elim
  case ldB => exact .inr (hl h)
  case ldBu => exact .inr (hl h)
  case ldH => exact .inr (hl (unlessRaised_eq_stop hr h).2)
  case ldHu => exact .inr (hl (unlessRaised_eq_stop hr h).2)
  case ldW => exact .inr (hl (unlessRaised_eq_stop hr h).2)
  case stB => exact .inr (hs h)
  case stH => exact .inr (hs (unlessRaised_eq_stop hr h).2)
  case stW => exact .inr (hs (unlessRaised_eq_stop hr h).2)
  case llW => exact .inr (hll (unlessRaised_eq_stop hr h).2)
  case scW => exact .inr (hsc (unlessRaised_eq_stop hr h).2)
  all_goals exact absurd h.symm (hr _)

end Sys2Proof.Machine
end

