-- ==== Sys2Proof/Laws/Operands.lean ====
section
/-! SUPPORT. The operand forms as integers: the scaled displacements of 30_encoding.md R153 as four times the field, an
alignment as a remainder, a range in backing memory as inequalities, a read of backing memory as a little-endian sum; and
what the router answers outside backing memory. -/

namespace Sys2Proof.Machine

/-- A field with two zero bits appended, sign-extended, is four times the field. -/
theorem signExtend_append_two_zeros {n : Nat} (v : BitVec n) (h : n + 2 ≤ 32) :
    (v ++ 0#2).signExtend 32 = BitVec.ofInt 32 (v.toInt * 4) := by
  apply BitVec.eq_of_toInt_eq
  rw [BitVec.toInt_signExtend_of_le h, BitVec.toInt_ofInt]
  have hn : (v ++ 0#2).toNat = v.toNat * 4 := by rw [BitVec.toNat_append]; simp [Nat.shiftLeft_eq]
  have hv := v.isLt
  have h30 : 2 ^ n ≤ 2 ^ 30 := Nat.pow_le_pow_right (by omega) (by omega)
  have hi : (v ++ 0#2).toInt = v.toInt * 4 := by
    rw [BitVec.toInt_eq_toNat_cond, BitVec.toInt_eq_toNat_cond, hn, Nat.pow_add]
    generalize 2 ^ n = m at *
    split_ifs <;> omega
  have hb : -(2 ^ 29 : Int) ≤ v.toInt ∧ v.toInt < 2 ^ 29 := by
    rw [BitVec.toInt_eq_toNat_cond]
    generalize 2 ^ n = m at *
    split_ifs <;> omega
  rw [hi, Int.bmod_eq_of_le] <;> omega

theorem immSi14s_eq (si14 : BitVec 14) : immSi14s si14 = BitVec.ofInt 32 (si14.toInt * 4) :=
  signExtend_append_two_zeros si14 (by omega)
theorem immOffs16_eq (offs16 : BitVec 16) : immOffs16 offs16 = BitVec.ofInt 32 (offs16.toInt * 4) :=
  signExtend_append_two_zeros offs16 (by omega)
theorem immOffs26_eq (offs26 : BitVec 26) : immOffs26 offs26 = BitVec.ofInt 32 (offs26.toInt * 4) :=
  signExtend_append_two_zeros offs26 (by omega)

/-- A half-word address is aligned when it is even (20_memory.md R115). -/
theorem isAligned_half (a : Word) : isAligned a .half = true ↔ a.toNat % 2 = 0 := by
  simp only [isAligned, beq_iff_eq, ← BitVec.toNat_inj, BitVec.extractLsb'_toNat]
  simp

/-- A word address is aligned when it is a multiple of 4 (20_memory.md R115). -/
theorem isAligned_word (a : Word) : isAligned a .word = true ↔ a.toNat % 4 = 0 := by
  simp only [isAligned, beq_iff_eq, ← BitVec.toNat_inj, BitVec.extractLsb'_toNat]
  simp

/-- A range of at least one byte in backing memory, as inequalities (20_memory.md R100, R107). -/
theorem inBacking_iff {s : State} {a : Word} {n : Nat} (h : 0 < n) :
    inBacking s.platform a.toNat n = true ↔ insideBacking s a n := by
  simp only [inBacking, insideBacking, Bool.and_eq_true, decide_eq_true_eq]
  omega

/-- Up to four bytes of backing memory read as their little-endian sum (20_memory.md R105, R113). -/
theorem toNat_memReadBytes (s : State) (a : Nat) {n : Nat} (h : n ≤ 4) :
    (memReadBytes s.mem a n).toNat = littleEndian s a n ∧ littleEndian s a n < 256 ^ n := by
  induction n generalizing a with
  | zero => simp [memReadBytes, littleEndian]
  | succ n ih =>
    obtain ⟨h1, h2⟩ := ih (a + 1) (by omega)
    have hb := (memByte s.mem a).isLt
    have hp : 256 ^ (n + 1) ≤ 256 ^ 4 := Nat.pow_le_pow_right (by omega) h
    have hlt : littleEndian s a (n + 1) < 256 ^ (n + 1) := by rw [littleEndian, Nat.pow_succ]; omega
    refine ⟨?_, hlt⟩
    rw [littleEndian] at hlt ⊢
    rw [memReadBytes, BitVec.toNat_or, BitVec.toNat_setWidth, BitVec.toNat_shiftLeft, h1,
      Nat.mod_eq_of_lt (by omega), Nat.mod_eq_of_lt (by rw [Nat.shiftLeft_eq]; omega), Nat.or_comm,
      ← Nat.shiftLeft_add_eq_or_of_lt hb, Nat.shiftLeft_eq]
    omega

/-- A word written to the shadow buffers (20_memory.md R111). -/
theorem shadowStored_shadowWriteBytes (l : List Host.Cell) (a v : Word) :
    shadowStored a v l (shadowWriteBytes l a.toNat v 4) :=
  ⟨fun _ hk => shadowAt_shadowWriteBytes_inside l _ v hk, fun _ hx => shadowAt_shadowWriteBytes_outside l v hx⟩

/-- The region that holds a range is in the table, and holds the whole range (20_memory.md R104, R107). -/
theorem regionOf_some {p : Platform} {a n : Nat} {g : Region} (h : regionOf p a n = some g) :
    g ∈ p.regions ∧ g.base ≤ a ∧ a + n - 1 < g.base + g.size := by
  refine ⟨List.mem_of_find?_eq_some h, ?_⟩
  simpa using List.find?_some h

/-- The CSR numbers are those of 10_state.md R42. -/
@[simp] theorem specNumber_eq (c : Csr) : specNumber c = csrNumber c := by cases c <;> rfl
/-- The writable bits are those of 10_state.md R49. -/
@[simp] theorem specWmask_eq (c : Csr) : specWmask c = csrWmask c := by cases c <;> rfl
/-- The stored bits are the writable bits and the maintained ones (10_state.md R43, R49). -/
@[simp] theorem specStoredMask_eq (c : Csr) : specStoredMask c = csrStoredMask c := by cases c <;> rfl

theorem widthBytes_pos (w : Width) : 0 < widthBytes w := by cases w <;> decide

/-- An access in no single target is out of bound (20_memory.md R106). -/
theorem router_of_insideNothing {s : State} {a : Word} {w : Width} (h : insideNothing s a (widthBytes w)) :
    memRead a w s = .error (outOfBoundAt a s) ∧ ∀ v, memWrite a w v s = .error (outOfBoundAt a s) := by
  have hb : inBacking s.platform a.toNat (widthBytes w) = false := by
    simpa using mt (inBacking_iff (widthBytes_pos w)).1 h.1
  have hr : regionOf s.platform a.toNat (widthBytes w) = none := by
    refine List.find?_eq_none.2 fun g hg => ?_
    have := h.2 g hg
    have := widthBytes_pos w
    simp only [Bool.and_eq_true, decide_eq_true_eq]
    omega
  exact ⟨by simp [memRead, hb, hr, outOfBound, outOfBoundAt],
    fun v => by simp [memWrite, hb, hr, outOfBound, outOfBoundAt]⟩

/-- A byte or half-word access to a region is refused by its width (20_memory.md R108). -/
theorem router_of_narrow_region {s : State} {a : Word} {w : Width} {g : Region} (hw : w ≠ .word)
    (h : ¬insideBacking s a (widthBytes w)) (hg : regionOf s.platform a.toNat (widthBytes w) = some g) :
    memRead a w s = .error (.mmioWidth a s.pc (widthBytes w)) ∧
      ∀ v, memWrite a w v s = .error (.mmioWidth a s.pc (widthBytes w)) := by
  have hb : inBacking s.platform a.toNat (widthBytes w) = false := by
    simpa using mt (inBacking_iff (widthBytes_pos w)).1 h
  refine ⟨?_, fun v => ?_⟩
  · rw [memRead, hb, hg]
    cases w <;> first | rfl | exact absurd rfl hw
  · rw [memWrite, hb, hg]
    cases w <;> first | rfl | exact absurd rfl hw

/-- A word access to a region: the free word, or the write, with one handler call (20_memory.md R109, R111). -/
theorem router_of_word_region {s : State} {a : Word} {g : Region} (h : ¬insideBacking s a 4)
    (hg : regionOf s.platform a.toNat 4 = some g) :
    memRead a .word s = regionRead g a .word s ∧ ∀ v, memWrite a .word v s = regionWrite g a .word v s := by
  have hb : inBacking s.platform a.toNat 4 = false := by simpa using mt (inBacking_iff (by omega)).1 h
  exact ⟨by simp [memRead, widthBytes, hb, hg], fun v => by simp [memWrite, widthBytes, hb, hg]⟩

end Sys2Proof.Machine
end

