-- ==== Sys2Proof/Laws/PerInstr.lean ====
section
/-! SUPPORT. The per-instruction family `EncodeFixedBits`: the word an instruction encodes to carries the bits its row of
the catalog fixes (30_encoding.md R160, R170), one lemma per constructor. -/

namespace Sys2Proof.Laws

/-- The pattern and mask of an instruction's row (30_encoding.md R170). -/
def rowBits : Instr → Word × Word
  | .rdcntvlW _ => (0x00006000#32, 0xFFFFFFE0#32)
  | .rdcntidW _ => (0x00006000#32, 0xFFFFFC1F#32)
  | .rdcntvhW _ => (0x00006400#32, 0xFFFFFFE0#32)
  | .addW _ _ _ => (0x00100000#32, 0xFFFF8000#32)
  | .subW _ _ _ => (0x00110000#32, 0xFFFF8000#32)
  | .slt _ _ _ => (0x00120000#32, 0xFFFF8000#32)
  | .sltu _ _ _ => (0x00128000#32, 0xFFFF8000#32)
  | .nor _ _ _ => (0x00140000#32, 0xFFFF8000#32)
  | .and _ _ _ => (0x00148000#32, 0xFFFF8000#32)
  | .or _ _ _ => (0x00150000#32, 0xFFFF8000#32)
  | .xor _ _ _ => (0x00158000#32, 0xFFFF8000#32)
  | .sllW _ _ _ => (0x00170000#32, 0xFFFF8000#32)
  | .srlW _ _ _ => (0x00178000#32, 0xFFFF8000#32)
  | .sraW _ _ _ => (0x00180000#32, 0xFFFF8000#32)
  | .mulW _ _ _ => (0x001C0000#32, 0xFFFF8000#32)
  | .mulhW _ _ _ => (0x001C8000#32, 0xFFFF8000#32)
  | .mulhWu _ _ _ => (0x001D0000#32, 0xFFFF8000#32)
  | .divW _ _ _ => (0x00200000#32, 0xFFFF8000#32)
  | .modW _ _ _ => (0x00208000#32, 0xFFFF8000#32)
  | .divWu _ _ _ => (0x00210000#32, 0xFFFF8000#32)
  | .modWu _ _ _ => (0x00218000#32, 0xFFFF8000#32)
  | .brk _ => (0x002A0000#32, 0xFFFF8000#32)
  | .syscall _ => (0x002B0000#32, 0xFFFF8000#32)
  | .slliW _ _ _ => (0x00408000#32, 0xFFFF8000#32)
  | .srliW _ _ _ => (0x00448000#32, 0xFFFF8000#32)
  | .sraiW _ _ _ => (0x00488000#32, 0xFFFF8000#32)
  | .slti _ _ _ => (0x02000000#32, 0xFFC00000#32)
  | .sltui _ _ _ => (0x02400000#32, 0xFFC00000#32)
  | .addiW _ _ _ => (0x02800000#32, 0xFFC00000#32)
  | .andi _ _ _ => (0x03400000#32, 0xFFC00000#32)
  | .ori _ _ _ => (0x03800000#32, 0xFFC00000#32)
  | .xori _ _ _ => (0x03C00000#32, 0xFFC00000#32)
  | .csrrd _ _ => (0x04000000#32, 0xFF0003E0#32)
  | .csrwr _ _ => (0x04000020#32, 0xFF0003E0#32)
  | .csrxchg _ _ _ => (0x04000000#32, 0xFF000000#32)
  | .cacop _ _ _ => (0x06000000#32, 0xFFC00000#32)
  | .tlbsrch => (0x06482800#32, 0xFFFFFFFF#32)
  | .tlbrd => (0x06482C00#32, 0xFFFFFFFF#32)
  | .tlbwr => (0x06483000#32, 0xFFFFFFFF#32)
  | .tlbfill => (0x06483400#32, 0xFFFFFFFF#32)
  | .ertn => (0x06483800#32, 0xFFFFFFFF#32)
  | .idle _ => (0x06488000#32, 0xFFFF8000#32)
  | .invtlb _ _ _ => (0x06498000#32, 0xFFFF8000#32)
  | .lu12iW _ _ => (0x14000000#32, 0xFE000000#32)
  | .pcaddu12i _ _ => (0x1C000000#32, 0xFE000000#32)
  | .llW _ _ _ => (0x20000000#32, 0xFF000000#32)
  | .scW _ _ _ => (0x21000000#32, 0xFF000000#32)
  | .ldB _ _ _ => (0x28000000#32, 0xFFC00000#32)
  | .ldH _ _ _ => (0x28400000#32, 0xFFC00000#32)
  | .ldW _ _ _ => (0x28800000#32, 0xFFC00000#32)
  | .stB _ _ _ => (0x29000000#32, 0xFFC00000#32)
  | .stH _ _ _ => (0x29400000#32, 0xFFC00000#32)
  | .stW _ _ _ => (0x29800000#32, 0xFFC00000#32)
  | .ldBu _ _ _ => (0x2A000000#32, 0xFFC00000#32)
  | .ldHu _ _ _ => (0x2A400000#32, 0xFFC00000#32)
  | .preld _ _ _ => (0x2AC00000#32, 0xFFC00000#32)
  | .dbar _ => (0x38720000#32, 0xFFFF8000#32)
  | .ibar _ => (0x38728000#32, 0xFFFF8000#32)
  | .jirl _ _ _ => (0x4C000000#32, 0xFC000000#32)
  | .b _ => (0x50000000#32, 0xFC000000#32)
  | .bl _ => (0x54000000#32, 0xFC000000#32)
  | .beq _ _ _ => (0x58000000#32, 0xFC000000#32)
  | .bne _ _ _ => (0x5C000000#32, 0xFC000000#32)
  | .blt _ _ _ => (0x60000000#32, 0xFC000000#32)
  | .bge _ _ _ => (0x64000000#32, 0xFC000000#32)
  | .bltu _ _ _ => (0x68000000#32, 0xFC000000#32)
  | .bgeu _ _ _ => (0x6C000000#32, 0xFC000000#32)
  | .invalid _ => (0x00000000#32, 0x00000000#32)

/-- The encoded word, masked, is the row's pattern. -/
def EncodeFixedBits.Statement (i : Instr) : Prop := encodeWord i &&& (rowBits i).2 = (rowBits i).1

theorem EncodeFixedBits.rdcntvlW (rd : Reg) : EncodeFixedBits.Statement (.rdcntvlW rd) := enc2R_fixed_rd (by decide) (by decide) rd
theorem EncodeFixedBits.rdcntidW (rj : Reg) : EncodeFixedBits.Statement (.rdcntidW rj) := enc2R_fixed_rj (by decide) (by decide) rj
theorem EncodeFixedBits.rdcntvhW (rd : Reg) : EncodeFixedBits.Statement (.rdcntvhW rd) := enc2R_fixed_rd (by decide) (by decide) rd
theorem EncodeFixedBits.addW (rd rj rk : Reg) : EncodeFixedBits.Statement (.addW rd rj rk) := enc3R_fixed (by decide) rk rj rd
theorem EncodeFixedBits.subW (rd rj rk : Reg) : EncodeFixedBits.Statement (.subW rd rj rk) := enc3R_fixed (by decide) rk rj rd
theorem EncodeFixedBits.slt (rd rj rk : Reg) : EncodeFixedBits.Statement (.slt rd rj rk) := enc3R_fixed (by decide) rk rj rd
theorem EncodeFixedBits.sltu (rd rj rk : Reg) : EncodeFixedBits.Statement (.sltu rd rj rk) := enc3R_fixed (by decide) rk rj rd
theorem EncodeFixedBits.nor (rd rj rk : Reg) : EncodeFixedBits.Statement (.nor rd rj rk) := enc3R_fixed (by decide) rk rj rd
theorem EncodeFixedBits.and (rd rj rk : Reg) : EncodeFixedBits.Statement (.and rd rj rk) := enc3R_fixed (by decide) rk rj rd
theorem EncodeFixedBits.or (rd rj rk : Reg) : EncodeFixedBits.Statement (.or rd rj rk) := enc3R_fixed (by decide) rk rj rd
theorem EncodeFixedBits.xor (rd rj rk : Reg) : EncodeFixedBits.Statement (.xor rd rj rk) := enc3R_fixed (by decide) rk rj rd
theorem EncodeFixedBits.sllW (rd rj rk : Reg) : EncodeFixedBits.Statement (.sllW rd rj rk) := enc3R_fixed (by decide) rk rj rd
theorem EncodeFixedBits.srlW (rd rj rk : Reg) : EncodeFixedBits.Statement (.srlW rd rj rk) := enc3R_fixed (by decide) rk rj rd
theorem EncodeFixedBits.sraW (rd rj rk : Reg) : EncodeFixedBits.Statement (.sraW rd rj rk) := enc3R_fixed (by decide) rk rj rd
theorem EncodeFixedBits.mulW (rd rj rk : Reg) : EncodeFixedBits.Statement (.mulW rd rj rk) := enc3R_fixed (by decide) rk rj rd
theorem EncodeFixedBits.mulhW (rd rj rk : Reg) : EncodeFixedBits.Statement (.mulhW rd rj rk) := enc3R_fixed (by decide) rk rj rd
theorem EncodeFixedBits.mulhWu (rd rj rk : Reg) : EncodeFixedBits.Statement (.mulhWu rd rj rk) := enc3R_fixed (by decide) rk rj rd
theorem EncodeFixedBits.divW (rd rj rk : Reg) : EncodeFixedBits.Statement (.divW rd rj rk) := enc3R_fixed (by decide) rk rj rd
theorem EncodeFixedBits.modW (rd rj rk : Reg) : EncodeFixedBits.Statement (.modW rd rj rk) := enc3R_fixed (by decide) rk rj rd
theorem EncodeFixedBits.divWu (rd rj rk : Reg) : EncodeFixedBits.Statement (.divWu rd rj rk) := enc3R_fixed (by decide) rk rj rd
theorem EncodeFixedBits.modWu (rd rj rk : Reg) : EncodeFixedBits.Statement (.modWu rd rj rk) := enc3R_fixed (by decide) rk rj rd
theorem EncodeFixedBits.brk (code : BitVec 15) : EncodeFixedBits.Statement (.brk code) := encCode15_fixed (by decide) code
theorem EncodeFixedBits.syscall (code : BitVec 15) : EncodeFixedBits.Statement (.syscall code) := encCode15_fixed (by decide) code
theorem EncodeFixedBits.slliW (rd rj : Reg) (ui5 : BitVec 5) : EncodeFixedBits.Statement (.slliW rd rj ui5) := enc3R_fixed (by decide) ui5 rj rd
theorem EncodeFixedBits.srliW (rd rj : Reg) (ui5 : BitVec 5) : EncodeFixedBits.Statement (.srliW rd rj ui5) := enc3R_fixed (by decide) ui5 rj rd
theorem EncodeFixedBits.sraiW (rd rj : Reg) (ui5 : BitVec 5) : EncodeFixedBits.Statement (.sraiW rd rj ui5) := enc3R_fixed (by decide) ui5 rj rd
theorem EncodeFixedBits.slti (rd rj : Reg) (si12 : BitVec 12) : EncodeFixedBits.Statement (.slti rd rj si12) := enc2RI12_fixed (by decide) si12 rj rd
theorem EncodeFixedBits.sltui (rd rj : Reg) (si12 : BitVec 12) : EncodeFixedBits.Statement (.sltui rd rj si12) := enc2RI12_fixed (by decide) si12 rj rd
theorem EncodeFixedBits.addiW (rd rj : Reg) (si12 : BitVec 12) : EncodeFixedBits.Statement (.addiW rd rj si12) := enc2RI12_fixed (by decide) si12 rj rd
theorem EncodeFixedBits.andi (rd rj : Reg) (ui12 : BitVec 12) : EncodeFixedBits.Statement (.andi rd rj ui12) := enc2RI12_fixed (by decide) ui12 rj rd
theorem EncodeFixedBits.ori (rd rj : Reg) (ui12 : BitVec 12) : EncodeFixedBits.Statement (.ori rd rj ui12) := enc2RI12_fixed (by decide) ui12 rj rd
theorem EncodeFixedBits.xori (rd rj : Reg) (ui12 : BitVec 12) : EncodeFixedBits.Statement (.xori rd rj ui12) := enc2RI12_fixed (by decide) ui12 rj rd
theorem EncodeFixedBits.csrrd (rd : Reg) (csr : BitVec 14) : EncodeFixedBits.Statement (.csrrd rd csr) := enc2RI14_fixed_rj 0#5 (by decide) (by decide) csr rd
theorem EncodeFixedBits.csrwr (rd : Reg) (csr : BitVec 14) : EncodeFixedBits.Statement (.csrwr rd csr) := enc2RI14_fixed_rj 1#5 (by decide) (by decide) csr rd
theorem EncodeFixedBits.csrxchg (rd rj : Reg) (csr : BitVec 14) : EncodeFixedBits.Statement (.csrxchg rd rj csr) := enc2RI14_fixed (by decide) csr rj rd
theorem EncodeFixedBits.cacop (code : BitVec 5) (rj : Reg) (si12 : BitVec 12) : EncodeFixedBits.Statement (.cacop code rj si12) := enc2RI12_fixed (by decide) si12 rj code
theorem EncodeFixedBits.tlbsrch : EncodeFixedBits.Statement .tlbsrch := by
  unfold EncodeFixedBits.Statement; decide
theorem EncodeFixedBits.tlbrd : EncodeFixedBits.Statement .tlbrd := by
  unfold EncodeFixedBits.Statement; decide
theorem EncodeFixedBits.tlbwr : EncodeFixedBits.Statement .tlbwr := by
  unfold EncodeFixedBits.Statement; decide
theorem EncodeFixedBits.tlbfill : EncodeFixedBits.Statement .tlbfill := by
  unfold EncodeFixedBits.Statement; decide
theorem EncodeFixedBits.ertn : EncodeFixedBits.Statement .ertn := by
  unfold EncodeFixedBits.Statement; decide
theorem EncodeFixedBits.idle (code : BitVec 15) : EncodeFixedBits.Statement (.idle code) := encCode15_fixed (by decide) code
theorem EncodeFixedBits.invtlb (op : BitVec 5) (rj rk : Reg) : EncodeFixedBits.Statement (.invtlb op rj rk) := enc3R_fixed (by decide) rk rj op
theorem EncodeFixedBits.lu12iW (rd : Reg) (si20 : BitVec 20) : EncodeFixedBits.Statement (.lu12iW rd si20) := enc1RI20_fixed (by decide) si20 rd
theorem EncodeFixedBits.pcaddu12i (rd : Reg) (si20 : BitVec 20) : EncodeFixedBits.Statement (.pcaddu12i rd si20) := enc1RI20_fixed (by decide) si20 rd
theorem EncodeFixedBits.llW (rd rj : Reg) (si14 : BitVec 14) : EncodeFixedBits.Statement (.llW rd rj si14) := enc2RI14_fixed (by decide) si14 rj rd
theorem EncodeFixedBits.scW (rd rj : Reg) (si14 : BitVec 14) : EncodeFixedBits.Statement (.scW rd rj si14) := enc2RI14_fixed (by decide) si14 rj rd
theorem EncodeFixedBits.ldB (rd rj : Reg) (si12 : BitVec 12) : EncodeFixedBits.Statement (.ldB rd rj si12) := enc2RI12_fixed (by decide) si12 rj rd
theorem EncodeFixedBits.ldH (rd rj : Reg) (si12 : BitVec 12) : EncodeFixedBits.Statement (.ldH rd rj si12) := enc2RI12_fixed (by decide) si12 rj rd
theorem EncodeFixedBits.ldW (rd rj : Reg) (si12 : BitVec 12) : EncodeFixedBits.Statement (.ldW rd rj si12) := enc2RI12_fixed (by decide) si12 rj rd
theorem EncodeFixedBits.stB (rd rj : Reg) (si12 : BitVec 12) : EncodeFixedBits.Statement (.stB rd rj si12) := enc2RI12_fixed (by decide) si12 rj rd
theorem EncodeFixedBits.stH (rd rj : Reg) (si12 : BitVec 12) : EncodeFixedBits.Statement (.stH rd rj si12) := enc2RI12_fixed (by decide) si12 rj rd
theorem EncodeFixedBits.stW (rd rj : Reg) (si12 : BitVec 12) : EncodeFixedBits.Statement (.stW rd rj si12) := enc2RI12_fixed (by decide) si12 rj rd
theorem EncodeFixedBits.ldBu (rd rj : Reg) (si12 : BitVec 12) : EncodeFixedBits.Statement (.ldBu rd rj si12) := enc2RI12_fixed (by decide) si12 rj rd
theorem EncodeFixedBits.ldHu (rd rj : Reg) (si12 : BitVec 12) : EncodeFixedBits.Statement (.ldHu rd rj si12) := enc2RI12_fixed (by decide) si12 rj rd
theorem EncodeFixedBits.preld (hint : BitVec 5) (rj : Reg) (si12 : BitVec 12) : EncodeFixedBits.Statement (.preld hint rj si12) := enc2RI12_fixed (by decide) si12 rj hint
theorem EncodeFixedBits.dbar (code : BitVec 15) : EncodeFixedBits.Statement (.dbar code) := encCode15_fixed (by decide) code
theorem EncodeFixedBits.ibar (code : BitVec 15) : EncodeFixedBits.Statement (.ibar code) := encCode15_fixed (by decide) code
theorem EncodeFixedBits.jirl (rd rj : Reg) (offs16 : BitVec 16) : EncodeFixedBits.Statement (.jirl rd rj offs16) := enc2RI16_fixed (by decide) offs16 rj rd
theorem EncodeFixedBits.b (offs26 : BitVec 26) : EncodeFixedBits.Statement (.b offs26) := encI26_fixed (by decide) offs26
theorem EncodeFixedBits.bl (offs26 : BitVec 26) : EncodeFixedBits.Statement (.bl offs26) := encI26_fixed (by decide) offs26
theorem EncodeFixedBits.beq (rj rd : Reg) (offs16 : BitVec 16) : EncodeFixedBits.Statement (.beq rj rd offs16) := enc2RI16_fixed (by decide) offs16 rj rd
theorem EncodeFixedBits.bne (rj rd : Reg) (offs16 : BitVec 16) : EncodeFixedBits.Statement (.bne rj rd offs16) := enc2RI16_fixed (by decide) offs16 rj rd
theorem EncodeFixedBits.blt (rj rd : Reg) (offs16 : BitVec 16) : EncodeFixedBits.Statement (.blt rj rd offs16) := enc2RI16_fixed (by decide) offs16 rj rd
theorem EncodeFixedBits.bge (rj rd : Reg) (offs16 : BitVec 16) : EncodeFixedBits.Statement (.bge rj rd offs16) := enc2RI16_fixed (by decide) offs16 rj rd
theorem EncodeFixedBits.bltu (rj rd : Reg) (offs16 : BitVec 16) : EncodeFixedBits.Statement (.bltu rj rd offs16) := enc2RI16_fixed (by decide) offs16 rj rd
theorem EncodeFixedBits.bgeu (rj rd : Reg) (offs16 : BitVec 16) : EncodeFixedBits.Statement (.bgeu rj rd offs16) := enc2RI16_fixed (by decide) offs16 rj rd
theorem EncodeFixedBits.invalid (word : Word) : EncodeFixedBits.Statement (.invalid word) := by simp [EncodeFixedBits.Statement, rowBits]

end Sys2Proof.Laws
end

