-- ==== Sys2Proof/Laws/Step.lean ====
section
/-! SUPPORT. All a step can do: the inversion lemmas of the step of 60_exceptions.md R403, phase by phase. -/

namespace Sys2Proof.Machine

/-- Phase D ends a step that goes on, and only that. -/
theorem finish_eq_next {r : Result} {t : State} (h : finish r = .next t) : ∃ u, r = .next u ∧ t = endOfStep u := by
  cases r with
  | next u => injection h with h; exact ⟨u, rfl, h.symm⟩
  | fault f => cases h
  | refused f => cases h

/-- What phase C does: the interrupt, or the instruction (60_exceptions.md R403). -/
theorem phaseC_eq_next {i : Instr} {s t : State} (h : phaseC i s = .next t) :
    (raises i s = none ∧ interruptDue s = true ∧ t = enter causeInt s) ∨
      (¬((raises i s).isNone = true ∧ interruptDue s = true) ∧ exec i s = .next t) := by
  unfold phaseC at h
  split at h
  · rename_i hc
    injection h with h
    simp only [Bool.and_eq_true] at hc
    exact .inl ⟨by simpa using hc.1, hc.2, h.symm⟩
  · rename_i hc
    simp only [Bool.and_eq_true] at hc
    exact .inr ⟨hc, h⟩

/-- A fetch that decodes: the word read at the pc, and the instruction of that word (20_memory.md R114). -/
theorem fetchDecode_ok {s u : State} {i : Instr} (h : fetchDecode s = .ok (i, u)) :
    ∃ w, memRead s.pc .word s = .ok (w, u) ∧ decodeWord w = some i := by
  unfold fetchDecode at h
  split at h
  · cases h
  · rename_i w v hm
    split at h
    · rename_i j hd
      injection h with h; injection h with h1 h2
      subst h1; subst h2
      exact ⟨w, hm, hd⟩
    · cases h

/-- Phases B and C: ADEF, or an instruction fetched, decoded and decided on (60_exceptions.md R403). -/
theorem fetchAndExecute_eq_next {s t : State} (h : fetchAndExecute s = .next t) :
    (isAligned s.pc .word = false ∧ t = enter (causeAdef s.pc) s) ∨
      (isAligned s.pc .word = true ∧ ∃ i u, fetchDecode s = .ok (i, u) ∧ phaseC i u = .next t) := by
  unfold fetchAndExecute checkFetch at h
  by_cases ha : isAligned s.pc .word = true
  · simp only [ha, if_true, unlessRaised_none] at h
    split at h
    · cases h
    · rename_i i u hf
      exact .inr ⟨ha, i, u, hf, h⟩
  · simp only [ha] at h
    injection h with h
    exact .inl ⟨by simpa using ha, h.symm⟩

/-- All a step can do: a terminal status repeats itself; else the core is in direct translation and either waits idly or
runs phases B and C, with phase A before and phase D after (60_exceptions.md R403). -/
theorem step_eq_next {s t : State} (h : step s = .next t) :
    ((∃ c, s.status = .halted c) ∧ t = s) ∨
      (s.status = .running ∧ inMappedMode s = false ∧
        ((stillWaiting (sampleLines s) = true ∧ t = endOfStep (sampleLines s)) ∨
          (stillWaiting (sampleLines s) = false ∧
            ∃ u, fetchAndExecute (wake (sampleLines s)) = .next u ∧ t = endOfStep u))) := by
  unfold step executeOneStep at h
  split at h
  · rename_i hs
    split at h
    · cases h
    · rename_i hm
      refine .inr ⟨hs, by simpa using hm, ?_⟩
      unfold runSampled at h
      split at h
      · rename_i hw
        injection h with h
        exact .inl ⟨hw, h.symm⟩
      · rename_i hw
        obtain ⟨u, hu, ht⟩ := finish_eq_next h
        exact .inr ⟨by simpa using hw, u, hu, ht⟩
  · rename_i c hs
    injection h with h
    exact .inl ⟨⟨c, hs⟩, h.symm⟩
  · cases h
  · cases h

/-- A fetch changes only what a region read changes: the shadow buffer, the record of calls and the draws
(20_memory.md R109, R114). -/
theorem fetchDecode_frame {s u : State} {i : Instr} (h : fetchDecode s = .ok (i, u)) :
    u = s ∨ ∃ w v e, u = { s with shadow := shadowWriteBytes s.shadow s.pc.toNat w 4, events := v, draws := e } ∧
      s.draws ≤ e := by
  obtain ⟨w, hm, _⟩ := fetchDecode_ok h
  rcases memRead_cases hm with ⟨_, _, rfl⟩ | ⟨_, _, g, _, _, rfl⟩
  · exact .inl rfl
  · exact .inr ⟨w, _, _, rfl, Nat.le_succ _⟩

/-- A property that each part of a step keeps, every step keeps: the line sample, waking, the fetch, an entry for ADEF
or an interrupt, an instruction (by its shape) and phase D (60_exceptions.md R403). -/
theorem step_preserves (P : State → Prop) (sample : ∀ s, P s → P (sampleLines s)) (awake : ∀ s, P s → P (wake s))
    (fetch : ∀ s i u, P s → fetchDecode s = .ok (i, u) → P u) (adef : ∀ s, P s → P (enter (causeAdef s.pc) s))
    (interrupt : ∀ s, P s → P (enter causeInt s)) (instruction : ∀ i s t, P s → ExecShape i s t → P t)
    (phaseD : ∀ s, P s → P (endOfStep s)) {s t : State} (hs : P s) (h : step s = .next t) : P t := by
  rcases step_eq_next h with ⟨_, rfl⟩ | ⟨_, _, ⟨_, rfl⟩ | ⟨_, u, hu, rfl⟩⟩
  · exact hs
  · exact phaseD _ (sample _ hs)
  · apply phaseD
    have hw := awake _ (sample _ hs)
    rcases fetchAndExecute_eq_next hu with ⟨_, rfl⟩ | ⟨_, i, v, hf, hc⟩
    · exact adef _ hw
    · have hv := fetch _ _ _ hw hf
      rcases phaseC_eq_next hc with ⟨_, _, rfl⟩ | ⟨_, he⟩
      · exact interrupt _ hv
      · exact instruction _ _ _ hv (exec_shape he)

/-- The step of a running core in direct translation that does not wait (60_exceptions.md R403). -/
theorem step_of_running {s : State} (h1 : s.status = .running) (h2 : inMappedMode s = false)
    (h3 : stillWaiting (sampleLines s) = false) :
    step s = finish (fetchAndExecute (wake (sampleLines s))) := by
  simp [step, executeOneStep, runSampled, h1, h2, h3]

/-- Phases B and C of an aligned pc in backing memory whose word decodes (60_exceptions.md R403). -/
theorem fetchAndExecute_of_decodes {s : State} {i : Instr} (h1 : isAligned s.pc .word = true)
    (h2 : inBacking s.platform s.pc.toNat 4 = true) (h3 : decodeWord (memReadBytes s.mem s.pc.toNat 4) = some i) :
    fetchAndExecute s = phaseC i s := by
  simp [fetchAndExecute, checkFetch, fetchDecode, h1, memRead_of_inBacking (w := .word) h2, widthBytes, h3]

/-- The word placed at the pc is the word the next fetch reads. -/
theorem memReadBytes_withFetchWord (s : State) (nbits w : Nat) :
    memReadBytes (s.withFetchWord nbits w).mem s.pc.toNat 4 = BitVec.ofNat 32 (w % 2 ^ nbits) := by
  simp [State.withFetchWord, memReadBytes_memWriteBytes_word]

end Sys2Proof.Machine
end

