-- ==== Sys2Proof/Tests/Slice0.lean ====
section
/-! SUPPORT. Tests on fixed values: ill-formed terms refused, one word per row of the catalog decoded and encoded, one
step per instruction from the vectors of 95_test_vectors.md, and a witness for the hypotheses of every obligation. -/

namespace Sys2Proof.Tests
open Sys2Proof.Machine

/-! ## WellFormed refuses ill-formed terms (30_encoding.md R160 to R162) -/

theorem test_wf_refuses_rdcntid_r0 : (Instr.rdcntidW 0).wellFormed = false := by decide
theorem test_wf_refuses_csrxchg_rj0 : (Instr.csrxchg 4 0 5).wellFormed = false := by decide
theorem test_wf_refuses_csrxchg_rj1 : (Instr.csrxchg 4 1 5).wellFormed = false := by decide
theorem test_wf_refuses_invalid_of_add : (Instr.invalid 0x001018A4).wellFormed = false := by decide
theorem test_wf_accepts_csrxchg_rj2 : (Instr.csrxchg 4 2 5).wellFormed = true := by decide
theorem test_wf_accepts_invalid_zero : (Instr.invalid 0).wellFormed = true := by decide

/-! ## One word per constructor, from the word columns of 95_test_vectors.md or written out from 30_encoding.md R151 and
R170 (opcode, then the fields from the high bits down) -/

/-- The word decodes to the instruction, and the instruction encodes to the word. -/
def reads (w : Word) (i : Instr) : Prop := decodeWord w = some i ∧ encodeWord i = w

theorem test_word_rdcntvlW : reads 0x00006004 (.rdcntvlW 4) := by unfold reads; decide
theorem test_word_rdcntidW : reads 0x000060A0 (.rdcntidW 5) := by unfold reads; decide
theorem test_word_rdcntvhW : reads 0x00006404 (.rdcntvhW 4) := by unfold reads; decide
theorem test_word_addW : reads 0x001018A4 (.addW 4 5 6) := by unfold reads; decide
theorem test_word_subW : reads 0x001118A4 (.subW 4 5 6) := by unfold reads; decide
theorem test_word_slt : reads 0x001218A4 (.slt 4 5 6) := by unfold reads; decide
theorem test_word_sltu : reads 0x001298A4 (.sltu 4 5 6) := by unfold reads; decide
theorem test_word_nor : reads 0x001418A4 (.nor 4 5 6) := by unfold reads; decide
theorem test_word_and : reads 0x001498A4 (.and 4 5 6) := by unfold reads; decide
theorem test_word_or : reads 0x001518A4 (.or 4 5 6) := by unfold reads; decide
theorem test_word_xor : reads 0x001598A4 (.xor 4 5 6) := by unfold reads; decide
theorem test_word_sllW : reads 0x001718A4 (.sllW 4 5 6) := by unfold reads; decide
theorem test_word_srlW : reads 0x001798A4 (.srlW 4 5 6) := by unfold reads; decide
theorem test_word_sraW : reads 0x001818A4 (.sraW 4 5 6) := by unfold reads; decide
theorem test_word_mulW : reads 0x001C18A4 (.mulW 4 5 6) := by unfold reads; decide
theorem test_word_mulhW : reads 0x001C98A4 (.mulhW 4 5 6) := by unfold reads; decide
theorem test_word_mulhWu : reads 0x001D18A4 (.mulhWu 4 5 6) := by unfold reads; decide
theorem test_word_divW : reads 0x002018A4 (.divW 4 5 6) := by unfold reads; decide
theorem test_word_modW : reads 0x002098A4 (.modW 4 5 6) := by unfold reads; decide
theorem test_word_divWu : reads 0x002118A4 (.divWu 4 5 6) := by unfold reads; decide
theorem test_word_modWu : reads 0x002198A4 (.modWu 4 5 6) := by unfold reads; decide
theorem test_word_brk : reads 0x002A0005 (.brk 5) := by unfold reads; decide
theorem test_word_syscall : reads 0x002B0000 (.syscall 0) := by unfold reads; decide
theorem test_word_slliW : reads 0x0040FCA4 (.slliW 4 5 31) := by unfold reads; decide
theorem test_word_srliW : reads 0x004490A4 (.srliW 4 5 4) := by unfold reads; decide
theorem test_word_sraiW : reads 0x004890A4 (.sraiW 4 5 4) := by unfold reads; decide
theorem test_word_slti : reads 0x023FFCA4 (.slti 4 5 0xFFF) := by unfold reads; decide
theorem test_word_sltui : reads 0x024004A4 (.sltui 4 5 1) := by unfold reads; decide
theorem test_word_addiW : reads 0x02A000A4 (.addiW 4 5 0x800) := by unfold reads; decide
theorem test_word_andi : reads 0x037FFCA4 (.andi 4 5 0xFFF) := by unfold reads; decide
theorem test_word_ori : reads 0x03A000A4 (.ori 4 5 0x800) := by unfold reads; decide
theorem test_word_xori : reads 0x03FFFCA4 (.xori 4 5 0xFFF) := by unfold reads; decide
theorem test_word_csrrd : reads 0x04001404 (.csrrd 4 5) := by unfold reads; decide
theorem test_word_csrwr : reads 0x04010424 (.csrwr 4 0x41) := by unfold reads; decide
theorem test_word_csrxchg : reads 0x040010A4 (.csrxchg 4 5 4) := by unfold reads; decide
theorem test_word_cacop : reads 0x060000A0 (.cacop 0 5 0) := by unfold reads; decide
theorem test_word_tlbsrch : reads 0x06482800 (.tlbsrch) := by unfold reads; decide
theorem test_word_tlbrd : reads 0x06482C00 (.tlbrd) := by unfold reads; decide
theorem test_word_tlbwr : reads 0x06483000 (.tlbwr) := by unfold reads; decide
theorem test_word_tlbfill : reads 0x06483400 (.tlbfill) := by unfold reads; decide
theorem test_word_ertn : reads 0x06483800 (.ertn) := by unfold reads; decide
theorem test_word_idle : reads 0x06488001 (.idle 1) := by unfold reads; decide
theorem test_word_invtlb : reads 0x064998A0 (.invtlb 0 5 6) := by unfold reads; decide
theorem test_word_lu12iW : reads 0x15000004 (.lu12iW 4 0x80000) := by unfold reads; decide
theorem test_word_pcaddu12i : reads 0x1C000024 (.pcaddu12i 4 1) := by unfold reads; decide
theorem test_word_llW : reads 0x200000A4 (.llW 4 5 0) := by unfold reads; decide
theorem test_word_scW : reads 0x210000A4 (.scW 4 5 0) := by unfold reads; decide
theorem test_word_ldB : reads 0x280004A4 (.ldB 4 5 1) := by unfold reads; decide
theorem test_word_ldH : reads 0x284008A4 (.ldH 4 5 2) := by unfold reads; decide
theorem test_word_ldW : reads 0x28BFF0A4 (.ldW 4 5 0xFFC) := by unfold reads; decide
theorem test_word_stB : reads 0x29000CA4 (.stB 4 5 3) := by unfold reads; decide
theorem test_word_stH : reads 0x297FF8A4 (.stH 4 5 0xFFE) := by unfold reads; decide
theorem test_word_stW : reads 0x298010A4 (.stW 4 5 4) := by unfold reads; decide
theorem test_word_ldBu : reads 0x2A0004A4 (.ldBu 4 5 1) := by unfold reads; decide
theorem test_word_ldHu : reads 0x2A4008A4 (.ldHu 4 5 2) := by unfold reads; decide
theorem test_word_preld : reads 0x2AC004A0 (.preld 0 5 1) := by unfold reads; decide
theorem test_word_dbar : reads 0x38720000 (.dbar 0) := by unfold reads; decide
theorem test_word_ibar : reads 0x38728000 (.ibar 0) := by unfold reads; decide
theorem test_word_jirl : reads 0x4C0000A1 (.jirl 1 5 0) := by unfold reads; decide
theorem test_word_b : reads 0x50000200 (.b 0x2000000) := by unfold reads; decide
theorem test_word_bl : reads 0x57FFFFFF (.bl 0x3FFFFFF) := by unfold reads; decide
theorem test_word_beq : reads 0x58000885 (.beq 4 5 2) := by unfold reads; decide
theorem test_word_bne : reads 0x5FFFFC85 (.bne 4 5 0xFFFF) := by unfold reads; decide
theorem test_word_blt : reads 0x60000885 (.blt 4 5 2) := by unfold reads; decide
theorem test_word_bge : reads 0x64000885 (.bge 4 5 2) := by unfold reads; decide
theorem test_word_bltu : reads 0x68000885 (.bltu 4 5 2) := by unfold reads; decide
theorem test_word_bgeu : reads 0x6E000085 (.bgeu 4 5 0x8000) := by unfold reads; decide
theorem test_word_invalid : reads 0x06483801 (.invalid 0x06483801) := by unfold reads; decide

/-- First match wins: both fields 0 is RDCNTVL.W r0 (95_test_vectors.md section 10). -/
theorem test_word_first_match : decodeWord 0x00006000 = some (.rdcntvlW 0) := by decide
/-- RDCNTVH.W needs `rj = 0`; opcodes not in the catalog are the wildcard (95_test_vectors.md section 10). -/
theorem test_word_wildcards :
    [0x00006424, 0x00118000, 0x001A0000, 0x002A8000, 0x38730000, 0x0C000000, 0x24000000, 0x2B000000, 0x70000000,
      0xFC000000, 0xFFFFFFFF].all (fun w => decodeWord w == some (.invalid w)) = true := by decide
/-- The table's numbering: bits above `nbits` are zero, the bytes go to the decoder lowest first. -/
theorem test_decodeTableWord : decodeTableWord 32 0x001018A4 = some (.addW 4 5 6) := by decide

/-! ## One step per instruction: the vectors of 95_test_vectors.md sections 2 to 9. The word is stored at the pc and one
whole step is run; `P`, `A` and `E` are the addresses of that file. -/

/-- The pc of the instruction under test. -/
def P : Word := 0x1C000000
/-- A data address in backing memory. -/
def A : Word := 0x1C001000
/-- The state after reset with these registers set. -/
def withRegs (l : List (Reg × Word)) : State := l.foldl (fun s p => writeReg p.1 p.2 s) State.reset
/-- A state with the CSRs changed. -/
def withCsr (f : Csrs → Csrs) (s : State) : State := { s with csr := f s.csr }
/-- A state with a word stored at an address of backing memory. -/
def withWord (a : Word) (v : Word) (s : State) : State := { s with mem := memWriteBytes s.mem a.toNat v 4 }
/-- What one step of the word at the pc leaves, seen through `f`. -/
def after {α : Type} (w : Nat) (s : State) (f : State → α) : Option α :=
  match step (s.withFetchWord 32 w) with
  | .next t => some (f t)
  | _ => none
/-- Register 4, the destination of most vectors. -/
def r4 (t : State) : Word := readReg t 4
/-- `x[rd]` of a two-source vector: r5 and r6 in, r4 out. -/
def alu (w : Nat) (a b : Word) : Option Word := after w (withRegs [(5, a), (6, b)]) r4

theorem test_add_w_wraps : alu 0x001018A4 0x7FFFFFFF 1 = some 0x80000000 := by decide
theorem test_sub_w_borrows : alu 0x001118A4 0 1 = some 0xFFFFFFFF := by decide
theorem test_addi_w_smallest : alu 0x02A000A4 0 0 = some 0xFFFFF800 := by decide
theorem test_lu12i_w_sign : alu 0x15000004 0 0 = some 0x80000000 := by decide
theorem test_pcaddu12i_negative : alu 0x1DFFFFE4 0 0 = some 0x1BFFF000 := by decide
theorem test_slt_negative : alu 0x001218A4 0xFFFFFFFF 0 = some 1 := by decide
theorem test_sltu_large : alu 0x001298A4 0 0xFFFFFFFF = some 1 := by decide
theorem test_slti_int_min : alu 0x023FFCA4 0x80000000 0 = some 1 := by decide
theorem test_sltui_sign_extends : alu 0x027FFCA4 0xFFFFFFFE 0 = some 1 := by decide
theorem test_and : alu 0x001498A4 0xF0F0F0F0 0xFF00FF00 = some 0xF000F000 := by decide
theorem test_or : alu 0x001518A4 0xF0F0F0F0 0x0F0F0F0F = some 0xFFFFFFFF := by decide
theorem test_nor_not : alu 0x001418A4 0 0 = some 0xFFFFFFFF := by decide
theorem test_xor : alu 0x001598A4 0xFFFF0000 0xFF00FF00 = some 0x00FFFF00 := by decide
theorem test_andi_zero_extends : alu 0x037FFCA4 0xFFFFFFFF 0 = some 0x00000FFF := by decide
theorem test_ori_zero_extends : alu 0x03A000A4 0 0 = some 0x00000800 := by decide
theorem test_xori : alu 0x03FFFCA4 0x12345678 0 = some 0x12345987 := by decide
theorem test_sll_w_amount_mod_32 : alu 0x001718A4 1 0xFFFFFFE1 = some 2 := by decide
theorem test_srl_w_amount_mod_32 : alu 0x001798A4 0x80000000 0x21 = some 0x40000000 := by decide
theorem test_sra_w_sign : alu 0x001818A4 0x80000000 0x1F = some 0xFFFFFFFF := by decide
theorem test_slli_w : alu 0x0040FCA4 3 0 = some 0x80000000 := by decide
theorem test_srli_w : alu 0x004490A4 0xF0000000 0 = some 0x0F000000 := by decide
theorem test_srai_w : alu 0x004890A4 0xF0000000 0 = some 0xFF000000 := by decide
theorem test_mul_w_low_word : alu 0x001C18A4 0xFFFFFFFF 0xFFFFFFFF = some 1 := by decide
theorem test_mulh_w_signed : alu 0x001C98A4 0x80000000 0x7FFFFFFF = some 0xC0000000 := by decide
theorem test_mulh_wu_unsigned : alu 0x001D18A4 0xFFFFFFFF 0xFFFFFFFF = some 0xFFFFFFFE := by decide
theorem test_div_w_truncates : alu 0x002018A4 7 0xFFFFFFFE = some 0xFFFFFFFD := by decide
theorem test_div_w_overflow : alu 0x002018A4 0x80000000 0xFFFFFFFF = some 0x80000000 := by decide
theorem test_mod_w_sign_of_dividend : alu 0x002098A4 0xFFFFFFF9 0xFFFFFFFE = some 0xFFFFFFFF := by decide
theorem test_div_wu : alu 0x002118A4 0xFFFFFFFF 2 = some 0x7FFFFFFF := by decide
theorem test_mod_wu : alu 0x002198A4 0xFFFFFFFF 0xA = some 5 := by decide
/-- A zero divisor: no exception, the free value DIVZ whatever it is (95_test_vectors.md section 2, rows 48 to 56). -/
theorem test_div_w_by_zero : alu 0x002018A4 5 0 = some (Config.divz .divW 5) := by rfl
theorem test_mod_wu_by_zero : alu 0x002198A4 5 0 = some (Config.divz .modWu 5) := by rfl
theorem test_r0_stays_zero : after 0x001018A0 (withRegs [(5, 3), (6, 4)]) (readReg · 0) = some 0 := by decide

/-- The next pc of a branch with r4 and r5 in. -/
def goesTo (w : Nat) (a b : Word) : Option Word := after w (withRegs [(4, a), (5, b)]) State.pc
theorem test_beq_not_taken : goesTo 0x58000885 1 2 = some (P + 4) := by decide
theorem test_beq_taken : goesTo 0x58000885 3 3 = some (P + 8) := by decide
theorem test_bne_taken : goesTo 0x5FFFFC85 1 0 = some (P - 4) := by decide
theorem test_blt_signed : goesTo 0x60000885 1 0xFFFFFFFF = some (P + 4) := by decide
theorem test_bge_signed : goesTo 0x64000885 0x80000000 0x7FFFFFFF = some (P + 4) := by decide
theorem test_bltu_unsigned : goesTo 0x68000885 1 0xFFFFFFFF = some (P + 8) := by decide
theorem test_bgeu_smallest_offset : goesTo 0x6E000085 0 0 = some 0x1BFE0000 := by decide
theorem test_b_smallest_offset : goesTo 0x50000200 0 0 = some 0x14000000 := by decide
theorem test_bl_links : after 0x57FFFFFF State.reset (fun t => (t.pc, readReg t 1)) = some (P - 4, P + 4) := by decide
theorem test_jirl_old_rj :
    after 0x4C0000A5 (withRegs [(5, 0x1C000008)]) (fun t => (t.pc, readReg t 5)) = some (0x1C000008, P + 4) := by decide
theorem test_jirl_misaligned_target :
    after 0x4C0000A1 (withRegs [(5, 0x1C000022)]) State.pc = some 0x1C000022 := by decide

/-- r5 = A and this word at A. -/
def dataAt (v : Word) : State := withWord A v (withRegs [(5, A)])
theorem test_ld_b_sign : after 0x280004A4 (dataAt 0x00008000) r4 = some 0xFFFFFF80 := by decide
theorem test_ld_bu_zero : after 0x2A0004A4 (dataAt 0x00008000) r4 = some 0x00000080 := by decide
theorem test_ld_h_sign : after 0x284008A4 (dataAt 0x81223344) r4 = some 0xFFFF8122 := by decide
theorem test_ld_hu_zero : after 0x2A4008A4 (dataAt 0x81223344) r4 = some 0x00008122 := by decide
theorem test_ld_w : after 0x288000A4 (dataAt 0x11223344) r4 = some 0x11223344 := by decide
/-- The bytes at A to A + 7, lowest first, after a store. -/
def bytesAtA (t : State) : List Byte := (List.range 8).map fun k => memByte t.mem (A.toNat + k)
theorem test_st_b :
    after 0x29000CA4 (writeReg 4 0xAB (dataAt 0x11223344)) bytesAtA = some [0x44, 0x33, 0x22, 0xAB, 0, 0, 0, 0] := by decide
theorem test_st_h :
    after 0x297FF8A4 (writeReg 4 0x1234BEEF (withRegs [(5, A + 4)])) bytesAtA = some [0, 0, 0xEF, 0xBE, 0, 0, 0, 0] := by decide
theorem test_st_w :
    after 0x298010A4 (writeReg 4 0x11223344 (withRegs [(5, A)])) bytesAtA = some [0, 0, 0, 0, 0x44, 0x33, 0x22, 0x11] := by decide
theorem test_preld_no_fault : after 0x2AC004A0 State.reset State.pc = some (P + 4) := by decide
theorem test_ll_w : after 0x200000A4 (dataAt 5) (fun t => (r4 t, t.llbit)) = some (5, true) := by decide
theorem test_sc_w_stores :
    after 0x210000A4 { writeReg 4 6 (dataAt 0) with llbit := true } (fun t => (r4 t, t.llbit, memByte t.mem A.toNat)) =
      some (1, false, 6) := by decide
theorem test_sc_w_without_llbit :
    after 0x210000A4 (writeReg 4 6 (dataAt 0)) (fun t => (r4 t, t.llbit, memByte t.mem A.toNat)) = some (0, false, 0) := by decide
theorem test_dbar : after 0x38720000 State.reset State.pc = some (P + 4) := by decide
theorem test_ibar : after 0x38728000 State.reset State.pc = some (P + 4) := by decide

/-- The state of the vectors that take an exception: EENTRY = E, this CRMD. -/
def trapping (crmd : Word) (s : State) : State := withCsr (fun r => { r with eentry := 0x1C000100, crmd := crmd }) s
/-- What a taken exception shows: ESTAT, PRMD, CRMD, ERA and the next pc. -/
def entry (t : State) : Word × Word × Word × Word × Word := (t.csr.estat, t.csr.prmd, t.csr.crmd, t.csr.era, t.pc)
theorem test_ale : after 0x288008A4 (trapping 8 (withRegs [(5, A)])) (fun t => (t.csr.estat, t.csr.badv, r4 t)) =
    some (0x00090000, A + 2, 0) := by decide
theorem test_csrrd_asid : after 0x04006004 State.reset r4 = some 0x000A0000 := by decide
theorem test_csrrd_pgd :
    after 0x04006C04 (withCsr (fun r => { r with badv := 0x80000000, pgdl := 0x1000, pgdh := 0x2000 }) State.reset) r4 =
      some 0x2000 := by decide
theorem test_csrwr_estat : after 0x04001424 (withRegs [(4, 0xFFFFFFFF)]) (fun t => (t.csr.estat, r4 t)) = some (3, 0) := by decide
theorem test_csrwr_tcfg_loads_timer :
    after 0x04010424 (withRegs [(4, 0x11)]) (fun t => (t.csr.tcfg, t.csr.tval, t.timerEn)) = some (0x11, 0xF, true) := by decide
theorem test_csrxchg_mask :
    after 0x040010A4 (withCsr (fun r => { r with ecfg := 0x1234 }) (withRegs [(4, 0xAAAA), (5, 0xFF00)]))
      (fun t => (t.csr.ecfg, r4 t)) = some (0xA34, 0x1234) := by decide
theorem test_csrxchg_mask_zero_reloads :
    after 0x040104A4 (withCsr (fun r => { r with tcfg := 0x21, tval := 8 }) State.reset)
      (fun t => (t.csr.tcfg, t.csr.tval, r4 t)) = some (0x21, 0x1F, 0x21) := by decide
theorem test_csrrd_unimplemented : after 0x041FFC04 State.reset r4 = some (Config.csrUndefRead 0) := by rfl
theorem test_csrrd_ipe :
    after 0x04001404 (trapping 0xB State.reset) entry = some (0x000E0000, 3, 8, P, 0x1C000100) := by decide
theorem test_cacop : after 0x060000A0 State.reset State.pc = some (P + 4) := by decide
theorem test_cacop_ipe :
    after 0x060000A0 (trapping 0xB State.reset) entry = some (0x000E0000, 3, 8, P, 0x1C000100) := by decide
theorem test_rdcntvl_w : after 0x00006004 { State.reset with counter := 0x500000010 } r4 = some 0x10 := by decide
theorem test_rdcntvh_w : after 0x00006404 { State.reset with counter := 0x500000010 } r4 = some 5 := by decide
/-- The test configuration's one tick a step (70_reset_and_hazards.md R474). -/
theorem test_counter_counts_steps : after 0x00006404 { State.reset with counter := 0xFFFFFFFFFFFFFFFF } State.counter = some 0 := by
  decide
theorem test_rdcntid_w : after 0x00006080 (withCsr (fun r => { r with tid := 0x77 }) State.reset) r4 = some 0x77 := by decide
theorem test_syscall :
    after 0x002B0000 (trapping 0xF State.reset) entry = some (0x000B0000, 7, 8, P, 0x1C000100) := by decide
theorem test_break_halts :
    after 0x002A0005 (withRegs [(4, 3)]) (fun t => (t.status, t.pc)) = some (.halted 3, P + 4) := by decide
/-- The test configuration with a device region and without the halting BREAK. -/
def otherPlatform : Platform :=
  { pmemBase := 0x1C000000, pmemSize := 0x08000000, regions := [{ name := "device", base := 0x10000000, size := 0x1000 }],
    breakIsHalt := false, fixedTick := none }
theorem test_break_raises :
    after 0x002A0005 (trapping 8 { State.reset with platform := otherPlatform }) entry =
      some (0x000C0000, 0, 8, P, 0x1C000100) := by decide
theorem test_ertn :
    after 0x06483800 { withCsr (fun r => { r with prmd := 7, era := 0x1C000040, llbctl := 4 }) State.reset with llbit := true }
      (fun t => (t.csr.crmd, t.pc, t.llbit, csrValue .llbctl t)) = some (0xF, 0x1C000040, true, 1) := by decide
theorem test_ertn_clears_llbit :
    after 0x06483800 { withCsr (fun r => { r with era := 0x1C000040 }) State.reset with llbit := true } State.llbit =
      some false := by decide
theorem test_idle : after 0x06488000 State.reset (fun t => (t.idle, t.pc)) = some (true, P + 4) := by decide
/-- The refusal of a result, if it is one. -/
def refusal : Result → Option Refusal
  | .refused r => some r
  | _ => none
theorem test_tlb_refused :
    [0x06482800, 0x06482C00, 0x06483000, 0x06483400, 0x064998A0].all
      (fun w => refusal (step (State.reset.withFetchWord 32 w)) == some .tlbInstruction) = true := by decide
theorem test_tlb_ipe : [0x06482800, 0x06482C00, 0x06483000, 0x06483400, 0x064998A0].all
    (fun w => after w (trapping 0xB State.reset) entry == some (0x000E0000, 3, 8, P, 0x1C000100)) = true := by decide
theorem test_invtlb_op7_ine :
    after 0x06498007 (trapping 0xB State.reset) entry = some (0x000D0000, 3, 8, P, 0x1C000100) := by decide
theorem test_invalid_ine :
    after 0xFFFFFFFF (trapping 8 State.reset) entry = some (0x000D0000, 0, 8, P, 0x1C000100) := by decide
/-- SYS before INT, the interrupt stays pending (95_test_vectors.md section 7, row 5). -/
theorem test_syscall_before_interrupt :
    after 0x002B0000 (withCsr (fun r => { r with ecfg := 4 }) (trapping 0xC { State.reset with lines := 4 })) entry =
      some (0x000B0004, 4, 8, P, 0x1C000100) := by decide
/-- INT, the instruction not executed (95_test_vectors.md section 7, row 8). -/
theorem test_interrupt :
    after 0x001018A4 (withCsr (fun r => { r with ecfg := 4 }) (trapping 0xC { withRegs [(5, 1)] with lines := 4 }))
      (fun t => (entry t, r4 t)) = some ((4, 4, 8, P, 0x1C000100), 0) := by decide


/-! ## Witnesses: concrete states and operands that meet the hypotheses of the obligations, clause by clause, at the
boundary values of their ranges -/

/-- The result is a next state. -/
def goesOn : Result → Bool
  | .next _ => true
  | _ => false
theorem exists_next {r : Result} (h : goesOn r = true) : ∃ t, r = .next t := by
  cases r with
  | next t => exact ⟨t, rfl⟩
  | fault f => cases h
  | refused r => cases h

/-- The state after reset at this pc with this word there. -/
def fetching (pc w : Word) : State := withWord pc w { State.reset with pc := pc }
/-- The state after reset with the device region. -/
def withDevice : State := { State.reset with platform := otherPlatform }
/-- A waiting core: idle, this ECFG, these lines. -/
def waiting (ecfg lines : Word) : State := withCsr (fun r => { r with ecfg := ecfg }) { State.reset with idle := true, lines := lines }
/-- Level, interrupt enable and line 2 pending in the enabled set, with a word at the pc. -/
def interrupted (crmd w : Word) : State :=
  withCsr (fun r => { r with crmd := crmd, ecfg := 4, eentry := 0x1C000100 }) { fetching P w with lines := 4 }

theorem witness_DecodeOfEncodeIsInstruction :
    (Instr.csrxchg 31 2 0x3FFF).wellFormed = true ∧ (Instr.rdcntidW 1).wellFormed = true ∧
      (Instr.rdcntidW 31).wellFormed = true ∧ (Instr.invalid 0xFFFFFFFF).wellFormed = true := by decide

theorem witness_CatalogRowsDisjointButThreePairs :
    (0 < 1 ∧ 1 < 67 ∧ (catalog[0]?.map fun r => rowMatches r 0x6000) = some true ∧
      (catalog[1]?.map fun r => rowMatches r 0x6000) = some true) ∧
    (32 < 34 ∧ (catalog[32]?.map fun r => rowMatches r 0x04000000) = some true ∧
      (catalog[34]?.map fun r => rowMatches r 0x04000000) = some true) ∧
    (33 < 34 ∧ (catalog[33]?.map fun r => rowMatches r 0x04000020) = some true ∧
      (catalog[34]?.map fun r => rowMatches r 0x04000020) = some true) := by decide

/-- The counter-read clauses of OverlappingWords, at `rj` and `rd` 0, 1 and 31. -/
theorem witness_OverlappingWords_counter :
    (∀ w ∈ [0x00006000#32, 0x00006001#32, 0x0000601F#32], w.extractLsb' 10 22 = 0x18#22 ∧ w.extractLsb' 5 5 = 0#5) ∧
    (∀ w ∈ [0x00006020#32, 0x000063E0#32],
      w.extractLsb' 10 22 = 0x18#22 ∧ w.extractLsb' 5 5 ≠ 0#5 ∧ w.extractLsb' 0 5 = 0#5) ∧
    (∀ w ∈ [0x00006021#32, 0x000063FF#32],
      w.extractLsb' 10 22 = 0x18#22 ∧ w.extractLsb' 5 5 ≠ 0#5 ∧ w.extractLsb' 0 5 ≠ 0#5) ∧
    (∀ w ∈ [0x00006400#32, 0x0000641F#32], w.extractLsb' 10 22 = 0x19#22 ∧ w.extractLsb' 5 5 = 0#5) ∧
    (∀ w ∈ [0x00006420#32, 0x000067FF#32], w.extractLsb' 10 22 = 0x19#22 ∧ w.extractLsb' 5 5 ≠ 0#5) := by
  simp only [List.forall_mem_cons, List.not_mem_nil, false_implies, implies_true, and_true]; decide

/-- The CSR clauses of OverlappingWords, at `rj` 0, 1, 2 and 31. -/
theorem witness_OverlappingWords_csr :
    (∀ w ∈ [0x04000000#32, 0x04FFFC1F#32], w.extractLsb' 24 8 = 0x04#8 ∧ w.extractLsb' 5 5 = 0#5) ∧
    (∀ w ∈ [0x04000020#32, 0x04FFFC3F#32], w.extractLsb' 24 8 = 0x04#8 ∧ w.extractLsb' 5 5 = 1#5) ∧
    (∀ w ∈ [0x04000040#32, 0x04FFFFFF#32],
      w.extractLsb' 24 8 = 0x04#8 ∧ w.extractLsb' 5 5 ≠ 0#5 ∧ w.extractLsb' 5 5 ≠ 1#5) := by
  simp only [List.forall_mem_cons, List.not_mem_nil, false_implies, implies_true, and_true]; decide

/-- An instruction that raises nothing and is not interrupted, at the first and last word of backing memory; and an
interrupted one. -/
theorem witness_StepRunsDecodedInstruction :
    ∀ s ∈ [fetching P 0x02BFFCA4, fetching 0x23FFFFFC 0x02BFFCA4, interrupted 0xC 0x02BFFCA4],
      canStep s ∧ stillWaiting (sampleLines s) = false ∧ s.pc.toNat % 4 = 0 ∧ insideBacking s s.pc 4 ∧
        decode [memByte s.mem s.pc.toNat, memByte s.mem (s.pc.toNat + 1), memByte s.mem (s.pc.toNat + 2),
          memByte s.mem (s.pc.toNat + 3)] = .ok (.addiW 4 5 0xFFF, []) := by
  simp only [List.forall_mem_cons, canStep, insideBacking]
  refine ⟨?_, ?_, ?_, ?_⟩ <;> first | (intro _ h; cases h) | (refine ⟨⟨rfl, by decide⟩, by decide, by decide, by decide, by rfl⟩)

/-- The pc at the first and the last word of a region. -/
theorem witness_FetchFromRegionRunsDeviceWord :
    ∀ a ∈ [0x10000000#32, 0x10000FFC#32], ∃ g i,
      let s := { withDevice with pc := a }
      canStep s ∧ stillWaiting (sampleLines s) = false ∧ s.pc.toNat % 4 = 0 ∧ ¬insideBacking s s.pc 4 ∧
        regionOf s.platform s.pc.toNat 4 = some g ∧
        decodeWord (Config.devRead s.draws g.base (s.pc.toNat - g.base)) = some i := by
  intro a ha
  have hd : ∀ w, ∃ i, decodeWord w = some i := fun w => Option.isSome_iff_exists.1 (decodeWord_isSome w)
  obtain ⟨i, hi⟩ := hd (Config.devRead 0 0x10000000 (a.toNat - 0x10000000))
  refine ⟨{ name := "device", base := 0x10000000, size := 0x1000 }, i, ?_⟩
  simp only [List.mem_cons, List.not_mem_nil, or_false] at ha
  rcases ha with rfl | rfl <;> simp only [canStep, insideBacking] <;>
    exact ⟨⟨rfl, by decide⟩, by decide, by decide, by decide, by rfl, hi⟩

theorem witness_SynchronousExceptionBeforeInterrupt :
    let s := interrupted 0xC 0x002B0000
    canStep s ∧ stillWaiting (sampleLines s) = false ∧ s.pc.toNat % 4 = 0 ∧ insideBacking s s.pc 4 ∧
      decodeWord (memReadBytes s.mem s.pc.toNat 4) = some (.syscall 0) ∧
      Raised (.syscall 0) (wake (sampleLines s)) 0xB#6 s.csr.badv := by
  simp only [canStep, insideBacking]
  exact ⟨⟨rfl, by decide⟩, by decide, by decide, by decide, by decide, .syscall 0 _⟩

theorem witness_InterruptIsTaken :
    let s := interrupted 0xF 0x001018A4
    canStep s ∧ stillWaiting (sampleLines s) = false ∧ s.pc.toNat % 4 = 0 ∧ insideBacking s s.pc 4 ∧
      decodeWord (memReadBytes s.mem s.pc.toNat 4) = some (.addW 4 5 6) ∧
      (∀ code badv, ¬Raised (.addW 4 5 6) (wake (sampleLines s)) code badv) ∧
      (sampleLines s).csr.estat &&& s.csr.ecfg &&& 0x00001BFF#32 ≠ 0#32 ∧ crmdIe s = true := by
  simp only [canStep, insideBacking]
  refine ⟨⟨rfl, by decide⟩, by decide, by decide, by decide, by decide, fun code badv h => ?_, by decide, by decide⟩
  cases h <;> simp_all [isPrivileged]

theorem witness_MisalignedPcRaisesAdef :
    ∀ a ∈ [P + 1, P + 2, P + 3], canStep { State.reset with pc := a } ∧
      stillWaiting (sampleLines { State.reset with pc := a }) = false ∧ a.toNat % 4 ≠ 0 := by
  unfold canStep; simp only [List.forall_mem_cons, List.not_mem_nil, false_implies, implies_true, and_true]; decide

/-- A core that waits, and one that an enabled pending interrupt wakes with CRMD.IE = 0. -/
theorem witness_IdleStepWaitsOrWakes :
    (canStep (waiting 4 8) ∧ (waiting 4 8).idle = true ∧
      (sampleLines (waiting 4 8)).csr.estat &&& (waiting 4 8).csr.ecfg &&& 0x00001BFF#32 = 0#32) ∧
    (canStep (waiting 4 4) ∧ (waiting 4 4).idle = true ∧
      (sampleLines (waiting 4 4)).csr.estat &&& (waiting 4 4).csr.ecfg &&& 0x00001BFF#32 ≠ 0#32) := by
  unfold canStep; decide

theorem witness_TerminalStatusRepeats :
    { State.reset with status := .halted 3 }.status = .halted 3 ∧
      { State.reset with status := .faulted .decodeTable }.status = .faulted .decodeTable ∧
      { State.reset with status := .refused .mappedMode }.status = .refused .mappedMode := ⟨rfl, rfl, rfl⟩

/-- The fault of a result, if it is one. -/
def faultOf : Result → Option Fault
  | .fault f => some f
  | _ => none
theorem eq_fault {r : Result} {f : Fault} (h : faultOf r = some f) : r = .fault f := by
  cases r with
  | fault g => cases h; rfl
  | next t => cases h
  | refused r => cases h

/-- A load out of bound, a byte load from a region; and a fetch just past either end of backing memory. -/
theorem witness_StepFaultsAreRouterFaults :
    (∃ s f, s.status = Status.running ∧ step s = .fault f) ∧
    (∃ s : State, s.status = Status.running ∧ step s = .fault (.mmioWidth 0x10000000 P 1)) ∧
    ∀ a ∈ [0x1BFFFFFC#32, 0x24000000#32], canStep { State.reset with pc := a } ∧
      stillWaiting (sampleLines { State.reset with pc := a }) = false ∧ a.toNat % 4 = 0 ∧
      insideNothing { State.reset with pc := a } a 4 := by
  refine ⟨⟨fetching P 0x288000A4, .outOfBound 0 P 0x1C000000 0x23FFFFFF, rfl, eq_fault (by decide)⟩,
    ⟨writeReg 5 0x10000000 { fetching P 0x280000A4 with platform := otherPlatform }, rfl, eq_fault (by decide)⟩, ?_⟩
  unfold canStep insideNothing insideBacking
  simp only [List.forall_mem_cons, List.not_mem_nil, false_implies, implies_true, and_true]; decide

theorem witness_StepRefusalsAreTheSpecs :
    (∀ v ∈ [0x00000000#32, 0x00000010#32, 0x00000018#32],
      (withCsr (fun r => { r with crmd := v }) State.reset).status = .running ∧
        (v.getLsbD 3 = false ∨ v.getLsbD 4 = true)) ∧
    (fetching P 0x06482800).status = .running ∧ (fetching P 0x06482800).csr.crmd.getLsbD 3 = true ∧
      (fetching P 0x06482800).csr.crmd.getLsbD 4 = false ∧
      refusal (step (fetching P 0x06482800)) = some .tlbInstruction := by
  simp only [List.forall_mem_cons, List.not_mem_nil, false_implies, implies_true, and_true]; decide

/-- Every statement about PLV0: the state after reset; ErtnCompletes with and without KLO. -/
theorem witness_plv0 :
    crmdPlv State.reset = 0#2 ∧ llbctlKlo State.reset = false ∧
      (let s := withCsr (fun r => { r with llbctl := 4 }) State.reset
       crmdPlv s = 0#2 ∧ llbctlKlo s = true) ∧ (6#5).toNat ≤ 6 := by decide

theorem witness_PrivilegedInstructionsRaiseIpe :
    (∀ v ∈ [0x9#32, 0xA#32, 0xB#32], crmdPlv (trapping v State.reset) ≠ 0#2) ∧ isPrivileged .ertn = true ∧
      isPrivileged (.invtlb 6 0 0) = true ∧ raises .ertn (trapping 0xB State.reset) = some causeIpe ∧
      causeIpe.name = .ipe := by
  simp only [List.forall_mem_cons, List.not_mem_nil, false_implies, implies_true, and_true]; decide

theorem witness_BreakHaltsOrRaisesBrk :
    State.reset.platform.breakIsHalt = true ∧ withDevice.platform.breakIsHalt = false := by decide

theorem witness_InvalidInstructionsRaiseIne : 6 < (7#5).toNat ∧ 6 < (31#5).toNat := by decide

/-- The address of a displacement from r5 = A, at the misaligned displacements of each width. -/
theorem witness_MisalignedAccessesRaiseAle :
    let s := withRegs [(5, A + 1)]
    (readReg s 5 + (0#12).signExtend 32).toNat % 2 ≠ 0 ∧ (readReg s 5 + (0xFFE#12).signExtend 32).toNat % 2 ≠ 0 ∧
      (∀ d ∈ [0#12, 1#12, 2#12], (readReg s 5 + d.signExtend 32).toNat % 4 ≠ 0) ∧
      (readReg s 5 + BitVec.ofInt 32 ((0x2000#14).toInt * 4)).toNat % 4 ≠ 0 := by
  simp only [List.forall_mem_cons, List.not_mem_nil, false_implies, implies_true, and_true]; decide

/-- A zero divisor, the smallest nonzero divisor, the overflow, and a divisor -1 without overflow. -/
theorem witness_DivideResults :
    readReg (withRegs [(5, 5)]) 6 = 0#32 ∧ readReg (withRegs [(5, 5), (6, 1)]) 6 ≠ 0#32 ∧
      (let s := withRegs [(5, 0x80000000), (6, 0xFFFFFFFF)]
       readReg s 5 = 0x80000000#32 ∧ readReg s 6 = 0xFFFFFFFF#32) ∧
      (let s := withRegs [(5, 0x80000001), (6, 0xFFFFFFFF)]
       readReg s 6 ≠ 0#32 ∧ ¬(readReg s 5 = 0x80000000#32 ∧ readReg s 6 = 0xFFFFFFFF#32)) := by decide

/-- The first and the last byte, half-word and word of backing memory: for LoadsComplete, StoresComplete,
StoreThenLoadReturnsValue, LoadLinkedCompletes and StoreConditionalCompletes. -/
theorem witness_backing_accesses :
    (∀ a ∈ [0x1C000000#32, 0x23FFFFFF#32], insideBacking State.reset a 1) ∧
    (∀ a ∈ [0x1C000000#32, 0x23FFFFFE#32], insideBacking State.reset a 2 ∧ a.toNat % 2 = 0) ∧
    (∀ a ∈ [0x1C000000#32, 0x23FFFFFC#32], insideBacking State.reset a 4 ∧ a.toNat % 4 = 0) ∧
    ∀ a : Word, readReg (withRegs [(5, a)]) 5 + (0#12).signExtend 32 = a ∧
      readReg (withRegs [(5, a)]) 5 + BitVec.ofInt 32 ((0#14).toInt * 4) = a := by
  unfold insideBacking
  refine ⟨?_, ?_, ?_, fun a => ?_⟩
  iterate 3 (simp only [List.forall_mem_cons, List.not_mem_nil, false_implies, implies_true, and_true]; decide)
  have h : readReg (withRegs [(5, a)]) 5 = a := rfl
  rw [h]
  exact ⟨by simp, by simp⟩

/-- StoreThenLoadReturnsValue's misaligned clause; and the LLbit of StoreConditionalCompletes, which is clear after
reset. -/
theorem witness_misaligned_word_and_llbit :
    (readReg (withRegs [(5, A + 3)]) 5 + (0#12).signExtend 32).toNat % 4 ≠ 0 ∧ State.reset.llbit = false ∧
      { State.reset with llbit := true }.llbit = true := by decide

/-- The first and the last word of a region, with the LLbit set, for RegionLinkedAccessesComplete. -/
theorem witness_RegionLinkedAccessesComplete :
    ∀ v ∈ [0x10000000#32, 0x10000FFC#32],
      let s := { writeReg 5 v withDevice with llbit := true }
      let a := readReg s 5 + BitVec.ofInt 32 ((0#14).toInt * 4)
      a.toNat % 4 = 0 ∧ ¬insideBacking s a 4 ∧ s.llbit = true ∧
        regionOf s.platform a.toNat 4 = some { name := "device", base := 0x10000000, size := 0x1000 } := by
  unfold insideBacking; simp only [List.forall_mem_cons, List.not_mem_nil, false_implies, implies_true, and_true]; decide

/-- The first and the last word of a region, for RegionWordAccessesComplete, through r5. -/
theorem witness_RegionWordAccessesComplete :
    ∀ v ∈ [0x10000000#32, 0x10000FFC#32],
      let s := writeReg 5 v withDevice
      let a := readReg s 5 + (0#12).signExtend 32
      a.toNat % 4 = 0 ∧ ¬insideBacking s a 4 ∧
        regionOf s.platform a.toNat 4 = some { name := "device", base := 0x10000000, size := 0x1000 } := by
  unfold insideBacking; simp only [List.forall_mem_cons, List.not_mem_nil, false_implies, implies_true, and_true]; decide

/-- Narrow accesses to the last byte and half-word of a region; and accesses one byte past either end of backing memory,
with the LLbit set. -/
theorem witness_FailedAccessesFault :
    (¬insideBacking withDevice 0x10000FFF 1 ∧ (regionOf withDevice.platform 0x10000FFF 1).isSome = true) ∧
    (0x10000FFE % 2 = 0 ∧ ¬insideBacking withDevice 0x10000FFE 2 ∧
      (regionOf withDevice.platform 0x10000FFE 2).isSome = true) ∧
    (∀ a ∈ [0x1BFFFFFF#32, 0x24000000#32], insideNothing State.reset a 1) ∧
    (∀ a ∈ [0x1BFFFFFE#32, 0x24000000#32], a.toNat % 2 = 0 ∧ insideNothing State.reset a 2) ∧
    (∀ a ∈ [0x1BFFFFFC#32, 0x24000000#32], a.toNat % 4 = 0 ∧ insideNothing State.reset a 4) ∧
    insideNothing withDevice 0x10001000 4 ∧ { State.reset with llbit := true }.llbit = true := by
  unfold insideNothing insideBacking; simp only [List.forall_mem_cons, List.not_mem_nil, false_implies, implies_true, and_true]; decide

/-- CsrAccessCompletes at PLV0 names every implemented CSR; UnimplementedCsrAccess, numbers that none has. -/
theorem witness_UnimplementedCsrAccess :
    ∀ n ∈ [0x003#14, 0x7FF#14, 0x3FFF#14], crmdPlv State.reset = 0#2 ∧ ∀ c, specNumber c ≠ n := by
  simp only [List.forall_mem_cons, List.not_mem_nil, false_implies, implies_true, and_true]
  refine ⟨⟨by decide, fun c => ?_⟩, ⟨by decide, fun c => ?_⟩, by decide, fun c => ?_⟩ <;> cases c <;> decide
theorem witness_CsrAccessCompletes :
    crmdPlv State.reset = 0#2 ∧ csrReads .crmd State.reset 8#32 ∧ csrReads .asid State.reset 0x000A0000#32 := by
  unfold csrReads; decide

/-- The timer at its boundaries: stopped; TVAL 2; TVAL 1 and 0, with and without reload. -/
theorem witness_TimerTickEffect :
    State.reset.timerEn = false ∧
    (let s := withCsr (fun r => { r with tval := 2 }) { State.reset with timerEn := true }
     s.timerEn = true ∧ 1 < s.csr.tval.toNat) ∧
    (∀ v ∈ [0#32, 1#32], ∀ c ∈ [0#32, 2#32],
      let s := withCsr (fun r => { r with tval := v, tcfg := c }) { State.reset with timerEn := true }
      s.timerEn = true ∧ s.csr.tval.toNat ≤ 1 ∧ (s.csr.tcfg.getLsbD 1 = true ∨ s.csr.tcfg.getLsbD 1 = false)) := by
  simp only [List.forall_mem_cons, List.not_mem_nil, false_implies, implies_true, and_true]; decide

theorem witness_OneShotCountdown :
    let s := withCsr (fun r => { r with tval := 4, tcfg := 5 }) { State.reset with timerEn := true }
    s.timerEn = true ∧ s.csr.tcfg.getLsbD 1 = false ∧ 0 < s.csr.tval.toNat ∧ 3 < s.csr.tval.toNat ∧
      s.csr.tval.toNat ≤ 4 := by decide

/-- A step that goes on, for every statement whose hypothesis is `step s = .next t`: StepRefreshesCounter,
RegisterZeroIsZero and the invariants; the state meets the invariants too. -/
theorem witness_step_goes_on :
    let s := writeReg 5 (A + 4) (fetching P 0x297FF8A4)
    canStep s ∧ (∃ t, step s = .next t) ∧ memoryCanonical s ∧ memoryInside s ∧ causeIsRaised s ∧ singleCore s := by
  refine ⟨⟨rfl, by decide⟩, exists_next (by decide), ⟨by decide, by decide⟩, ?_, by unfold causeIsRaised; decide,
    by unfold singleCore; decide⟩
  have h : ∀ c ∈ (fetching P 0x297FF8A4).mem, 0x1C000000 ≤ c.1 ∧ c.1 < 0x1C000000 + 0x08000000 := by decide
  exact ⟨h, fun c hc => absurd hc List.not_mem_nil⟩

theorem witness_StepKeepsReservedBits :
    reservedBitsZero (fetching P 0x04001424) ∧ ∃ t, step (fetching P 0x04001424) = .next t := by
  refine ⟨fun c => ?_, exists_next (by decide)⟩
  cases c <;> decide

/-- Line 2 raised and pending, line 9 raised: the pending bit has its line, and the step goes on. For
StepKeepsLinesAndPlatform and SampleFollowsLines. -/
theorem witness_pendingHaveLines :
    let s := withCsr (fun r => { r with estat := 4 }) { fetching P 0x001018A4 with lines := 0x204 }
    pendingHaveLines s ∧ ∃ t, step s = .next t := by
  refine ⟨fun k h2 h9 => ?_, exists_next (by decide)⟩
  have : k ∈ List.range 10 := by simp; omega
  revert k
  decide

theorem witness_InterruptLineControl : 0 < 32 ∧ 31 < 32 := by decide

/-- Malformed in each way, at the boundary; the largest region that joins below backing memory; and a region around an
empty backing memory, with which it shares no address (log 16). -/
theorem witness_RegionRegistration :
    (0 = 0 ∧ 2 ^ 32 < 0xFFFFF000 + 0x1001) ∧
    ((0x1BFFF000 : Nat) ≤ 0x1C000000 ∧ 0x1C000000 < 0x1BFFF000 + 0x1001 ∧ State.reset.platform.pmemBase ≤ 0x1C000000 ∧
      0x1C000000 < State.reset.platform.pmemBase + State.reset.platform.pmemSize) ∧
    (∃ h ∈ withDevice.platform.regions, h.base ≤ 0x10000FFF ∧ 0x10000FFF < h.base + h.size) ∧
    malformedRegistration { name := "low", base := 0, size := 0x1C000000 } State.reset.platform = false ∧
    malformedRegistration { name := "around", base := 0x1BFFF000, size := 0x2000 }
      { State.reset.platform with pmemSize := 0 } = false ∧
    (0x1C000000 ≠ 0 ∧ 0 + 0x1C000000 ≤ 2 ^ 32 ∧
      ¬∃ a, 0 ≤ a ∧ a < 0 + 0x1C000000 ∧
        ((State.reset.platform.pmemBase ≤ a ∧ a < State.reset.platform.pmemBase + State.reset.platform.pmemSize) ∨
          ∃ h ∈ State.reset.platform.regions, h.base ≤ a ∧ a < h.base + h.size)) := by
  refine ⟨by decide, by decide, by decide, by decide, by decide, by decide, by decide, ?_⟩
  have hb : State.reset.platform.pmemBase = 0x1C000000 := rfl
  have hr : State.reset.platform.regions = [] := rfl
  rw [hb, hr]
  rintro ⟨a, h0, h1, h2 | ⟨h, hh, _⟩⟩
  · omega
  · exact absurd hh List.not_mem_nil

/-- The last word, half-word and byte inside; a straddling access outside (95_test_vectors.md S5); the last word and byte of
a region. -/
theorem witness_HostPhysicalAccess :
    insideBacking State.reset 0x23FFFFFC (widthBytes .word) ∧ insideBacking State.reset 0x23FFFFFE (widthBytes .half) ∧
      insideBacking State.reset 0x23FFFFFF (widthBytes .byte) ∧
      insideNothing State.reset 0x23FFFFFE (widthBytes .word) ∧
      insideNothing State.reset 0x1BFFFFFF (widthBytes .byte) ∧
      (¬insideBacking withDevice 0x10000FFC (widthBytes .word) ∧
        (regionOf withDevice.platform 0x10000FFC (widthBytes .word)).isSome = true) ∧
      (¬insideBacking withDevice 0x10000FFF (widthBytes .byte) ∧
        (regionOf withDevice.platform 0x10000FFF (widthBytes .byte)).isSome = true) := by
  unfold insideNothing insideBacking; decide

/-- An unprivileged step that goes on quietly, and one that enters a handler. -/
theorem witness_UnprivilegedStepIsConfined :
    ∀ w ∈ [0x001018A4#32, 0x002B0000#32],
      canStep (trapping 0xB (fetching P w)) ∧ crmdPlv (trapping 0xB (fetching P w)) ≠ 0#2 ∧
        ∃ t, step (trapping 0xB (fetching P w)) = .next t := by
  intro w hw
  simp only [List.mem_cons, List.not_mem_nil, or_false] at hw
  rcases hw with rfl | rfl <;> exact ⟨⟨rfl, by decide⟩, by decide, exists_next (by decide)⟩

end Sys2Proof.Tests
end

section
/-! PROOFS. Register 0 (10_state.md R31, R32). -/

namespace Sys2Proof.Machine

/-- Phase D leaves 0 in r0's slot, whatever the step wrote there (60_exceptions.md R402). -/
theorem r0IsZero_endOfStep (s : State) : r0IsZero (endOfStep s) := by
  simp [r0IsZero]

/-- Phase D ends every step of a running core that goes on, idle or not (60_exceptions.md R403, R404). -/
theorem step_of_canStep_endsWithPhaseD {s t : State} (hs : canStep s) (h : step s = .next t) :
    ∃ u, t = endOfStep u := by
  obtain ⟨hrun, _⟩ := hs
  rcases step_eq_next h with ⟨⟨c, hhalt⟩, _⟩ | ⟨_, _, ⟨_, hidle⟩ | ⟨_, u, _, hawake⟩⟩
  · rw [hrun] at hhalt
    cases hhalt
  · exact ⟨_, hidle⟩
  · exact ⟨u, hawake⟩

/-- Settles O55: phase D ends the step and zeroes the slot. -/
theorem registerZeroIsZero : Obligations.RegisterZeroIsZero := by
  refine ⟨readReg_zero, fun s t hs h => ?_⟩
  obtain ⟨u, rfl⟩ := step_of_canStep_endsWithPhaseD hs h
  exact r0IsZero_endOfStep u

end Sys2Proof.Machine
end

section
/-! PROOFS. The overlapping words of the catalog (30_encoding.md R161, R162): a row that the opcode bits do not reject is
rejected by a register field it fixes. -/

namespace Sys2Proof

/-! ## A word from its fields -/

/-- Words that agree in a field agree in its bits. -/
theorem getLsbD_eq_of_extractLsb'_eq {w m : Word} {lo len i : Nat} (h : w.extractLsb' lo len = m.extractLsb' lo len)
    (hlo : lo ≤ i) (hi : i < lo + len) : w.getLsbD i = m.getLsbD i := by
  have hbit := congrArg (·.getLsbD (i - lo)) h
  simpa [show i - lo < len by omega, show lo + (i - lo) = i by omega] using hbit

/-- A word with the opcode bits of `m` is the 2R format of `m` with the word's own fields. -/
theorem enc2R_fields_eq {w m : Word} (h : w.extractLsb' 10 22 = m.extractLsb' 10 22) :
    enc2R m (fieldRj w) (fieldRd w) = w := by
  apply BitVec.eq_of_getLsbD_eq
  intro i hi
  rw [getLsbD_enc2R]
  split_ifs with hd hj
  · simp [fieldRd, hd]
  · simp [fieldRj, show i - 5 < 5 by omega, show 5 + (i - 5) = i by omega]
  · exact (getLsbD_eq_of_extractLsb'_eq h (by omega) (by omega)).symm

/-- A word with the opcode bits of `m` is the CSR format of `m` with the word's own fields. -/
theorem enc2RI14_fields_eq {w m : Word} (h : w.extractLsb' 24 8 = m.extractLsb' 24 8) :
    enc2RI14 m (fieldI14 w) (fieldRj w) (fieldRd w) = w := by
  apply BitVec.eq_of_getLsbD_eq
  intro i hi
  rw [getLsbD_enc2RI14]
  split_ifs with hd hj hc
  · simp [fieldRd, hd]
  · simp [fieldRj, show i - 5 < 5 by omega, show 5 + (i - 5) = i by omega]
  · simp [fieldI14, show i - 10 < 14 by omega, show 10 + (i - 10) = i by omega]
  · exact (getLsbD_eq_of_extractLsb'_eq h (by omega) (by omega)).symm

/-! ## The rows a field rejects -/

/-- Row `r` fixes the `len` bits from `lo`, at the value `v`. -/
def Row.fixesField (r : Row) (lo len : Nat) (v : BitVec len) : Bool :=
  r.mask.extractLsb' lo len == BitVec.allOnes len && r.pattern.extractLsb' lo len == v

/-- A word that matches a row has the value the row fixes in a field. -/
theorem extractLsb'_eq_of_rowMatches {r : Row} {w : Word} {lo len : Nat} {v : BitVec len}
    (hf : r.fixesField lo len v = true) (hw : rowMatches r w = true) : w.extractLsb' lo len = v := by
  obtain ⟨hmask, hpattern⟩ : r.mask.extractLsb' lo len = BitVec.allOnes len ∧ r.pattern.extractLsb' lo len = v := by
    simpa [Row.fixesField] using hf
  rw [← hpattern, ← rowMatches_iff.1 hw, BitVec.extractLsb'_and, hmask, BitVec.and_allOnes]

theorem not_rowMatches_of_fixesField {r : Row} {w : Word} {lo len : Nat} {v : BitVec len}
    (hf : r.fixesField lo len v = true) (hv : w.extractLsb' lo len ≠ v) : rowMatches r w = false :=
  Bool.eq_false_iff.2 fun hw => hv (extractLsb'_eq_of_rowMatches hf hw)

/-- A word whose bits under `m` are `p` does not match a row whose fixed bits clash with these. -/
theorem not_rowMatches_of_group {q : Row} {w p m : Word} (hg : w &&& m = p) (h : p &&& q.mask ≠ q.pattern &&& m) :
    rowMatches q w = false :=
  not_rowMatches_of_clash (r := { mnemonic := "", pattern := p, mask := m, build := .invalid }) (rowMatches_iff.2 hg) h

/-- The row at place `k` decodes a word it matches, when no row before it does (30_encoding.md R160). -/
theorem decodeWord_of_first_row {w : Word} {r : Row} (k : Nat) (hr : catalog[k]? = some r)
    (hw : w &&& r.mask = r.pattern) (hb : ∀ q ∈ catalog.take k, rowMatches q w = false) :
    decodeWord w = some (r.build w) := by
  obtain ⟨hk, rfl⟩ := List.getElem?_eq_some_iff.1 hr
  refine decodeWord_of_split (before := catalog.take k) (after := catalog.drop (k + 1)) ?_ hb (rowMatches_iff.2 hw)
  rw [← List.drop_eq_getElem_cons hk, List.take_append_drop]

/-- A word that no row before the wildcard matches is invalid (30_encoding.md R163). -/
theorem decodeWord_eq_invalid {w : Word} (hb : ∀ q ∈ catalog.take 67, rowMatches q w = false) :
    decodeWord w = some (.invalid w) :=
  decodeWord_of_first_row 67 rfl BitVec.and_zero hb

/-! ## The counter reads (30_encoding.md R162) -/

/-- The opcode bits of a 2R word, as its bits under their mask. -/
theorem and_mask_of_opcode22 {w m : Word} (hm : m &&& 0xFFFFFC00#32 = m) (h : w.extractLsb' 10 22 = m.extractLsb' 10 22) :
    w &&& 0xFFFFFC00#32 = m := by
  have mask_bits : ∀ i, i < 32 → (0xFFFFFC00#32).getLsbD i = decide (10 ≤ i) := by decide
  refine and_mask_eq_of_bits hm fun i hi hb => ?_
  rw [mask_bits i hi, decide_eq_true_eq] at hb
  exact getLsbD_eq_of_extractLsb'_eq h hb (by omega)

theorem decodeWord_rdcntvlW {w : Word} (hop : w.extractLsb' 10 22 = 0x18#22) (hj : fieldRj w = 0#5) :
    decodeWord w = some (.rdcntvlW (fieldRd w)) := by
  have hw : enc2R 0x00006000#32 (fieldRj w) (fieldRd w) = w := enc2R_fields_eq hop
  rw [hj] at hw
  exact decodeWord_of_row 0 rfl (hw ▸ enc2R_fixed_rd (by decide) (by decide) (fieldRd w)) (by decide)

theorem decodeWord_rdcntidW {w : Word} (hop : w.extractLsb' 10 22 = 0x18#22) (hj : fieldRj w ≠ 0#5)
    (hd : fieldRd w = 0#5) : decodeWord w = some (.rdcntidW (fieldRj w)) := by
  have hw : enc2R 0x00006000#32 (fieldRj w) (fieldRd w) = w := enc2R_fields_eq hop
  rw [hd] at hw
  have hbefore : ∀ q ∈ catalog.take 1, q.fixesField 5 5 0#5 = true := by decide
  exact decodeWord_of_first_row 1 rfl (hw ▸ enc2R_fixed_rj (by decide) (by decide) (fieldRj w))
    fun q hq => not_rowMatches_of_fixesField (hbefore q hq) hj

theorem decodeWord_rdcntvhW {w : Word} (hop : w.extractLsb' 10 22 = 0x19#22) (hj : fieldRj w = 0#5) :
    decodeWord w = some (.rdcntvhW (fieldRd w)) := by
  have hw : enc2R 0x00006400#32 (fieldRj w) (fieldRd w) = w := enc2R_fields_eq hop
  rw [hj] at hw
  exact decodeWord_of_row 2 rfl (hw ▸ enc2R_fixed_rd (by decide) (by decide) (fieldRd w)) (by decide)

/-- With `inst[31:10] = 0x18`, RDCNTVL.W asks for `rj = 0`, RDCNTID.W for `rd = 0`, and no other row has the opcode. -/
theorem decodeWord_invalid_of_opcode_0x18 {w : Word} (hop : w.extractLsb' 10 22 = 0x18#22) (hj : fieldRj w ≠ 0#5)
    (hd : fieldRd w ≠ 0#5) : decodeWord w = some (.invalid w) := by
  have hg : w &&& 0xFFFFFC00#32 = 0x00006000#32 := and_mask_of_opcode22 (by decide) hop
  have hrows : ∀ q ∈ catalog.take 67, q.fixesField 5 5 0#5 = true ∨ q.fixesField 0 5 0#5 = true ∨
      0x00006000#32 &&& q.mask ≠ q.pattern &&& 0xFFFFFC00#32 := by decide
  refine decodeWord_eq_invalid fun q hq => ?_
  rcases hrows q hq with hfix | hfix | hclash
  · exact not_rowMatches_of_fixesField hfix hj
  · exact not_rowMatches_of_fixesField hfix hd
  · exact not_rowMatches_of_group hg hclash

/-- With `inst[31:10] = 0x19`, RDCNTVH.W asks for `rj = 0`, and no other row has the opcode. -/
theorem decodeWord_invalid_of_opcode_0x19 {w : Word} (hop : w.extractLsb' 10 22 = 0x19#22) (hj : fieldRj w ≠ 0#5) :
    decodeWord w = some (.invalid w) := by
  have hg : w &&& 0xFFFFFC00#32 = 0x00006400#32 := and_mask_of_opcode22 (by decide) hop
  have hrows : ∀ q ∈ catalog.take 67, q.fixesField 5 5 0#5 = true ∨
      0x00006400#32 &&& q.mask ≠ q.pattern &&& 0xFFFFFC00#32 := by decide
  refine decodeWord_eq_invalid fun q hq => ?_
  rcases hrows q hq with hfix | hclash
  · exact not_rowMatches_of_fixesField hfix hj
  · exact not_rowMatches_of_group hg hclash

/-! ## The CSR instructions (30_encoding.md R161) -/

theorem decodeWord_csrrd {w : Word} (hop : w.extractLsb' 24 8 = 0x04#8) (hj : fieldRj w = 0#5) :
    decodeWord w = some (.csrrd (fieldRd w) (fieldI14 w)) := by
  have hw : enc2RI14 0x04000000#32 (fieldI14 w) (fieldRj w) (fieldRd w) = w := enc2RI14_fields_eq hop
  rw [hj] at hw
  exact decodeWord_of_row 32 rfl (hw ▸ enc2RI14_fixed_rj 0#5 (by decide) (by decide) (fieldI14 w) (fieldRd w)) (by decide)

theorem decodeWord_csrwr {w : Word} (hop : w.extractLsb' 24 8 = 0x04#8) (hj : fieldRj w = 1#5) :
    decodeWord w = some (.csrwr (fieldRd w) (fieldI14 w)) := by
  have hw : enc2RI14 0x04000020#32 (fieldI14 w) (fieldRj w) (fieldRd w) = w := enc2RI14_fields_eq hop
  rw [hj] at hw
  exact decodeWord_of_row 33 rfl (hw ▸ enc2RI14_fixed_rj 1#5 (by decide) (by decide) (fieldI14 w) (fieldRd w)) (by decide)

/-- The rows before CSRXCHG either have another opcode or are CSRRD and CSRWR, which fix `rj`. -/
theorem decodeWord_csrxchg {w : Word} (hop : w.extractLsb' 24 8 = 0x04#8) (h0 : fieldRj w ≠ 0#5)
    (h1 : fieldRj w ≠ 1#5) : decodeWord w = some (.csrxchg (fieldRd w) (fieldRj w) (fieldI14 w)) := by
  have hw : enc2RI14 0x04000000#32 (fieldI14 w) (fieldRj w) (fieldRd w) = w := enc2RI14_fields_eq hop
  have hg : w &&& 0xFF000000#32 = 0x04000000#32 :=
    hw ▸ enc2RI14_fixed (by decide) (fieldI14 w) (fieldRj w) (fieldRd w)
  have hbefore : ∀ q ∈ catalog.take 34, q.fixesField 5 5 0#5 = true ∨ q.fixesField 5 5 1#5 = true ∨
      0x04000000#32 &&& q.mask ≠ q.pattern &&& 0xFF000000#32 := by decide
  refine decodeWord_of_first_row 34 rfl hg fun q hq => ?_
  rcases hbefore q hq with hfix | hfix | hclash
  · exact not_rowMatches_of_fixesField hfix h0
  · exact not_rowMatches_of_fixesField hfix h1
  · exact not_rowMatches_of_group hg hclash

end Sys2Proof

namespace Sys2Proof.Machine

/-! ## RDCNTVL.W r0 -/

/-- A register write and the advance of the pc is all that `completesWriting` asks for. -/
theorem completesWriting_of_exec_eq {i : Instr} {s : State} {rd : Reg} {v : Word}
    (h : exec i s = .next (advance (writeReg rd v s))) : completesWriting i s rd v := by
  refine ⟨_, h, ⟨?_, fun r hr => ?_⟩, by simp, by simp [sameBesideRegs, sameHidden, sameMemory, sameDevices]⟩
  · rw [readReg_advance, readReg_writeReg_same]
  · rw [readReg_advance, readReg_writeReg_other v s hr]

/-- A result written to r0 is discarded (10_state.md R31). -/
theorem completesIdly_of_completesWriting_zero {i : Instr} {s : State} {v : Word} (h : completesWriting i s 0#5 v) :
    completesIdly i s := by
  obtain ⟨t, hexec, ⟨_, hothers⟩, hpc, hrest⟩ := h
  refine ⟨t, hexec, fun r => ?_, hpc, hrest⟩
  by_cases hr : r = 0#5
  · rw [hr, readReg_zero, readReg_zero]
  · exact hothers r hr

theorem exec_rdcntvlW (rd : Reg) (s : State) :
    exec (.rdcntvlW rd) s = .next (advance (writeReg rd (s.counter.extractLsb' 0 32) s)) := rfl

/-- Settles O4: the rows that share a word are told apart by the register fields they fix, and what RDCNTVL.W writes to
r0 is discarded. -/
theorem overlappingWords : Obligations.OverlappingWords := by
  refine ⟨fun w hop => ⟨decodeWord_rdcntvlW hop, decodeWord_rdcntidW hop, decodeWord_invalid_of_opcode_0x18 hop⟩,
    fun w hop => ⟨decodeWord_rdcntvhW hop, decodeWord_invalid_of_opcode_0x19 hop⟩, ?_, fun s => ?_,
    fun w hop => ⟨decodeWord_csrrd hop, decodeWord_csrwr hop, decodeWord_csrxchg hop⟩⟩
  · exact decodeWord_rdcntvlW (by decide) (by decide)
  · exact completesIdly_of_completesWriting_zero (completesWriting_of_exec_eq (exec_rdcntvlW 0#5 s))

end Sys2Proof.Machine
end

section
/-! PROOFS. The integer results (40_integer.md): the word each operation of the arithmetic unit computes is the number its
rule names, and every instruction of the chapter writes that word and goes on (R200). -/

namespace Sys2Proof.Machine

/-! ## Writing a result (40_integer.md R200) -/

/-- An instruction whose meaning is to write the word `w` completes by writing any `v` that `w` is shown equal to. -/
theorem completesWriting_of_result {i : Instr} {s : State} {rd : Reg} {v w : Word}
    (hexec : exec i s = writeResult rd w s) (hw : w = v) : completesWriting i s rd v :=
  hw ▸ completesWriting_of_exec_eq hexec

/-! ## Immediates as numbers (30_encoding.md R153) -/

theorem toInt_immSi12 (si12 : BitVec 12) : (immSi12 si12).toInt = si12.toInt :=
  BitVec.toInt_signExtend_of_le (by omega)

theorem immSi20u_eq (si20 : BitVec 20) : immSi20u si20 = BitVec.ofNat 32 (si20.toNat * 4096) := by
  have hfits := si20.isLt
  refine BitVec.eq_of_toNat_eq ?_
  simp only [immSi20u, toNat_append_field, BitVec.toNat_ofNat]
  omega

/-- A zero-extended immediate has no bit from 12 on. -/
theorem getLsbD_immUi12 (ui12 : BitVec 12) {k : Nat} (hk : k < 32) :
    (immUi12 ui12).getLsbD k = (decide (k < 12) && ui12.getLsbD k) := by
  rw [immUi12, BitVec.getLsbD_setWidth, decide_eq_true hk, Bool.true_and]
  by_cases hlow : k < 12
  · rw [decide_eq_true hlow, Bool.true_and]
  · rw [decide_eq_false hlow, Bool.false_and, BitVec.getLsbD_of_ge ui12 k (Nat.le_of_not_lt hlow)]

/-! ## Sums and differences (40_integer.md R201 to R204, R209) -/

/-- A sum modulo `2^w` may be taken of the signed values. -/
theorem add_eq_ofInt {w : Nat} (a b : BitVec w) : a + b = BitVec.ofInt w (a.toInt + b.toInt) := by
  rw [BitVec.ofInt_add, BitVec.ofInt_toInt, BitVec.ofInt_toInt]

/-- A difference modulo `2^w` may be taken of the signed values. -/
theorem sub_eq_ofInt {w : Nat} (a b : BitVec w) : a - b = BitVec.ofInt w (a.toInt - b.toInt) := by
  refine BitVec.eq_of_toInt_eq ?_
  rw [BitVec.toInt_sub, BitVec.toInt_ofInt]

theorem add_immSi12_eq (a : Word) (si12 : BitVec 12) :
    a + immSi12 si12 = BitVec.ofInt 32 (a.toInt + si12.toInt) := by
  rw [add_eq_ofInt, toInt_immSi12]

theorem add_immSi20u_eq (a : Word) (si20 : BitVec 20) :
    a + immSi20u si20 = BitVec.ofNat 32 (a.toNat + si20.toNat * 4096) := by
  rw [immSi20u_eq, BitVec.ofNat_add, BitVec.ofNat_toNat, BitVec.setWidth_eq]

/-- Settles O24: addition and subtraction modulo 2^32 agree on the signed and the unsigned reading of a word. -/
theorem addSubtractResults : Obligations.AddSubtractResults := fun _ _ _ _ =>
  ⟨completesWriting_of_result rfl (BitVec.add_def _ _), completesWriting_of_result rfl (sub_eq_ofInt _ _),
    fun si12 => completesWriting_of_result rfl (add_immSi12_eq _ si12),
    fun si20 => completesWriting_of_result rfl (immSi20u_eq si20),
    fun si20 => completesWriting_of_result rfl (add_immSi20u_eq _ si20)⟩

/-! ## Comparisons (40_integer.md R205 to R208) -/

theorem truthWord_lessSigned (a b : Word) :
    truthWord (lessSigned a b) = if a.toInt < b.toInt then 1#32 else 0#32 := by
  simp [truthWord, lessSigned]

theorem truthWord_lessUnsigned (a b : Word) :
    truthWord (lessUnsigned a b) = if a.toNat < b.toNat then 1#32 else 0#32 := by
  simp [truthWord, lessUnsigned]

theorem truthWord_lessSigned_immSi12 (a : Word) (si12 : BitVec 12) :
    truthWord (lessSigned a (immSi12 si12)) = if a.toInt < si12.toInt then 1#32 else 0#32 := by
  rw [truthWord_lessSigned, toInt_immSi12]

/-- Settles O25: sign extension keeps the signed value of SLTI's immediate; SLTUI compares the extended word. -/
theorem compareResults : Obligations.CompareResults := fun _ _ _ si12 _ =>
  ⟨completesWriting_of_result rfl (truthWord_lessSigned _ _),
    completesWriting_of_result rfl (truthWord_lessUnsigned _ _),
    completesWriting_of_result rfl (truthWord_lessSigned_immSi12 _ si12),
    completesWriting_of_result rfl (truthWord_lessUnsigned _ (immSi12 si12))⟩

/-! ## Logic (40_integer.md R210 to R216) -/

/-- Settles O26: the operations act bit by bit, and `getLsbD_immUi12` says the bits of the immediate. -/
theorem logicResults : Obligations.LogicResults := by
  intro rd rj rk ui12 s
  refine ⟨⟨_, completesWriting_of_result rfl rfl, fun k _ => BitVec.getLsbD_and⟩,
    ⟨_, completesWriting_of_result rfl rfl, fun k _ => BitVec.getLsbD_or⟩,
    ⟨_, completesWriting_of_result rfl rfl, fun k hk => ?nor⟩,
    ⟨_, completesWriting_of_result rfl rfl, fun k _ => BitVec.getLsbD_xor⟩,
    ⟨_, completesWriting_of_result rfl rfl, fun k hk => ?andi⟩,
    ⟨_, completesWriting_of_result rfl rfl, fun k hk => ?ori⟩,
    ⟨_, completesWriting_of_result rfl rfl, fun k hk => ?xori⟩⟩
  case nor => rw [BitVec.getLsbD_not, BitVec.getLsbD_or, decide_eq_true hk, Bool.true_and]
  case andi => rw [BitVec.getLsbD_and, getLsbD_immUi12 ui12 hk, Bool.and_assoc]
  case ori => rw [BitVec.getLsbD_or, getLsbD_immUi12 ui12 hk]
  case xori => rw [BitVec.getLsbD_xor, getLsbD_immUi12 ui12 hk]

/-! ## Shifts (40_integer.md R217 to R222) -/

/-- The low five bits of the amount are the amount modulo 32 (40_integer.md R217). -/
theorem shiftAmount_eq (v : Word) : shiftAmount v = v.toNat % 32 := by
  simp [shiftAmount]

theorem shiftLeft_eq_ofNat {w : Nat} (a : BitVec w) (n : Nat) : a <<< n = BitVec.ofNat w (a.toNat * 2 ^ n) := by
  refine BitVec.eq_of_toNat_eq ?_
  rw [BitVec.toNat_shiftLeft, BitVec.toNat_ofNat, Nat.shiftLeft_eq]

theorem ushiftRight_eq_ofNat {w : Nat} (a : BitVec w) (n : Nat) : a >>> n = BitVec.ofNat w (a.toNat / 2 ^ n) := by
  have hfits : a.toNat / 2 ^ n < 2 ^ w := (Nat.div_le_self _ _).trans_lt a.isLt
  refine BitVec.eq_of_toNat_eq ?_
  rw [BitVec.toNat_ushiftRight, BitVec.toNat_ofNat, Nat.shiftRight_eq_div_pow, Nat.mod_eq_of_lt hfits]

/-- An arithmetic shift rounds down: `/` on `Int` with a positive divisor is the floor. -/
theorem sshiftRight_eq_ofInt {w : Nat} (a : BitVec w) (n : Nat) :
    a.sshiftRight n = BitVec.ofInt w (a.toInt / 2 ^ n) := by
  rw [BitVec.sshiftRight_eq, Int.shiftRight_eq_div_pow, Nat.cast_pow, Nat.cast_ofNat]

/-- Settles O27: the three shifts by any amount, and the register amount modulo 32. -/
theorem shiftResults : Obligations.ShiftResults := by
  intro rd rj rk ui5 s
  rw [← shiftAmount_eq]
  exact ⟨completesWriting_of_result rfl (shiftLeft_eq_ofNat _ _),
    completesWriting_of_result rfl (ushiftRight_eq_ofNat _ _),
    completesWriting_of_result rfl (sshiftRight_eq_ofInt _ _),
    completesWriting_of_result rfl (shiftLeft_eq_ofNat _ _),
    completesWriting_of_result rfl (ushiftRight_eq_ofNat _ _),
    completesWriting_of_result rfl (sshiftRight_eq_ofInt _ _)⟩

/-! ## Products (40_integer.md R223 to R225) -/

theorem mul_eq_ofNat {w : Nat} (a b : BitVec w) : a * b = BitVec.ofNat w (a.toNat * b.toNat) := by
  refine BitVec.eq_of_toNat_eq ?_
  rw [BitVec.toNat_mul, BitVec.toNat_ofNat]

/-- The high word of an integer kept modulo 2^64 is the integer divided by 2^32, rounding down, modulo 2^32. -/
theorem extractHigh_ofInt (z : Int) :
    (BitVec.ofInt 64 z).extractLsb' 32 32 = BitVec.ofInt 32 (z / 4294967296) := by
  refine BitVec.eq_of_toNat_eq ?_
  rw [BitVec.extractLsb'_toNat, Nat.shiftRight_eq_div_pow, BitVec.toNat_ofInt, BitVec.toNat_ofInt]
  omega

/-- The product of the sign extensions is the signed product modulo 2^64 (40_integer.md R224). -/
theorem mulHighSigned_eq (a b : Word) : mulHighSigned a b = BitVec.ofInt 32 (a.toInt * b.toInt / 4294967296) := by
  rw [mulHighSigned, ← extractHigh_ofInt, BitVec.ofInt_mul]
  rfl

/-- The product of the zero extensions is the unsigned product modulo 2^64 (40_integer.md R225). -/
theorem mulHighUnsigned_eq (a b : Word) :
    mulHighUnsigned a b = BitVec.ofNat 32 (a.toNat * b.toNat / 4294967296) := by
  have hproduct : a.setWidth 64 * b.setWidth 64 = BitVec.ofInt 64 (a.toNat * b.toNat : Nat) := by
    rw [BitVec.ofInt_natCast, BitVec.ofNat_mul, BitVec.ofNat_toNat, BitVec.ofNat_toNat]
  rw [mulHighUnsigned, hproduct, extractHigh_ofInt, ← BitVec.ofInt_natCast, Int.natCast_ediv, Nat.cast_ofNat]

/-- Settles O28: the low word, and the high words of the 64-bit products. -/
theorem multiplyResults : Obligations.MultiplyResults := fun _ _ _ _ =>
  ⟨completesWriting_of_result rfl (mul_eq_ofNat _ _), completesWriting_of_result rfl (mulHighSigned_eq _ _),
    completesWriting_of_result rfl (mulHighUnsigned_eq _ _)⟩

/-! ## Quotients and remainders (40_integer.md R226 to R229, R232, R233) -/

theorem toNat_divUnsigned {a b : Word} (hb : b ≠ 0#32) : (divUnsigned a b).toNat = a.toNat / b.toNat := by
  rw [divUnsigned, if_neg hb, ← BitVec.udiv_def, BitVec.toNat_udiv]

theorem toNat_modUnsigned {a b : Word} (hb : b ≠ 0#32) : (modUnsigned a b).toNat = a.toNat % b.toNat := by
  rw [modUnsigned, if_neg hb, ← BitVec.umod_def, BitVec.toNat_umod]

/-- But for the overflow, the quotient truncated toward zero fits in a word (40_integer.md R226). -/
theorem toInt_divSigned {a b : Word} (hb : b ≠ 0#32) (hfits : ¬(a = 0x80000000#32 ∧ b = 0xFFFFFFFF#32)) :
    (divSigned a b).toInt = a.toInt.tdiv b.toInt := by
  rw [divSigned, if_neg hb, if_neg hfits, BitVec.toInt_ofInt, ← BitVec.toInt_sdiv]
  exact BitVec.toInt_sdiv_of_ne_or_ne a b (not_and_or.1 hfits)

/-- The remainder is smaller than the dividend and fits in a word (40_integer.md R227). -/
theorem toInt_modSigned {a b : Word} (hb : b ≠ 0#32) (hfits : ¬(a = 0x80000000#32 ∧ b = 0xFFFFFFFF#32)) :
    (modSigned a b).toInt = a.toInt.tmod b.toInt := by
  rw [modSigned, if_neg hb, if_neg hfits, ← BitVec.toInt_srem, BitVec.ofInt_toInt]

/-- Settles O29: the four results, case by case of the divisor and the overflow. -/
theorem divideResults : Obligations.DivideResults := by
  intro rd rj rk s
  refine ⟨divSigned _ _, modSigned _ _, divUnsigned _ _, modUnsigned _ _, completesWriting_of_result rfl rfl,
    completesWriting_of_result rfl rfl, completesWriting_of_result rfl rfl, completesWriting_of_result rfl rfl,
    fun hzero => ?byZero, fun hb => ⟨toNat_divUnsigned hb, toNat_modUnsigned hb⟩, fun ha hb => ?overflow,
    fun hb hfits => ⟨toInt_divSigned hb hfits, toInt_modSigned hb hfits⟩⟩
  case byZero => exact ⟨if_pos hzero, if_pos hzero, if_pos hzero, if_pos hzero⟩
  case overflow => simp [divSigned, modSigned, ha, hb]

end Sys2Proof.Machine
end

section
/-! PROOFS. Control transfer (41_control.md): what a jump leaves unchanged, the targets as numbers, and the condition of
each branch as the relation its rule names. -/

namespace Sys2Proof.Machine

/-! ## Targets (41_control.md R260, R269) -/

theorem branchTarget_eq (offs : BitVec 16) (s : State) :
    branchTarget offs s = s.pc + BitVec.ofInt 32 (offs.toInt * 4) := by
  rw [branchTarget, immOffs16_eq]

theorem jumpTarget_eq (offs : BitVec 26) (s : State) :
    jumpTarget offs s = s.pc + BitVec.ofInt 32 (offs.toInt * 4) := by
  rw [jumpTarget, immOffs26_eq]

theorem indirectTarget_eq (rj : Reg) (offs : BitVec 16) (s : State) :
    indirectTarget rj offs s = readReg s rj + BitVec.ofInt 32 (offs.toInt * 4) := by
  rw [indirectTarget, immOffs16_eq]

/-! ## Jumps and links -/

/-- A jump changes the pc and nothing else. -/
theorem completesJumping_of_exec_eq {i : Instr} {s : State} {target : Word}
    (h : exec i s = .next (jumpTo target s)) : completesJumping i s target := by
  refine ⟨_, h, fun r => readReg_jumpTo target s r, jumpTo_pc target s, ?_⟩
  simp [sameBesideRegs, sameHidden, sameMemory, sameDevices]

/-- A jump that links changes the pc and the linked register, and nothing else. -/
theorem jumpAndLink_of_exec_eq {i : Instr} {s : State} {rd : Reg} {v target : Word}
    (h : exec i s = .next (jumpTo target (writeReg rd v s))) :
    ∃ t, exec i s = .next t ∧ t.pc = target ∧ regWritten rd v s t ∧ sameBesideRegs s t := by
  refine ⟨_, h, jumpTo_pc target _, ⟨?_, fun r hr => ?_⟩, ?_⟩
  · rw [readReg_jumpTo, readReg_writeReg_same]
  · rw [readReg_jumpTo, readReg_writeReg_other v s hr]
  · simp [sameBesideRegs, sameHidden, sameMemory, sameDevices]

/-! ## Conditional branches (41_control.md R260) -/

/-- A branch is a jump either way: not taken, it goes to the next instruction. -/
theorem branchIf_eq_jumpTo (cond : Bool) (offs : BitVec 16) (s : State) :
    branchIf cond offs s = .next (jumpTo (if cond then branchTarget offs s else snpc s) s) := by
  cases cond with
  | true => rfl
  | false => rfl

/-- A branch whose condition decides `p` goes to its target when `p` holds, else to the next instruction. -/
theorem completesJumping_of_branchIf {i : Instr} {s : State} {cond : Bool} {offs : BitVec 16} {p : Prop} [Decidable p]
    (hexec : exec i s = branchIf cond offs s) (hcond : cond = true ↔ p) :
    completesJumping i s (if p then s.pc + BitVec.ofInt 32 (offs.toInt * 4) else s.pc + 4#32) := by
  rw [← branchTarget_eq, ← if_congr hcond rfl rfl]
  exact completesJumping_of_exec_eq (hexec.trans (branchIf_eq_jumpTo cond offs s))

theorem lessSigned_iff (a b : Word) : lessSigned a b = true ↔ a.toInt < b.toInt := decide_eq_true_iff

theorem lessUnsigned_iff (a b : Word) : lessUnsigned a b = true ↔ a.toNat < b.toNat := decide_eq_true_iff

theorem not_lessSigned_iff (a b : Word) : (!lessSigned a b) = true ↔ b.toInt ≤ a.toInt := by
  rw [Bool.not_eq_true', ← Bool.not_eq_true, lessSigned_iff, not_lt]

theorem not_lessUnsigned_iff (a b : Word) : (!lessUnsigned a b) = true ↔ b.toNat ≤ a.toNat := by
  rw [Bool.not_eq_true', ← Bool.not_eq_true, lessUnsigned_iff, not_lt]

/-- Settles O30: each condition decides the relation of its rule; BNE's clause is written with its outcomes swapped. -/
theorem branchesComplete : Obligations.BranchesComplete := by
  intro rj rd offs s target next
  refine ⟨completesJumping_of_branchIf rfl beq_iff_eq, ?bne, completesJumping_of_branchIf rfl (lessSigned_iff _ _),
    completesJumping_of_branchIf rfl (not_lessSigned_iff _ _), completesJumping_of_branchIf rfl (lessUnsigned_iff _ _),
    completesJumping_of_branchIf rfl (not_lessUnsigned_iff _ _)⟩
  case bne =>
    rw [← ite_not]
    exact completesJumping_of_branchIf rfl bne_iff_ne

/-! ## B, BL and JIRL (41_control.md R267 to R270) -/

/-- Settles O31: the targets are computed from the state before the link, so `rd = rj` jumps to the old register. -/
theorem jumpsComplete : Obligations.JumpsComplete := by
  intro s
  refine ⟨fun offs => ?b, fun offs => ?bl, fun rd rj offs => ?jirl⟩
  case b =>
    rw [← jumpTarget_eq]
    exact completesJumping_of_exec_eq rfl
  case bl =>
    rw [← jumpTarget_eq]
    exact jumpAndLink_of_exec_eq rfl
  case jirl =>
    rw [← indirectTarget_eq]
    exact jumpAndLink_of_exec_eq rfl

end Sys2Proof.Machine
end

section
/-! PROOFS. Hints, barriers and CACOP (42_memory_access.md R299, R320, R321; 43_system.md R360): each is the advance of the
pc, and the advance is the jump to the next instruction. -/

namespace Sys2Proof.Machine

/-- An instruction whose whole meaning is the advance of the pc changes nothing else. -/
theorem completesIdly_of_exec_eq {i : Instr} {s : State} (h : exec i s = .next (advance s)) : completesIdly i s :=
  completesJumping_of_exec_eq (target := snpc s) h

/-- At PLV0 a privileged instruction raises nothing and has its effect (60_exceptions.md R427). -/
theorem privileged_of_plv0 {s : State} (hplv : crmdPlv s = 0#2) (effect : Result) : privileged s effect = effect := by
  rw [privileged, checkPrivilege_of_plv0 hplv, unlessRaised_none]

theorem exec_preld (hint : BitVec 5) (rj : Reg) (si12 : BitVec 12) (s : State) :
    exec (.preld hint rj si12) s = .next (advance s) := rfl

theorem exec_dbar (code : BitVec 15) (s : State) : exec (.dbar code) s = .next (advance s) := rfl

theorem exec_ibar (code : BitVec 15) (s : State) : exec (.ibar code) s = .next (advance s) := rfl

theorem exec_cacop_of_plv0 {s : State} (hplv : crmdPlv s = 0#2) (code : BitVec 5) (rj : Reg) (si12 : BitVec 12) :
    exec (.cacop code rj si12) s = .next (advance s) :=
  privileged_of_plv0 hplv (.next (advance s))

/-- Settles O40: all four are the advance of the pc, CACOP because its privilege check passes at PLV0. -/
theorem hintsAndBarriersChangeNothing : Obligations.HintsAndBarriersChangeNothing := by
  intro s
  refine ⟨fun hint rj si12 => ?preld, fun code => ?dbar, fun code => ?ibar, fun hplv code rj si12 => ?cacop⟩
  case preld => exact completesIdly_of_exec_eq (exec_preld hint rj si12 s)
  case dbar => exact completesIdly_of_exec_eq (exec_dbar code s)
  case ibar => exact completesIdly_of_exec_eq (exec_ibar code s)
  case cacop => exact completesIdly_of_exec_eq (exec_cacop_of_plv0 hplv code rj si12)

end Sys2Proof.Machine
end

section
/-! PROOFS. The counter and the core's id (43_system.md R340 to R342): a field of a word is a quotient of it as a number,
and a CSR whose every bit is stored reads back as stored. -/

namespace Sys2Proof.Machine

/-! ## Fields as quotients -/

theorem extractLsb'_eq_ofNat_div {w : Nat} (a : BitVec w) (lo len : Nat) :
    a.extractLsb' lo len = BitVec.ofNat len (a.toNat / 2 ^ lo) := by
  rw [← Nat.shiftRight_eq_div_pow]
  rfl

/-- Field 0 is the word truncated. -/
theorem extractLsb'_zero_eq_ofNat {w : Nat} (a : BitVec w) (len : Nat) :
    a.extractLsb' 0 len = BitVec.ofNat len a.toNat := by
  rw [extractLsb'_eq_ofNat_div, Nat.pow_zero, Nat.div_one]

/-! ## CSRs that are stored in full (10_state.md R43, R48) -/

theorem csrValue_of_stored_in_full {c : Csr} {s : State} (hstored : csrStoredMask c = BitVec.allOnes 32)
    (hcomputed : csrComputed c s = 0#32) : csrValue c s = csrStored s.csr c := by
  rw [csrValue, hstored, hcomputed, BitVec.and_allOnes, BitVec.or_zero]

/-- All 32 bits of TID are RW. -/
@[simp] theorem csrValue_tid (s : State) : csrValue .tid s = s.csr.tid :=
  csrValue_of_stored_in_full (by decide) rfl

/-! ## RDCNTVL.W, RDCNTVH.W and RDCNTID.W -/

theorem exec_rdcntvhW (rd : Reg) (s : State) :
    exec (.rdcntvhW rd) s = writeResult rd (s.counter.extractLsb' 32 32) s := rfl

theorem exec_rdcntidW (rj : Reg) (s : State) : exec (.rdcntidW rj) s = writeResult rj (csrValue .tid s) s := rfl

/-- Settles O43: each of the three writes one word, the low half of the counter, its high half, or TID. -/
theorem counterReadsComplete : Obligations.CounterReadsComplete := fun r s =>
  ⟨completesWriting_of_result (exec_rdcntvlW r s) (extractLsb'_zero_eq_ofNat s.counter 32),
    completesWriting_of_result (exec_rdcntvhW r s) (extractLsb'_eq_ofNat_div s.counter 32 32),
    completesWriting_of_result (exec_rdcntidW r s) (csrValue_tid s)⟩

end Sys2Proof.Machine
end

section
/-! PROOFS. Taking an exception or interrupt (60_exceptions.md R412): each field of CRMD, PRMD and ESTAT after an entry is a
field that was put there or one that was kept. -/

namespace Sys2Proof.Machine

/-! ## Fields of a word with a field put in -/

theorem extractLsb'_putField_same (v : Word) {lo len : Nat} (f : BitVec len) (h : lo + len ≤ 32) :
    (putField v lo len f).extractLsb' lo len = f := by
  refine BitVec.eq_of_getLsbD_eq fun i hi => ?_
  rw [BitVec.getLsbD_extractLsb', getLsbD_putField _ _ _ _ _ h, if_pos (by omega), Nat.add_sub_cancel_left]
  simp [hi]

/-- A field apart from the one put in keeps its value. -/
theorem extractLsb'_putField_apart (v : Word) {lo len a n : Nat} (f : BitVec len) (h : lo + len ≤ 32)
    (hapart : a + n ≤ lo ∨ lo + len ≤ a) : (putField v lo len f).extractLsb' a n = v.extractLsb' a n := by
  refine BitVec.eq_of_getLsbD_eq fun i hi => ?_
  rw [BitVec.getLsbD_extractLsb', BitVec.getLsbD_extractLsb', getLsbD_putField _ _ _ _ _ h, if_neg (by omega)]

theorem extractLsb'_putBit_apart (v : Word) {k a n : Nat} (b : Bool) (h : k < 32) (hapart : a + n ≤ k ∨ k < a) :
    (putBit v k b).extractLsb' a n = v.extractLsb' a n :=
  extractLsb'_putField_apart v _ h hapart

/-! ## The mode bits after an entry -/

/-- CRMD and PRMD at a mode change: a level put at bits 1:0 and an interrupt enable at bit 2 (60_exceptions.md R412;
43_system.md R355). `savedMode`, `handlerMode` and `restoredMode` are of this form. -/
def modeWord (v : Word) (plv : BitVec 2) (ie : Bool) : Word := putBit (putField v 0 2 plv) 2 ie

theorem modeWord_fields (v : Word) (plv : BitVec 2) (ie : Bool) :
    (modeWord v plv ie).extractLsb' 0 2 = plv ∧ (modeWord v plv ie).getLsbD 2 = ie ∧
      (modeWord v plv ie).extractLsb' 3 29 = v.extractLsb' 3 29 := by
  unfold modeWord
  refine ⟨?plv, ?ie, ?rest⟩
  case plv => rw [extractLsb'_putBit_apart _ _ (by omega) (by omega), extractLsb'_putField_same _ _ (by omega)]
  case ie => rw [getLsbD_putBit _ _ _ _ (by omega), if_pos rfl]
  case rest =>
    rw [extractLsb'_putBit_apart _ _ (by omega) (by omega), extractLsb'_putField_apart _ _ (by omega) (by omega)]

theorem savedMode_fields (s : State) :
    (savedMode s).extractLsb' 0 2 = crmdPlv s ∧ (savedMode s).getLsbD 2 = crmdIe s ∧
      (savedMode s).extractLsb' 3 29 = s.csr.prmd.extractLsb' 3 29 :=
  modeWord_fields s.csr.prmd (crmdPlv s) (crmdIe s)

theorem handlerMode_fields (s : State) :
    (handlerMode s).extractLsb' 0 2 = 0#2 ∧ (handlerMode s).getLsbD 2 = false ∧
      (handlerMode s).extractLsb' 3 29 = s.csr.crmd.extractLsb' 3 29 :=
  modeWord_fields s.csr.crmd 0#2 false

/-! ## ESTAT after an entry -/

theorem recordedCause_codes (n : ExcName) (s : State) :
    (recordedCause n s).extractLsb' 16 6 = ecode n ∧ (recordedCause n s).extractLsb' 22 9 = esubcode n := by
  refine ⟨?_, extractLsb'_putField_same _ _ (by omega)⟩
  rw [recordedCause, extractLsb'_putField_apart _ _ (by omega) (by omega), extractLsb'_putField_same _ _ (by omega)]

/-- Recording a cause keeps the pending bits and bit 31. -/
theorem recordedCause_rest (n : ExcName) (s : State) :
    (recordedCause n s).extractLsb' 0 16 = s.csr.estat.extractLsb' 0 16 ∧
      (recordedCause n s).getLsbD 31 = s.csr.estat.getLsbD 31 := by
  constructor
  · rw [recordedCause, extractLsb'_putField_apart _ _ (by omega) (by omega),
      extractLsb'_putField_apart _ _ (by omega) (by omega)]
  · rw [recordedCause, getLsbD_putField _ _ _ _ _ (by omega), if_neg (by omega), getLsbD_putField _ _ _ _ _ (by omega),
      if_neg (by omega)]

/-! ## The entry -/

/-- EENTRY reads as the entry address: its low six bits are not stored (10_state.md R57). -/
@[simp] theorem csrValue_eentry (s : State) : csrValue .eentry s = entryAddress s :=
  BitVec.or_zero

/-- Settles O16: the mode bits and the cause by their words, every other field by the law of `enter` for it. -/
theorem entryEffect : Obligations.EntryEffect := by
  intro c s
  obtain ⟨hpplv, hpie, hprmd⟩ := savedMode_fields s
  obtain ⟨hplv, hie, hcrmd⟩ := handlerMode_fields s
  obtain ⟨hcode, hsub⟩ := recordedCause_codes c.name s
  obtain ⟨hpending, htop⟩ := recordedCause_rest c.name s
  exact {
    pplv := hpplv, pie := hpie, prmdRest := hprmd
    plv := hplv, ie := hie, crmdRest := hcrmd
    cause := hcode, subcause := hsub, pending := hpending, estatTop := htop
    era := enter_era c s
    badv := enter_badv c s
    otherCsrs := fun _ h1 h2 h3 h4 h5 => csrStored_enter_other h1 h2 h3 h4 h5
    pc := (enter_pc c s).trans (csrValue_eentry s)
    regs := readReg_enter c s
    llbit := enter_llbit c s
    hidden := by simp [sameHidden]
    memory := by simp [sameMemory]
    devices := by simp [sameDevices] }

end Sys2Proof.Machine
end

section
/-! PROOFS. The synchronous exceptions of an instruction (60_exceptions.md R422 to R427): `raises` finds the cause, `exec`
takes it, and the entry is that of R412. -/

namespace Sys2Proof.Machine

/-! ## Taking what is raised -/

/-- An instruction that raises takes the exception, BADV being what the entry makes of it (60_exceptions.md R411). -/
theorem takesException_of_raises {i : Instr} {s : State} {c : Cause} (h : raises i s = some c)
    (hsub : esubcode c.name = 0#9) : takesException i s (ecode c.name) (enter c s).csr.badv :=
  ⟨enter c s, exec_of_raises h, hsub ▸ entryEffect c s⟩

/-! ## SYS, INE and IPE -/

/-- Settles O20: the check of SYSCALL looks at neither the code nor the level. -/
theorem syscallRaisesSys : Obligations.SyscallRaisesSys := fun _ _ =>
  takesException_of_raises (c := causeSys) rfl rfl

/-- INVTLB finds its op before the privilege check (43_system.md R374; 60_exceptions.md R429). -/
theorem checkInvtlb_of_op_above_six {op : BitVec 5} (hop : 6 < op.toNat) (s : State) :
    checkInvtlb op s = some causeIne :=
  if_pos (show (6#5).toNat < op.toNat from hop)

theorem checkInvtlb_of_op_le_six {op : BitVec 5} (hop : op ≤ 6#5) (s : State) :
    checkInvtlb op s = checkPrivilege s :=
  if_neg (BitVec.not_lt.2 hop)

/-- Settles O22: the wildcard has no check, and INVTLB's op is checked at every level. -/
theorem invalidInstructionsRaiseIne : Obligations.InvalidInstructionsRaiseIne :=
  ⟨fun _ _ => takesException_of_raises (c := causeIne) rfl rfl,
    fun _ _ _ s hop => takesException_of_raises (c := causeIne) (checkInvtlb_of_op_above_six hop s) rfl⟩

/-- A privileged instruction raises what the privilege check finds, and no other exception (60_exceptions.md R441). -/
theorem raises_of_isPrivileged {i : Instr} (hi : isPrivileged i = true) (s : State) : raises i s = checkPrivilege s := by
  cases i with
  | csrrd | csrwr | csrxchg | cacop | tlbsrch | tlbrd | tlbwr | tlbfill | ertn | idle => rfl
  | invtlb op rj rk => exact checkInvtlb_of_op_le_six (of_decide_eq_true hi) s
  | _ => cases hi

theorem checkPrivilege_eq_some {s : State} {c : Cause} (h : checkPrivilege s = some c) : crmdPlv s ≠ 0#2 := fun hp => by
  rw [checkPrivilege_of_plv0 hp] at h
  cases h

theorem checkBreak_eq_some {s : State} {c : Cause} (h : checkBreak s = some c) : c = causeBrk := by
  unfold checkBreak at h
  split at h
  · cases h
  · exact (Option.some.inj h).symm

theorem checkAlignment_eq_some {a : Word} {w : Width} {c : Cause} (h : checkAlignment a w = some c) : c = causeAle a := by
  unfold checkAlignment at h
  split at h
  · cases h
  · exact (Option.some.inj h).symm

/-- All that phase B can find: what the privilege check finds at a privileged instruction, else INE, SYS, BRK or ALE
(60_exceptions.md R403, R422 to R427). -/
theorem raises_cases {i : Instr} {s : State} {c : Cause} (h : raises i s = some c) :
    (isPrivileged i = true ∧ checkPrivilege s = some c) ∨ c = causeIne ∨ c = causeSys ∨ c = causeBrk ∨
      ∃ a, c = causeAle a := by
  cases i with
  | csrrd | csrwr | csrxchg | cacop | tlbsrch | tlbrd | tlbwr | tlbfill | ertn | idle => exact .inl ⟨rfl, h⟩
  | invtlb op rj rk =>
    by_cases hop : op ≤ 6#5
    · exact .inl ⟨decide_eq_true hop, checkInvtlb_of_op_le_six hop s ▸ h⟩
    · have hine := checkInvtlb_of_op_above_six (BitVec.lt_def.1 (BitVec.not_le.1 hop)) s
      exact .inr (.inl (Option.some.inj (h.symm.trans hine)))
  | invalid => exact .inr (.inl (Option.some.inj h).symm)
  | syscall => exact .inr (.inr (.inl (Option.some.inj h).symm))
  | brk => exact .inr (.inr (.inr (.inl (checkBreak_eq_some h))))
  | ldH | ldHu | ldW | stH | stW | llW | scW => exact .inr (.inr (.inr (.inr ⟨_, checkAlignment_eq_some h⟩)))
  | _ => cases h

/-- Settles O19: the privilege check is all that a privileged instruction raises, and every other check finds a cause with
another name. -/
theorem privilegedInstructionsRaiseIpe : Obligations.PrivilegedInstructionsRaiseIpe := by
  refine ⟨fun i s hi hp => ?taken, fun i s c h hname => ?only⟩
  case taken =>
    have hipe : raises i s = some causeIpe :=
      (raises_of_isPrivileged hi s).trans (checkPrivilege_of_unprivileged hp)
    exact takesException_of_raises hipe rfl
  case only =>
    rcases raises_cases h with ⟨hi, hc⟩ | rfl | rfl | rfl | ⟨a, rfl⟩
    · exact ⟨hi, checkPrivilege_eq_some hc⟩
    all_goals cases hname

/-! ## ALE -/

/-- An instruction that checks the alignment of `a` raises ALE with BADV `a` when it is misaligned. -/
theorem takesException_of_misaligned {i : Instr} {s : State} {a : Word} {w : Width}
    (hcheck : raises i s = checkAlignment a w) (ha : ¬isAligned a w = true) : takesException i s 0x9#6 a :=
  takesException_of_raises (c := causeAle a)
    (hcheck.trans (checkAlignment_of_misaligned (Bool.eq_false_of_not_eq_true ha))) rfl

theorem addr14_eq (rj : Reg) (si14 : BitVec 14) (s : State) :
    addr14 rj si14 s = readReg s rj + BitVec.ofInt 32 (si14.toInt * 4) := by
  rw [addr14, immSi14s_eq]

/-- Settles O23: each of the seven checks its own address at its width, before the access and before the LLbit. -/
theorem misalignedAccessesRaiseAle : Obligations.MisalignedAccessesRaiseAle := by
  intro rd rj s
  refine ⟨fun si12 hodd => ?half, fun si12 hoff => ?word, fun si14 hoff => ?linked⟩
  case half =>
    have ha := mt (isAligned_half _).1 hodd
    exact ⟨takesException_of_misaligned rfl ha, takesException_of_misaligned rfl ha, takesException_of_misaligned rfl ha⟩
  case word =>
    have ha := mt (isAligned_word _).1 hoff
    exact ⟨takesException_of_misaligned rfl ha, takesException_of_misaligned rfl ha⟩
  case linked =>
    rw [← addr14_eq] at hoff ⊢
    have ha := mt (isAligned_word _).1 hoff
    exact ⟨takesException_of_misaligned rfl ha, takesException_of_misaligned rfl ha⟩

end Sys2Proof.Machine
end

section
/-! PROOFS. The step of an idle core (60_exceptions.md R404): it waits while no pending interrupt is enabled, and waking
commutes with the sample of the lines. -/

namespace Sys2Proof.Machine

/-- An idle core waits exactly while nothing pending is enabled, whatever CRMD.IE is. -/
theorem stillWaiting_sampleLines_iff {s : State} (hidle : s.idle = true) :
    stillWaiting (sampleLines s) = true ↔ (sampleLines s).csr.estat &&& s.csr.ecfg &&& 0x00001BFF#32 = 0#32 := by
  rw [stillWaiting, sampleLines_idle, hidle, Bool.true_and, beq_iff_eq]
  rfl

/-- The step of a waiting core is phase D of the sampled state. -/
theorem step_of_waiting {s : State} (hs : canStep s) (hwait : stillWaiting (sampleLines s) = true) :
    step s = .next (endOfStep (sampleLines s)) := by
  obtain ⟨hrun, hdirect⟩ := hs
  simp [step, executeOneStep, runSampled, finish, hrun, hdirect, hwait]

/-- A core that no longer waits steps as the same core awake. -/
theorem step_wake {s : State} (hs : canStep s) (hwoken : stillWaiting (sampleLines s) = false) :
    step s = step (wake s) := by
  obtain ⟨hrun, hdirect⟩ := hs
  have hawake : stillWaiting (sampleLines (wake s)) = false := rfl
  calc step s = finish (fetchAndExecute (wake (sampleLines s))) := step_of_running hrun hdirect hwoken
    _ = finish (fetchAndExecute (wake (sampleLines (wake s)))) := rfl
    _ = step (wake s) := (step_of_running (s := wake s) hrun hdirect hawake).symm

theorem sameRegs_endOfStep_sampleLines (s : State) : sameRegs s (endOfStep (sampleLines s)) := fun r =>
  (readReg_endOfStep (sampleLines s) r).trans (readReg_congr (sampleLines_gpr s) r)

/-- Settles O12: a waiting step is phase D alone; any other step of the idle core begins by waking it. -/
theorem idleStepWaitsOrWakes : Obligations.IdleStepWaitsOrWakes := by
  intro s hs hidle
  refine ⟨fun hnone => ?waits, fun hsome => ?wakes⟩
  case waits =>
    have hstep := step_of_waiting hs ((stillWaiting_sampleLines_iff hidle).2 hnone)
    exact ⟨_, hstep, rfl, by simp, by simpa using hidle, sameRegs_endOfStep_sampleLines s, by simp [sameMemory]⟩
  case wakes =>
    exact step_wake hs (Bool.eq_false_of_not_eq_true (mt (stillWaiting_sampleLines_iff hidle).1 hsome))

end Sys2Proof.Machine
end

section
/-! PROOFS. The state after reset, for every platform and reset vector: what its registers and CSRs read as
(70_reset_and_hazards.md R470; 10_state.md R85). -/

namespace Sys2Proof.Machine

@[simp] theorem readReg_resetOf (p : Platform) (pc : Word) (r : Reg) : readReg (State.resetOf p pc) r = 0#32 := by
  simp [readReg, State.resetOf]

theorem csrStored_resetOf (p : Platform) (pc : Word) {c : Csr} (hcrmd : c ≠ .crmd) :
    csrStored (State.resetOf p pc).csr c = 0#32 := by
  cases c with
  | crmd => exact absurd rfl hcrmd
  | _ => rfl

/-- ASID's width field is the only computed field that is not 0: PGD's bases and the LLbit are clear. -/
theorem csrComputed_resetOf (p : Platform) (pc : Word) {c : Csr} (hasid : c ≠ .asid) :
    csrComputed c (State.resetOf p pc) = 0#32 := by
  cases c with
  | asid => exact absurd rfl hasid
  | pgd => simp [csrComputed, State.resetOf, Csrs.reset]
  | _ => rfl

/-- After reset a CSR other than CRMD reads as its computed bits alone. -/
theorem csrValue_resetOf (p : Platform) (pc : Word) {c : Csr} (hcrmd : c ≠ .crmd) :
    csrValue c (State.resetOf p pc) = csrComputed c (State.resetOf p pc) := by
  rw [csrValue, csrStored_resetOf p pc hcrmd, BitVec.zero_and, BitVec.zero_or]

/-- CRMD's reset value 8 is PLV0, interrupts off, direct address translation. -/
theorem crmdFields_resetOf (p : Platform) (pc : Word) :
    let s := State.resetOf p pc
    crmdPlv s = 0#2 ∧ crmdIe s = false ∧ crmdDa s = true ∧ crmdPg s = false := by
  have hcrmd : (State.resetOf p pc).csr.crmd = 0x00000008#32 := rfl
  simp [crmdPlv, crmdIe, crmdDa, crmdPg, hcrmd]

/-- Settles O53: the CSRs' values are their computed bits, of which only ASID has any set; CRMD's fields are those of
the stored 8, and the other clauses are fields that the reset state writes. -/
theorem resetValues : Obligations.ResetValues := by
  intro p pc
  have hasid : csrValue .asid (State.resetOf p pc) = 0x000A0000#32 := csrValue_resetOf p pc (by decide)
  have hzero : ∀ c, c ≠ .crmd → c ≠ .asid → csrValue c (State.resetOf p pc) = 0#32 := fun _ hc ha =>
    (csrValue_resetOf p pc hc).trans (csrComputed_resetOf p pc ha)
  obtain ⟨hplv, hie, hda, hpg⟩ := crmdFields_resetOf p pc
  exact ⟨readReg_resetOf p pc, rfl, rfl, fun _ => csrStored_resetOf p pc, hasid, hzero, hplv, hie, hda, hpg,
    rfl, rfl, rfl, rfl, rfl, rfl⟩

end Sys2Proof.Machine
end

section
/-! PROOFS. The encoder and the decoder are inverse to each other (30_encoding.md R151, R160, R170): an encoded instruction
has the bits its row fixes, no row before that row matches it, and a word that a row matches is the row's format with the
word's own fields. -/

namespace Sys2Proof
open Sys2Proof.Laws

/-! ## Rows that share a word -/

/-- The three overlapping pairs of 30_encoding.md R170, by mnemonic. -/
abbrev isOverlappingPair (r q : Row) : Prop :=
  (r.mnemonic = "rdcntvl.w" ∧ q.mnemonic = "rdcntid.w") ∨ (r.mnemonic = "csrrd" ∧ q.mnemonic = "csrxchg") ∨
    (r.mnemonic = "csrwr" ∧ q.mnemonic = "csrxchg")

/-- The fixed bits of two rows before the wildcard clash, but for the three pairs. -/
theorem rows_clash_or_overlap : (catalog.take 67).Pairwise fun r q =>
    r.pattern &&& q.mask ≠ q.pattern &&& r.mask ∨ isOverlappingPair r q := by
  decide

/-- Settles O3: rows whose fixed bits clash share no word. -/
theorem catalogRowsDisjointButThreePairs : Obligations.CatalogRowsDisjointButThreePairs := by
  intro k m r q w hkm hm hr hq hwr hwq
  obtain ⟨hk', rfl⟩ := List.getElem?_eq_some_iff.1 hr
  obtain ⟨hm', rfl⟩ := List.getElem?_eq_some_iff.1 hq
  have hlen : (catalog.take 67).length = 67 := rfl
  have hpair := List.pairwise_iff_getElem.1 rows_clash_or_overlap k m (by omega) (by omega) hkm
  rw [List.getElem_take, List.getElem_take] at hpair
  refine hpair.resolve_left fun hclash => ?_
  rw [not_rowMatches_of_clash hwr hclash] at hwq
  cases hwq

/-! ## Decoding an encoded instruction -/

/-- Every instruction encodes to a word with the bits its row fixes, by its format. -/
theorem encodeFixedBits (i : Instr) : EncodeFixedBits.Statement i := by
  cases i with
  | rdcntvlW | rdcntvhW => exact enc2R_fixed_rd (by decide) (by decide) _
  | rdcntidW => exact enc2R_fixed_rj (by decide) (by decide) _
  | addW | subW | slt | sltu | nor | and | or | xor | sllW | srlW | sraW | mulW | mulhW | mulhWu | divW | modW | divWu
  | modWu | slliW | srliW | sraiW | invtlb => exact enc3R_fixed (by decide) _ _ _
  | slti | sltui | addiW | andi | ori | xori | cacop | ldB | ldH | ldW | stB | stH | stW | ldBu | ldHu | preld =>
    exact enc2RI12_fixed (by decide) _ _ _
  | csrrd rd csr => exact EncodeFixedBits.csrrd rd csr
  | csrwr rd csr => exact EncodeFixedBits.csrwr rd csr
  | csrxchg | llW | scW => exact enc2RI14_fixed (by decide) _ _ _
  | tlbsrch => exact EncodeFixedBits.tlbsrch
  | tlbrd => exact EncodeFixedBits.tlbrd
  | tlbwr => exact EncodeFixedBits.tlbwr
  | tlbfill => exact EncodeFixedBits.tlbfill
  | ertn => exact EncodeFixedBits.ertn
  | lu12iW | pcaddu12i => exact enc1RI20_fixed (by decide) _ _
  | jirl | beq | bne | blt | bge | bltu | bgeu => exact enc2RI16_fixed (by decide) _ _ _
  | b | bl => exact encI26_fixed (by decide) _
  | brk | syscall | idle | dbar | ibar => exact encCode15_fixed (by decide) _
  | invalid word => exact EncodeFixedBits.invalid word

/-- The constructors of `Instr` stand in the catalog's order: the row at a constructor's place has its fixed bits and
reads its operands back from the encoded word. -/
theorem catalog_row_of_instr (i : Instr) : ∃ r, catalog[i.ctorIdx]? = some r ∧ r.pattern = (rowBits i).1 ∧
    r.mask = (rowBits i).2 ∧ r.build (encodeWord i) = i := by
  cases i <;> exact ⟨_, rfl, rfl, rfl, by simp [encodeWord]⟩

/-- RDCNTID.W, CSRXCHG and the wildcard apart, a row clashes with every row before it. -/
theorem row_clashes_with_earlier_rows : ∀ m : Fin 68, [1, 34, 67].contains m.val = false →
    ∀ q ∈ catalog.take m, catalog[m].pattern &&& q.mask ≠ q.pattern &&& catalog[m].mask := by
  decide

theorem decodeWord_encodeWord_of_clashing_row {i : Instr} (h : [1, 34, 67].contains i.ctorIdx = false) :
    decodeWord (encodeWord i) = some i := by
  obtain ⟨r, hr, hpattern, hmask, hbuild⟩ := catalog_row_of_instr i
  obtain ⟨hk, rfl⟩ := List.getElem?_eq_some_iff.1 hr
  have hbits : encodeWord i &&& catalog[i.ctorIdx].mask = catalog[i.ctorIdx].pattern := by
    rw [hpattern, hmask]
    exact encodeFixedBits i
  have hclash := row_clashes_with_earlier_rows ⟨i.ctorIdx, hk⟩ h
  rw [decodeWord_of_row i.ctorIdx hr hbits hclash, hbuild]

/-- Decoding the encoding of a well-formed instruction gives it back: the overlapping rows are told apart by the fields
that well-formedness asks about. -/
theorem decodeWord_encodeWord {i : Instr} (h : i.wellFormed = true) : decodeWord (encodeWord i) = some i := by
  cases i with
  | rdcntidW rj =>
    have hdecode := decodeWord_rdcntidW (w := enc2R 0x00006000#32 rj 0#5)
      (extractLsb'_eq_of_bits fun k hk => by
        rw [getLsbD_enc2R, if_neg (by omega), if_neg (by omega)]; revert k; decide)
      (by simpa [Instr.wellFormed] using h) (fieldRd_enc2R _ _ _)
    rwa [fieldRj_enc2R] at hdecode
  | csrxchg rd rj csr =>
    obtain ⟨h0, h1⟩ : rj ≠ 0#5 ∧ rj ≠ 1#5 := by simpa [Instr.wellFormed] using h
    have hdecode := decodeWord_csrxchg (w := enc2RI14 0x04000000#32 csr rj rd)
      (extractLsb'_eq_of_bits fun k hk => by
        rw [getLsbD_enc2RI14, if_neg (by omega), if_neg (by omega), if_neg (by omega)]; revert k; decide)
      (by simpa using h0) (by simpa using h1)
    rwa [fieldRd_enc2RI14, fieldRj_enc2RI14, fieldI14_enc2RI14] at hdecode
  | invalid word =>
    refine decodeWord_eq_invalid (w := word) fun q hq => ?_
    have hnone := List.all_eq_true.1 h q hq
    simpa [-rowMatches_iff] using hnone
  | _ => exact decodeWord_encodeWord_of_clashing_row rfl

/-- Settles O1: the four bytes of the encoded word read back as the word, which decodes to the instruction. -/
theorem decodeOfEncodeIsInstruction : Obligations.DecodeOfEncodeIsInstruction := by
  intro i rest hwf
  rw [encode, decode_bytesOfWord, decodeWord_encodeWord hwf]

/-! ## Encoding a decoded word -/

open BitVec (extractLsb'_append_extractLsb'_eq_extractLsb')

/-- A word equal to `m` under a mask has the fields of `m` that the mask covers. -/
theorem extractLsb'_eq_of_fixed {w m mask : Word} (h : w &&& mask = m) (lo len : Nat)
    (hmask : mask.extractLsb' lo len = BitVec.allOnes len) : w.extractLsb' lo len = m.extractLsb' lo len := by
  rw [← h, BitVec.extractLsb'_and, hmask, BitVec.and_allOnes]

theorem enc2R_of_fixed_rj {m : Word} (w : Word) (h : w &&& 0xFFFFFFE0#32 = m) (hj : m.extractLsb' 5 5 = 0#5) :
    enc2R m 0#5 (fieldRd w) = w := by
  have hrj : fieldRj w = 0#5 := (extractLsb'_eq_of_fixed h 5 5 (by decide)).trans hj
  rw [← hrj]
  exact enc2R_fields_eq (extractLsb'_eq_of_fixed h 10 22 (by decide))

theorem enc2R_of_fixed_rd {m : Word} (w : Word) (h : w &&& 0xFFFFFC1F#32 = m) (hd : m.extractLsb' 0 5 = 0#5) :
    enc2R m (fieldRj w) 0#5 = w := by
  have hrd : fieldRd w = 0#5 := (extractLsb'_eq_of_fixed h 0 5 (by decide)).trans hd
  rw [← hrd]
  exact enc2R_fields_eq (extractLsb'_eq_of_fixed h 10 22 (by decide))

theorem enc3R_of_fixed {m : Word} (w : Word) (h : w &&& 0xFFFF8000#32 = m) :
    enc3R m (fieldRk w) (fieldRj w) (fieldRd w) = w := by
  rw [enc3R, ← extractLsb'_eq_of_fixed h 15 17 (by decide), fieldRk, fieldRj, fieldRd]
  iterate 3 rw [extractLsb'_append_extractLsb'_eq_extractLsb' (by rfl)]
  exact BitVec.extractLsb'_eq_self

theorem enc2RI12_of_fixed {m : Word} (w : Word) (h : w &&& 0xFFC00000#32 = m) :
    enc2RI12 m (fieldI12 w) (fieldRj w) (fieldRd w) = w := by
  rw [enc2RI12, ← extractLsb'_eq_of_fixed h 22 10 (by decide), fieldI12, fieldRj, fieldRd]
  iterate 3 rw [extractLsb'_append_extractLsb'_eq_extractLsb' (by rfl)]
  exact BitVec.extractLsb'_eq_self

theorem enc2RI14_of_fixed {m : Word} (w : Word) (h : w &&& 0xFF000000#32 = m) :
    enc2RI14 m (fieldI14 w) (fieldRj w) (fieldRd w) = w :=
  enc2RI14_fields_eq (extractLsb'_eq_of_fixed h 24 8 (by decide))

theorem enc2RI14_of_fixed_rj {m : Word} {k : Reg} (w : Word) (h : w &&& 0xFF0003E0#32 = m) (hj : m.extractLsb' 5 5 = k) :
    enc2RI14 m (fieldI14 w) k (fieldRd w) = w := by
  have hrj : fieldRj w = k := (extractLsb'_eq_of_fixed h 5 5 (by decide)).trans hj
  rw [← hrj]
  exact enc2RI14_fields_eq (extractLsb'_eq_of_fixed h 24 8 (by decide))

theorem enc2RI16_of_fixed {m : Word} (w : Word) (h : w &&& 0xFC000000#32 = m) :
    enc2RI16 m (fieldOffs16 w) (fieldRj w) (fieldRd w) = w := by
  rw [enc2RI16, ← extractLsb'_eq_of_fixed h 26 6 (by decide), fieldOffs16, fieldRj, fieldRd]
  iterate 3 rw [extractLsb'_append_extractLsb'_eq_extractLsb' (by rfl)]
  exact BitVec.extractLsb'_eq_self

theorem enc1RI20_of_fixed {m : Word} (w : Word) (h : w &&& 0xFE000000#32 = m) :
    enc1RI20 m (fieldSi20 w) (fieldRd w) = w := by
  rw [enc1RI20, ← extractLsb'_eq_of_fixed h 25 7 (by decide), fieldSi20, fieldRd]
  iterate 2 rw [extractLsb'_append_extractLsb'_eq_extractLsb' (by rfl)]
  exact BitVec.extractLsb'_eq_self

/-- The two halves of the offset of B and BL are read in the places they are written to. -/
theorem encI26_of_fixed {m : Word} (w : Word) (h : w &&& 0xFC000000#32 = m) : encI26 m (fieldOffs26 w) = w := by
  rw [encI26, ← extractLsb'_eq_of_fixed h 26 6 (by decide), fieldOffs26, BitVec.extractLsb'_append_eq_right,
    BitVec.extractLsb'_append_eq_left]
  iterate 2 rw [extractLsb'_append_extractLsb'_eq_extractLsb' (by rfl)]
  exact BitVec.extractLsb'_eq_self

theorem encCode15_of_fixed {m : Word} (w : Word) (h : w &&& 0xFFFF8000#32 = m) : encCode15 m (fieldCode15 w) = w := by
  rw [encCode15, ← extractLsb'_eq_of_fixed h 15 17 (by decide), fieldCode15]
  rw [extractLsb'_append_extractLsb'_eq_extractLsb' (by rfl)]
  exact BitVec.extractLsb'_eq_self

theorem eq_of_fixed_word {m : Word} (w : Word) (h : w &&& 0xFFFFFFFF#32 = m) : m = w :=
  h.symm.trans BitVec.and_allOnes

/-- A row's instruction, built from a word that the row matches, encodes to that word. -/
def Row.encodesBack (r : Row) : Prop := ∀ w, w &&& r.mask = r.pattern → encodeWord (r.build w) = w

theorem catalogAlu_encodesBack : ∀ r ∈ catalogAlu, r.encodesBack := by
  simp only [catalogAlu, List.forall_mem_cons, List.not_mem_nil, false_implies, implies_true, and_true]
  exact ⟨fun w h => enc2R_of_fixed_rj w h (by decide), fun w h => enc2R_of_fixed_rd w h (by decide),
    fun w h => enc2R_of_fixed_rj w h (by decide), enc3R_of_fixed, enc3R_of_fixed, enc3R_of_fixed, enc3R_of_fixed,
    enc3R_of_fixed, enc3R_of_fixed, enc3R_of_fixed, enc3R_of_fixed, enc3R_of_fixed, enc3R_of_fixed, enc3R_of_fixed,
    enc3R_of_fixed, enc3R_of_fixed, enc3R_of_fixed, enc3R_of_fixed, enc3R_of_fixed, enc3R_of_fixed, enc3R_of_fixed,
    encCode15_of_fixed, encCode15_of_fixed, enc3R_of_fixed, enc3R_of_fixed, enc3R_of_fixed⟩

theorem catalogSystem_encodesBack : ∀ r ∈ catalogSystem, r.encodesBack := by
  simp only [catalogSystem, List.forall_mem_cons, List.not_mem_nil, false_implies, implies_true, and_true]
  exact ⟨enc2RI12_of_fixed, enc2RI12_of_fixed, enc2RI12_of_fixed, enc2RI12_of_fixed, enc2RI12_of_fixed,
    enc2RI12_of_fixed, fun w h => enc2RI14_of_fixed_rj w h (by decide),
    fun w h => enc2RI14_of_fixed_rj w h (by decide), enc2RI14_of_fixed, enc2RI12_of_fixed, eq_of_fixed_word,
    eq_of_fixed_word, eq_of_fixed_word, eq_of_fixed_word, eq_of_fixed_word, encCode15_of_fixed, enc3R_of_fixed⟩

theorem catalogMemory_encodesBack : ∀ r ∈ catalogMemory, r.encodesBack := by
  simp only [catalogMemory, List.forall_mem_cons, List.not_mem_nil, false_implies, implies_true, and_true]
  exact ⟨enc1RI20_of_fixed, enc1RI20_of_fixed, enc2RI14_of_fixed, enc2RI14_of_fixed, enc2RI12_of_fixed,
    enc2RI12_of_fixed, enc2RI12_of_fixed, enc2RI12_of_fixed, enc2RI12_of_fixed, enc2RI12_of_fixed, enc2RI12_of_fixed,
    enc2RI12_of_fixed, enc2RI12_of_fixed, encCode15_of_fixed, encCode15_of_fixed⟩

theorem catalogControl_encodesBack : ∀ r ∈ catalogControl, r.encodesBack := by
  simp only [catalogControl, List.forall_mem_cons, List.not_mem_nil, false_implies, implies_true, and_true]
  exact ⟨enc2RI16_of_fixed, encI26_of_fixed, encI26_of_fixed, enc2RI16_of_fixed, enc2RI16_of_fixed,
    enc2RI16_of_fixed, enc2RI16_of_fixed, enc2RI16_of_fixed, enc2RI16_of_fixed⟩

/-- Every row encodes back, by the law of its format. -/
theorem catalog_encodesBack : ∀ r ∈ catalog, r.encodesBack := by
  simp only [catalog, catalogWildcard, List.forall_mem_append, List.forall_mem_singleton]
  exact ⟨catalogAlu_encodesBack, catalogSystem_encodesBack, catalogMemory_encodesBack, catalogControl_encodesBack,
    fun _ _ => rfl⟩

/-- What decoding finds: the wildcard at a word that no other row matches, else a row before the wildcard that matches. -/
theorem decodeWord_cases (w : Word) :
    (isInvalidWord w = true ∧ decodeWord w = some (.invalid w)) ∨
      ∃ r ∈ catalog.take 67, rowMatches r w = true ∧ decodeWord w = some (r.build w) := by
  have hsplit : catalog = catalog.take 67 ++ catalogWildcard := rfl
  cases hfind : (catalog.take 67).find? fun r => rowMatches r w with
  | none =>
    have hnone : ∀ r ∈ catalog.take 67, rowMatches r w = false := fun r hr =>
      Bool.eq_false_of_not_eq_true (List.find?_eq_none.1 hfind r hr)
    exact .inl ⟨List.all_eq_true.2 fun r hr => by rw [hnone r hr]; rfl, decodeWord_eq_invalid hnone⟩
  | some r =>
    refine .inr ⟨r, List.mem_of_find?_eq_some hfind, List.find?_some (p := fun r => rowMatches r w) hfind, ?_⟩
    rw [decodeWord, hsplit, List.find?_append, hfind]
    rfl

/-- Only the wildcard builds `invalid`. -/
theorem build_ne_invalid : ∀ r ∈ catalog.take 67, ∀ w v, r.build w ≠ .invalid v := by
  have hlists : catalog.take 67 = catalogAlu ++ (catalogSystem ++ (catalogMemory ++ catalogControl)) := rfl
  simp only [hlists, catalogAlu, catalogSystem, catalogMemory, catalogControl, List.forall_mem_append,
    List.forall_mem_cons, List.not_mem_nil, false_implies, implies_true, and_true, ne_eq, reduceCtorEq, not_false_eq_true]

/-- A word that decodes is the encoding of what it decodes to. -/
theorem encodeWord_of_decodeWord {w : Word} {i : Instr} (h : decodeWord w = some i) : encodeWord i = w := by
  rcases decodeWord_cases w with ⟨_, hd⟩ | ⟨r, hr, hmatch, hd⟩ <;> obtain rfl := Option.some.inj (h.symm.trans hd)
  · rfl
  · exact catalog_encodesBack r (List.mem_of_mem_take hr) w (rowMatches_iff.1 hmatch)

/-- What decodes is well formed: RDCNTID.W with `rj = 0` and CSRXCHG with `rj` 0 or 1 encode to words of earlier rows. -/
theorem wellFormed_of_decodeWord {w : Word} {i : Instr} (h : decodeWord w = some i) : i.wellFormed = true := by
  have hw := encodeWord_of_decodeWord h
  cases i with
  | rdcntidW rj =>
    refine bne_iff_ne.2 fun hj => ?_
    subst hj hw
    exact absurd h (by decide)
  | csrxchg rd rj csr =>
    have hop : w.extractLsb' 24 8 = 0x04#8 :=
      hw ▸ extractLsb'_eq_of_fixed (enc2RI14_fixed (by decide) csr rj rd) 24 8 (by decide)
    have hrj : fieldRj w = rj := hw ▸ fieldRj_enc2RI14 _ csr rj rd
    have h0 : rj ≠ 0#5 := fun hj => by
      rw [decodeWord_csrrd hop (hrj.trans hj)] at h
      cases h
    have h1 : rj ≠ 1#5 := fun hj => by
      rw [decodeWord_csrwr hop (hrj.trans hj)] at h
      cases h
    simp [Instr.wellFormed, h0, h1]
  | invalid word =>
    obtain rfl : word = w := hw
    rcases decodeWord_cases word with ⟨hinvalid, _⟩ | ⟨r, hr, _, hd⟩
    · exact hinvalid
    · exact absurd (Option.some.inj (hd.symm.trans h)) (build_ne_invalid r hr word word)
  | _ => rfl

/-- Settles O2: a word decodes by a row that matches it, and the row's format puts the fields back. -/
theorem encodeOfDecodeIsWord : Obligations.EncodeOfDecodeIsWord := by
  intro w
  obtain ⟨i, hi⟩ := Option.isSome_iff_exists.1 (decodeWord_isSome w)
  exact ⟨i, hi, wellFormed_of_decodeWord hi, encodeWord_of_decodeWord hi⟩

/-! ## The formats as numbers -/

/-- The number of an instruction's encoding decodes to it. -/
theorem decodeWord_ofNat {i : Instr} {n : Nat} (hwf : i.wellFormed = true) (hn : (encodeWord i).toNat = n) :
    decodeWord (BitVec.ofNat 32 n) = some i := by
  rw [← hn, BitVec.ofNat_toNat, BitVec.setWidth_eq, decodeWord_encodeWord hwf]

/-- Settles O5: each format's word as a number is the number of its instruction's encoding. -/
theorem formatWords : Obligations.FormatWords := by
  refine ⟨fun rd rj rk => ?_, fun rd rj => ⟨fun i12 => ?_, fun i14 => ?_, fun i20 => ?_, fun offs => ?_, fun offs => ?_,
    fun code => ?_⟩⟩
  · and_intros <;> exact decodeWord_ofNat rfl (toNat_enc3R _ rk rj rd)
  · and_intros <;> exact decodeWord_ofNat rfl (toNat_enc2RI12 _ i12 rj rd)
  · and_intros <;> exact decodeWord_ofNat rfl (toNat_enc2RI14 _ i14 rj rd)
  · and_intros <;> exact decodeWord_ofNat rfl (toNat_enc1RI20 _ i20 rd)
  · and_intros <;> exact decodeWord_ofNat rfl (toNat_enc2RI16 _ offs rj rd)
  · and_intros <;> exact decodeWord_ofNat rfl (toNat_encI26 _ offs)
  · and_intros <;> exact decodeWord_ofNat rfl (toNat_encCode15 _ code)

/-- Settles O6: each of the eight words evaluates to its instruction. -/
theorem sampleWordsDecode : Obligations.SampleWordsDecode := by
  unfold Obligations.SampleWordsDecode
  decide

end Sys2Proof
end

section
/-! PROOFS. CSR access (43_system.md R330 to R332; 10_state.md R48, R49): what a CSR write leaves in every CSR, and the three
instructions as one read and at most one write. -/

namespace Sys2Proof.Machine

/-! ## What a CSR write leaves -/

/-- The side effects reach TVAL from TCFG and ESTAT from TICLR; every other CSR keeps its stored bits. -/
theorem csrStored_csrSideEffect_other {c d : Csr} (v : Word) (s : State) (htval : ¬(c = .tcfg ∧ d = .tval))
    (hestat : ¬(c = .ticlr ∧ d = .estat)) : csrStored (csrSideEffect c v s).csr d = csrStored s.csr d := by
  rw [csrSideEffect_csr]
  split_ifs with htcfg hticlr
  · exact csrStored_csrStore_other s.csr (c := .tval) _ fun hd => htval ⟨htcfg, hd⟩
  · exact csrStored_csrStore_other s.csr (c := .estat) _ fun hd => hestat ⟨hticlr.1, hd⟩
  · rfl

/-- TCFG loads TVAL with the written value, its two low bits clear (10_state.md R68). -/
theorem tval_csrSideEffect_tcfg (v : Word) (s : State) :
    (csrSideEffect .tcfg v s).csr.tval.extractLsb' 2 30 = v.extractLsb' 2 30 ∧
      (csrSideEffect .tcfg v s).csr.tval.extractLsb' 0 2 = 0#2 := by
  have hmask : (csrSideEffect .tcfg v s).csr.tval = v &&& 0xFFFFFFFC#32 := rfl
  rw [hmask, BitVec.extractLsb'_and, BitVec.extractLsb'_and]
  exact ⟨BitVec.and_allOnes, BitVec.and_zero⟩

/-- TICLR clears the timer bit when its bit 0 is written 1 (10_state.md R70). -/
theorem estat_csrSideEffect_ticlr (v : Word) (s : State) (k : Nat) :
    (csrSideEffect .ticlr v s).csr.estat.getLsbD k = (s.csr.estat.getLsbD k && !(k == 11 && v.getLsbD 0)) := by
  rw [csrSideEffect_csr, if_neg (by decide)]
  by_cases hclear : v.getLsbD 0 = true
  · rw [if_pos ⟨rfl, hclear⟩, getLsbD_putBit _ _ _ _ (by omega), hclear]
    by_cases hk : k = 11
    · simp [hk]
    · simp [hk]
  · rw [if_neg fun h => hclear h.2, Bool.eq_false_of_not_eq_true hclear, Bool.and_false, Bool.not_false, Bool.and_true]

/-- All that a CSR write of an implemented number leaves (10_state.md R49). -/
theorem csrWritten_csrWrite {n : BitVec 14} {c : Csr} (v : Word) (s : State) (h : csrOfNumber n = some c) :
    csrWritten c v s (csrWrite n v s) := by
  rw [csrWrite_of_some v s h]
  refine ⟨fun hpgd hticlr k => ?_, fun d hd htval hestat => ?_, fun htcfg => ?_, fun hticlr k => ?_, ?_, ?_⟩
  · rw [csrStored_csrSideEffect_other v _ (by rintro ⟨rfl, h⟩; cases h) fun hc => hticlr hc.1]
    dsimp only
    rw [csrStored_csrStore_same _ _ (by simp [csrHasStorage, hpgd, hticlr]), getLsbD_merge, specWmask_eq]
  · rw [csrStored_csrSideEffect_other v _ htval hestat]
    exact csrStored_csrStore_other s.csr _ hd
  · subst htcfg
    exact tval_csrSideEffect_tcfg v _
  · subst hticlr
    exact estat_csrSideEffect_ticlr v _ k
  · exact csrSideEffect_timerEn c v _
  · rw [csrSideEffect_llbit]
    by_cases hc : c = .llbctl
    · subst hc
      cases v.getLsbD 1 <;> simp
    · simp [hc]

/-! ## The three instructions at PLV0 -/

theorem csrRead_of_some {n : BitVec 14} {c : Csr} (s : State) (h : csrOfNumber n = some c) :
    csrRead n s = (csrValue c s, s) := by
  simp [csrRead, h]

theorem csrRead_of_none {n : BitVec 14} (s : State) (h : csrOfNumber n = none) :
    csrRead n s = (Config.csrUndefRead s.draws, { s with draws := s.draws + 1 }) := by
  simp [csrRead, h]

theorem exec_csrrd_of_plv0 {s : State} (hplv : crmdPlv s = 0#2) (rd : Reg) (n : BitVec 14) :
    exec (.csrrd rd n) s = .next (advance (writeReg rd (csrRead n s).1 (csrRead n s).2)) :=
  privileged_of_plv0 hplv _

/-- CSRWR and CSRXCHG differ in the value they write alone. -/
theorem exec_csrWriting_of_plv0 {s : State} (hplv : crmdPlv s = 0#2) {i : Instr} {rd rj : Reg} {n : BitVec 14} {w : Word}
    (hi : (i = .csrwr rd n ∧ w = readReg s rd) ∨
      (i = .csrxchg rd rj n ∧ w = merge (readReg s rj) (csrRead n s).1 (readReg s rd))) :
    exec i s = .next (advance (writeReg rd (csrRead n s).1 (csrWrite n w (csrRead n s).2))) := by
  rcases hi with ⟨rfl, rfl⟩ | ⟨rfl, rfl⟩
  · exact privileged_of_plv0 hplv _
  · exact privileged_of_plv0 hplv _

/-- A CSR reads as the tables of the spec say (10_state.md R48). -/
theorem csrReads_csrValue (c : Csr) (s : State) : csrReads c s (csrValue c s) := by
  cases c with
  | asid => exact BitVec.or_comm _ _
  | llbctl => rfl
  | pgd | ticlr => simp [csrReads, csrValue, csrStored, csrComputed]
  | tval => exact csrValue_of_stored_in_full (by decide) rfl
  | _ => exact BitVec.or_zero

/-- Registers, pc and frame of a write of `rd` after a CSR write. -/
theorem regWritten_writeReg {rd : Reg} {v : Word} {s u : State} (h : u.gpr = s.gpr) :
    regWritten rd v s (advance (writeReg rd v u)) := by
  refine ⟨?_, fun r hr => ?_⟩
  · rw [readReg_advance, readReg_writeReg_same]
  · rw [readReg_advance, readReg_writeReg_other v u hr, readReg_congr h]

/-- Settles O41: the read value is the table's, and the write leaves what R49 says. -/
theorem csrAccessCompletes : Obligations.CsrAccessCompletes := by
  intro rd rj c s hplv
  have hnumber : csrOfNumber (specNumber c) = some c := by rw [specNumber_eq, csrOfNumber_csrNumber]
  have hread := csrRead_of_some s hnumber
  refine ⟨csrValue c s, csrReads_csrValue c s, completesWriting_of_exec_eq ?_, fun i w hi => ?_⟩
  · rw [exec_csrrd_of_plv0 hplv, hread]
  · have hexec := exec_csrWriting_of_plv0 (n := specNumber c) (w := w) hplv (by rwa [hread])
    rw [hread] at hexec
    exact ⟨_, hexec, regWritten_writeReg (csrWrite_gpr _ w s), csrWritten_csrWrite w s hnumber, by simp, by simp, by simp,
      by simp, by simp, by simp, by simp [sameMemory], by simp [sameDevices]⟩

theorem csrOfNumber_eq_none {n : BitVec 14} (h : ∀ c, specNumber c ≠ n) : csrOfNumber n = none := by
  refine Option.eq_none_iff_forall_ne_some.2 fun c hc => h c ?_
  rw [specNumber_eq, csrNumber_of_csrOfNumber hc]

/-- Settles O42: an unimplemented number reads as the free value and is not written. -/
theorem unimplementedCsrAccess : Obligations.UnimplementedCsrAccess := by
  intro rd rj n s hplv hn i hi
  have hnone := csrOfNumber_eq_none hn
  have hread := csrRead_of_none s hnone
  have hexec : exec i s =
      .next (advance (writeReg rd (Config.csrUndefRead s.draws) { s with draws := s.draws + 1 })) := by
    rcases hi with rfl | rfl | rfl
    · rw [exec_csrrd_of_plv0 hplv, hread]
    · rw [exec_csrWriting_of_plv0 (rj := rj) hplv (.inl ⟨rfl, rfl⟩), csrWrite_of_none _ _ hnone, hread]
    · rw [exec_csrWriting_of_plv0 hplv (.inr ⟨rfl, rfl⟩), csrWrite_of_none _ _ hnone, hread]
  exact ⟨_, hexec, regWritten_writeReg rfl, rfl, rfl, rfl, ⟨rfl, rfl, rfl, rfl, rfl, rfl⟩, fun _ => rfl, rfl, rfl⟩

end Sys2Proof.Machine
end

section
/-! PROOFS. The invariants of the machine: each part of a step keeps the form of memory, the reserved bits, the recorded
cause, and the lines and the parameters (`step_preserves`). -/

namespace Sys2Proof.Machine

/-! ## Memory (20_memory.md R100, R110) -/

/-- Backing memory and the shadow buffers in canonical form, every listed byte inside its range or region. -/
def memoryForm (s : State) : Prop := memoryCanonical s ∧ memoryInside s

theorem memoryForm_congr {s t : State} (hmem : t.mem = s.mem) (hshadow : t.shadow = s.shadow)
    (hplatform : t.platform = s.platform) (h : memoryForm s) : memoryForm t := by
  simpa only [memoryForm, memoryCanonical, memoryInside, hmem, hshadow, hplatform] using h

/-- A word written to the shadow buffer of the region that holds it keeps the form. -/
theorem memoryForm_of_shadowWriteBytes {s t : State} {a : Nat} {v : Word} {g : Region}
    (hg : regionOf s.platform a 4 = some g) (hmem : t.mem = s.mem) (hshadow : t.shadow = shadowWriteBytes s.shadow a v 4)
    (hplatform : t.platform = s.platform) (h : memoryForm s) : memoryForm t := by
  obtain ⟨⟨hmemWf, hshadowWf⟩, hmemIn, hshadowIn⟩ := h
  obtain ⟨hgmem, hlo, hhi⟩ := regionOf_some hg
  simp only [memoryForm, memoryCanonical, memoryInside, hmem, hshadow, hplatform]
  refine ⟨⟨hmemWf, shadow_wf_shadowWriteBytes _ _ _ hshadowWf⟩, hmemIn, fun c hc => ?_⟩
  rcases mem_shadowWriteBytes hc with ⟨h1, h2⟩ | hc
  · exact ⟨g, hgmem, by omega, by omega⟩
  · exact hshadowIn c hc

theorem memoryForm_of_memRead {a : Word} {w : Width} {s u : State} {v : Word} (hread : memRead a w s = .ok (v, u))
    (h : memoryForm s) : memoryForm u := by
  rcases memRead_cases hread with ⟨_, _, rfl⟩ | ⟨_, _, g, hg, _, rfl⟩
  · exact h
  · exact memoryForm_of_shadowWriteBytes hg rfl rfl rfl h

theorem memoryForm_of_memWrite {a : Word} {w : Width} {v : Word} {s u : State} (hwrite : memWrite a w v s = .ok u)
    (h : memoryForm s) : memoryForm u := by
  rcases memWrite_cases hwrite with ⟨hin, rfl⟩ | ⟨_, _, g, hg, rfl⟩
  · obtain ⟨⟨hmemWf, hshadowWf⟩, hmemIn, hshadowIn⟩ := h
    refine ⟨⟨memory_wf_memWriteBytes _ _ _ hmemWf, hshadowWf⟩, fun c hc => ?_, hshadowIn⟩
    obtain ⟨hlo, hhi⟩ := (inBacking_iff (widthBytes_pos w)).1 hin
    rcases mem_memWriteBytes hc with ⟨h1, h2⟩ | hc
    · exact ⟨by dsimp only; omega, by dsimp only; omega⟩
    · exact hmemIn c hc
  · exact memoryForm_of_shadowWriteBytes hg rfl rfl rfl h

/-- An instruction touches memory by one router access at most. -/
theorem memoryForm_of_execShape {i : Instr} {s t : State} (h : memoryForm s) (ht : ExecShape i s t) : memoryForm t := by
  cases ht with
  | loaded hread =>
    have hu := memoryForm_of_memRead hread h
    exact memoryForm_congr rfl rfl rfl hu
  | stored hwrite =>
    have hu := memoryForm_of_memWrite hwrite h
    exact memoryForm_congr rfl rfl rfl hu
  | csrWritten => exact memoryForm_congr (csrWrite_mem _ _ _) (csrWrite_shadow _ _ _) (csrWrite_platform _ _ _) h
  | _ => exact memoryForm_congr rfl rfl rfl h

/-- Settles O56: the fetch and an instruction's access keep the form, and nothing else of a step touches memory. -/
theorem stepKeepsMemoryForm : Obligations.StepKeepsMemoryForm := by
  intro s t hcanonical hinside hstep
  refine step_preserves memoryForm (fun _ => memoryForm_congr rfl rfl rfl) (fun _ => memoryForm_congr rfl rfl rfl)
    (fun s i u h hfetch => ?fetch) (fun _ => memoryForm_congr rfl rfl rfl) (fun _ => memoryForm_congr rfl rfl rfl)
    (fun _ _ _ => memoryForm_of_execShape) (fun s => ?phaseD) ⟨hcanonical, hinside⟩ hstep
  case fetch =>
    obtain ⟨w, hread, _⟩ := fetchDecode_ok hfetch
    exact memoryForm_of_memRead hread h
  case phaseD => exact memoryForm_congr (endOfStep_mem s) (endOfStep_shadow s) (endOfStep_platform s)

end Sys2Proof.Machine
end

section
/-! PROOFS. What a step can do to the CSRs, and the invariants of the CSRs that follow: the sample, an entry, a CSR write,
ERTN and phase D are the only parts of a step that change one. -/

namespace Sys2Proof.Machine

/-! ## ESTAT, part by part -/

/-- The bits of `fieldMask`. -/
theorem getLsbD_fieldMask {lo len : Nat} (h : lo + len ≤ 32) (k : Nat) :
    (fieldMask lo len).getLsbD k = decide (lo ≤ k ∧ k < lo + len) := by
  rw [fieldMask, BitVec.getLsbD_shiftLeft, BitVec.getLsbD_setWidth, BitVec.getLsbD_allOnes]
  by_cases hk : lo ≤ k ∧ k < lo + len
  · simp [hk, show k < 32 by omega, show ¬k < lo by omega, show k - lo < 32 by omega, show k - lo < len by omega]
  · rw [decide_eq_false hk]
    by_cases hlo : k < lo
    · simp [hlo]
    · simp [show ¬k - lo < len by omega]

/-- The sample, bit by bit (60_exceptions.md R431). -/
theorem getLsbD_estat_sampleLines (s : State) (k : Nat) : (sampleLines s).csr.estat.getLsbD k =
    (s.csr.estat.getLsbD k || (decide (2 ≤ k ∧ k ≤ 9) && s.lines.getLsbD k)) := by
  rw [sampleLines_estat, BitVec.getLsbD_or, BitVec.getLsbD_and, getLsbD_fieldMask (by omega), Bool.and_comm]
  congr 3
  exact propext (by omega)

/-- A CSR write changes of ESTAT the software bits IS[1:0] and the timer bit alone (10_state.md R49, R54, R70). -/
theorem getLsbD_estat_csrWrite (n : BitVec 14) (v : Word) (s : State) {k : Nat} (hsoft : 2 ≤ k) (htimer : k ≠ 11) :
    (csrWrite n v s).csr.estat.getLsbD k = s.csr.estat.getLsbD k := by
  cases hn : csrOfNumber n with
  | none => rw [csrWrite_of_none v s hn]
  | some c =>
    obtain ⟨hsame, hother, _, hticlr, _⟩ := csrWritten_csrWrite v s hn
    by_cases hestat : c = .estat
    · subst hestat
      have hsoftMask : specWmask .estat = fieldMask 0 2 := by decide
      refine (hsame (by decide) (by decide) k).trans (if_neg ?_)
      rw [hsoftMask, getLsbD_fieldMask (by omega), decide_eq_true_eq]
      omega
    · by_cases hc : c = .ticlr
      · simp [hticlr hc k, htimer]
      · exact congrArg (·.getLsbD k) (hother .estat (Ne.symm hestat) (by simp) (by simp [hc]))

/-- The core number is read-only (10_state.md R65). -/
theorem cpuid_csrWrite (n : BitVec 14) (v : Word) (s : State) : (csrWrite n v s).csr.cpuid = s.csr.cpuid := by
  cases hn : csrOfNumber n with
  | none => rw [csrWrite_of_none v s hn]
  | some c =>
    obtain ⟨hsame, hother, _⟩ := csrWritten_csrWrite v s hn
    by_cases hc : c = .cpuid
    · subst hc
      refine BitVec.eq_of_getLsbD_eq fun k _ => (hsame (by decide) (by decide) k).trans (if_neg ?_)
      rw [show specWmask .cpuid = 0#32 from rfl, BitVec.getLsbD_zero]
      exact Bool.false_ne_true
    · exact hother .cpuid (Ne.symm hc) (by simp) (by simp)

/-- Phase D changes of the CSRs the timer bit of ESTAT and TVAL alone (60_exceptions.md R450). -/
theorem csr_endOfStep (s : State) : ∃ e v, (endOfStep s).csr = { s.csr with estat := e, tval := v } ∧
    (e = s.csr.estat ∨ e = putBit s.csr.estat 11 true) := by
  unfold endOfStep timerTick
  split
  · split
    · exact ⟨_, _, rfl, .inr rfl⟩
    · exact ⟨_, _, rfl, .inl rfl⟩
  · exact ⟨s.csr.estat, s.csr.tval, rfl, .inl rfl⟩

theorem getLsbD_estat_endOfStep (s : State) {k : Nat} (htimer : k ≠ 11) :
    (endOfStep s).csr.estat.getLsbD k = s.csr.estat.getLsbD k := by
  obtain ⟨e, v, hcsr, rfl | rfl⟩ := csr_endOfStep s <;> rw [hcsr]
  rw [getLsbD_putBit _ _ _ _ (by omega), if_neg htimer]

theorem csrStored_endOfStep (s : State) {c : Csr} (hestat : c ≠ .estat) (htval : c ≠ .tval) :
    csrStored (endOfStep s).csr c = csrStored s.csr c := by
  obtain ⟨e, v, hcsr, _⟩ := csr_endOfStep s
  rw [hcsr]
  exact (csrStored_csrStore_other (csrStore s.csr .estat e) v htval).trans (csrStored_csrStore_other s.csr e hestat)

/-! ## What an instruction does to the CSRs -/

/-- A cause this hardware raises (60_exceptions.md R419, R423). -/
def isRaisedCause (n : ExcName) : Prop := ecode n ∈ raisedEcodes ∧ esubcode n = 0#9

theorem isRaisedCause_of_raises {i : Instr} {s : State} {c : Cause} (h : raises i s = some c) : isRaisedCause c.name := by
  unfold isRaisedCause
  rcases raises_cases h with ⟨_, hc⟩ | rfl | rfl | rfl | ⟨a, rfl⟩
  · rw [checkPrivilege_of_unprivileged (checkPrivilege_eq_some hc)] at hc
    obtain rfl := Option.some.inj hc
    decide
  · decide
  · decide
  · decide
  · exact ⟨by show ecode .ale ∈ raisedEcodes; decide, rfl⟩

/-- The next state of an instruction: its exception entered; or the CSRs as before; or, at PLV0 only, the CSRs of one CSR
write, or the return of ERTN. -/
theorem csr_of_execShape {i : Instr} {s t : State} (h : ExecShape i s t) :
    (∃ c, raises i s = some c ∧ t = enter c s) ∨ t.csr = s.csr ∨
      (crmdPlv s = 0#2 ∧ ((∃ n v d, t.csr = (csrWrite n v { s with draws := d }).csr) ∨ t = returnFromException s)) := by
  cases h with
  | entered hc => exact .inl ⟨_, hc, rfl⟩
  | loaded hread =>
    refine .inr (.inl ?_)
    rcases memRead_cases hread with ⟨_, _, rfl⟩ | ⟨_, _, _, _, _, rfl⟩ <;> rfl
  | stored hwrite =>
    refine .inr (.inl ?_)
    rcases memWrite_cases hwrite with ⟨_, rfl⟩ | ⟨_, _, _, _, rfl⟩ <;> rfl
  | csrWritten hplv n v d => exact .inr (.inr ⟨hplv, .inl ⟨n, v, d, rfl⟩⟩)
  | returned hplv => exact .inr (.inr ⟨hplv, .inr rfl⟩)
  | _ => exact .inr (.inl rfl)

/-- No instruction changes a line or a parameter (10_state.md R80; 20_memory.md R103). -/
theorem lines_platform_of_execShape {i : Instr} {s t : State} (h : ExecShape i s t) :
    t.lines = s.lines ∧ t.platform = s.platform := by
  cases h with
  | loaded hread => rcases memRead_cases hread with ⟨_, _, rfl⟩ | ⟨_, _, _, _, _, rfl⟩ <;> exact ⟨rfl, rfl⟩
  | stored hwrite => rcases memWrite_cases hwrite with ⟨_, rfl⟩ | ⟨_, _, _, _, rfl⟩ <;> exact ⟨rfl, rfl⟩
  | csrWritten _ n v d => exact ⟨csrWrite_lines n v _, csrWrite_platform n v _⟩
  | _ => exact ⟨rfl, rfl⟩

/-- A fetch leaves the CSRs, the pc, the lines and the parameters. -/
theorem fetchDecode_keeps {s u : State} {i : Instr} (h : fetchDecode s = .ok (i, u)) :
    u.csr = s.csr ∧ u.pc = s.pc ∧ u.lines = s.lines ∧ u.platform = s.platform := by
  rcases fetchDecode_frame h with rfl | ⟨_, _, _, rfl, _⟩ <;> exact ⟨rfl, rfl, rfl, rfl⟩

/-- An invariant of the CSRs and the lines: it is enough that the sample, the entries, a CSR write, ERTN and phase D keep
it. -/
theorem step_preserves_csr (P : State → Prop) (congr : ∀ s t, t.csr = s.csr → t.lines = s.lines → P s → P t)
    (sample : ∀ s, P s → P (sampleLines s)) (entry : ∀ c s, isRaisedCause c.name → P s → P (enter c s))
    (write : ∀ n v s, P s → P (csrWrite n v s)) (ertn : ∀ s, P s → P (returnFromException s))
    (phaseD : ∀ s, P s → P (endOfStep s)) {s t : State} (hs : P s) (h : step s = .next t) : P t := by
  refine step_preserves P sample (fun s => congr s _ rfl rfl) (fun s i u hP hf => ?fetch)
    (fun s => entry _ s ⟨by show ecode .adef ∈ raisedEcodes; decide, rfl⟩)
    (fun s => entry _ s ⟨by show ecode .int ∈ raisedEcodes; decide, rfl⟩) (fun i s t hP hx => ?instruction) phaseD hs h
  case fetch =>
    obtain ⟨hcsr, _, hlines, _⟩ := fetchDecode_keeps hf
    exact congr s u hcsr hlines hP
  case instruction =>
    have hlines := (lines_platform_of_execShape hx).1
    rcases csr_of_execShape hx with ⟨c, hc, rfl⟩ | hcsr | ⟨_, ⟨n, v, d, hcsr⟩ | rfl⟩
    · exact entry c s (isRaisedCause_of_raises hc) hP
    · exact congr s t hcsr hlines hP
    · exact congr _ t hcsr (hlines.trans (csrWrite_lines n v { s with draws := d }).symm) (write n v _ (congr s _ rfl rfl hP))
    · exact ertn s hP

/-! ## Reserved bits (10_state.md R43) -/

/-- The bits of `v` lie within those of `m`, bit by bit. -/
theorem and_not_eq_zero_iff {v m : Word} :
    v &&& ~~~m = 0#32 ↔ ∀ k, k < 32 → v.getLsbD k = true → m.getLsbD k = true := by
  refine ⟨fun h k hk hv => ?_, fun h => BitVec.eq_of_getLsbD_eq fun k hk => ?_⟩
  · have hbit := congrArg (·.getLsbD k) h
    simpa [hv, hk] using hbit
  · rw [BitVec.getLsbD_and, BitVec.getLsbD_not, BitVec.getLsbD_zero]
    cases hv : v.getLsbD k with
    | false => rfl
    | true => simp [h k hk hv]

/-- No CSR holds a bit outside its stored ones. -/
def storedWithin (r : Csrs) : Prop := ∀ c, csrStored r c &&& ~~~csrStoredMask c = 0#32

theorem reservedBitsZero_iff (s : State) : reservedBitsZero s ↔ storedWithin s.csr := by
  simp only [reservedBitsZero, storedWithin, specStoredMask_eq]

theorem storedWithin_csrStore {r : Csrs} {c : Csr} {v : Word} (hr : storedWithin r)
    (hv : v &&& ~~~csrStoredMask c = 0#32) : storedWithin (csrStore r c v) := by
  intro d
  by_cases hd : d = c
  · subst hd
    cases d with
    | pgd => exact hr .pgd
    | ticlr => exact hr .ticlr
    | _ => exact hv
  · rw [csrStored_csrStore_other r v hd]
    exact hr d

/-- A CSR of which every bit is stored may take any value. -/
theorem within_of_full {c : Csr} (hfull : csrStoredMask c = BitVec.allOnes 32) (v : Word) :
    v &&& ~~~csrStoredMask c = 0#32 := by
  rw [hfull, BitVec.not_allOnes, BitVec.and_zero]

theorem within_putField {v m : Word} {lo len : Nat} (f : BitVec len) (hlen : lo + len ≤ 32)
    (hm : fieldMask lo len &&& ~~~m = 0#32) (hv : v &&& ~~~m = 0#32) : putField v lo len f &&& ~~~m = 0#32 := by
  rw [and_not_eq_zero_iff] at hm hv ⊢
  intro k hk hbit
  rw [getLsbD_putField _ _ _ _ _ hlen] at hbit
  split_ifs at hbit with hin
  · exact hm k hk (by rw [getLsbD_fieldMask hlen, decide_eq_true hin])
  · exact hv k hk hbit

theorem storedWithin_sampleLines {s : State} (h : storedWithin s.csr) : storedWithin (sampleLines s).csr := by
  have hmask : fieldMask 2 8 &&& ~~~csrStoredMask .estat = 0#32 := by decide
  refine storedWithin_csrStore (c := .estat) h (and_not_eq_zero_iff.2 fun k hk hbit => ?_)
  rw [BitVec.getLsbD_or, Bool.or_eq_true, BitVec.getLsbD_and, Bool.and_eq_true] at hbit
  rcases hbit with hold | ⟨_, hline⟩
  · exact and_not_eq_zero_iff.1 (h .estat) k hk hold
  · exact and_not_eq_zero_iff.1 hmask k hk hline

theorem storedWithin_enter (c : Cause) {s : State} (h : storedWithin s.csr) : storedWithin (enter c s).csr := by
  have hprmd : savedMode s &&& ~~~csrStoredMask .prmd = 0#32 :=
    within_putField _ (by omega) (by decide) (within_putField _ (by omega) (by decide) (h .prmd))
  have hcrmd : handlerMode s &&& ~~~csrStoredMask .crmd = 0#32 :=
    within_putField _ (by omega) (by decide) (within_putField _ (by omega) (by decide) (h .crmd))
  have hestat : recordedCause c.name s &&& ~~~csrStoredMask .estat = 0#32 :=
    within_putField _ (by omega) (by decide) (within_putField _ (by omega) (by decide) (h .estat))
  have hera := within_of_full (c := .era) (by decide) s.pc
  have hbadv := within_of_full (c := .badv) (by decide) (enter c s).csr.badv
  exact storedWithin_csrStore (storedWithin_csrStore (storedWithin_csrStore (storedWithin_csrStore
    (storedWithin_csrStore h hprmd) hcrmd) hestat) hera) hbadv

theorem storedWithin_csrWrite (n : BitVec 14) (v : Word) {s : State} (h : storedWithin s.csr) :
    storedWithin (csrWrite n v s).csr := by
  cases hn : csrOfNumber n with
  | none => rwa [csrWrite_of_none v s hn]
  | some c =>
    have hstore : storedWithin (csrStore s.csr c (merge (csrWmask c) (csrStored s.csr c) v)) := by
      refine storedWithin_csrStore h (and_not_eq_zero_iff.2 fun k hk hbit => ?_)
      rw [getLsbD_merge] at hbit
      split_ifs at hbit with hw
      · rw [csrStoredMask, BitVec.getLsbD_or, hw, Bool.true_or]
      · exact and_not_eq_zero_iff.1 (h c) k hk hbit
    rw [csrWrite_of_some v s hn, csrSideEffect_csr]
    split_ifs
    · exact storedWithin_csrStore (c := .tval) hstore (within_of_full (by decide) _)
    · exact storedWithin_csrStore (c := .estat) hstore (within_putField _ (by omega) (by decide) (hstore .estat))
    · exact hstore

theorem storedWithin_returnFromException {s : State} (h : storedWithin s.csr) :
    storedWithin (returnFromException s).csr := by
  have hcrmd : restoredMode s &&& ~~~csrStoredMask .crmd = 0#32 :=
    within_putField _ (by omega) (by decide) (within_putField _ (by omega) (by decide) (h .crmd))
  have hllbctl : putBit s.csr.llbctl 2 false &&& ~~~csrStoredMask .llbctl = 0#32 :=
    within_putField _ (by omega) (by decide) (h .llbctl)
  exact storedWithin_csrStore (storedWithin_csrStore h hcrmd) hllbctl

theorem storedWithin_endOfStep {s : State} (h : storedWithin s.csr) : storedWithin (endOfStep s).csr := by
  obtain ⟨e, v, hcsr, he⟩ := csr_endOfStep s
  have hestat : e &&& ~~~csrStoredMask .estat = 0#32 := by
    rcases he with rfl | rfl
    · exact h .estat
    · exact within_putField _ (by omega) (by decide) (h .estat)
  rw [hcsr]
  exact storedWithin_csrStore (c := .tval) (storedWithin_csrStore (c := .estat) h hestat)
    (within_of_full (by decide) v)

/-- Settles O57: every part of a step that changes a CSR puts in it only bits the CSR stores. -/
theorem stepKeepsReservedBits : Obligations.StepKeepsReservedBits := by
  intro s t hs hstep
  rw [reservedBitsZero_iff] at hs ⊢
  exact step_preserves_csr (fun s => storedWithin s.csr) (fun _ _ hcsr _ h => hcsr ▸ h)
    (fun _ => storedWithin_sampleLines) (fun c _ _ => storedWithin_enter c) (fun n v _ => storedWithin_csrWrite n v)
    (fun _ => storedWithin_returnFromException) (fun _ => storedWithin_endOfStep) hs hstep

/-! ## The recorded cause and the core number (60_exceptions.md R419, R423, R461) -/

/-- ESTAT's code is of a raised cause, with no inter-processor interrupt and core number 0. -/
def raisedCauseForm (s : State) : Prop := causeIsRaised s ∧ singleCore s

/-- The form looks at ESTAT from bit 12 on, and at the core number. -/
theorem raisedCauseForm_congr {s t : State} (hestat : ∀ k, 12 ≤ k → t.csr.estat.getLsbD k = s.csr.estat.getLsbD k)
    (hcpuid : t.csr.cpuid = s.csr.cpuid) (h : raisedCauseForm s) : raisedCauseForm t := by
  have hfield {lo len : Nat} (hlo : 12 ≤ lo) : t.csr.estat.extractLsb' lo len = s.csr.estat.extractLsb' lo len :=
    BitVec.eq_of_getLsbD_eq fun k _ => by
      rw [BitVec.getLsbD_extractLsb', BitVec.getLsbD_extractLsb', hestat _ (by omega)]
  simpa only [raisedCauseForm, causeIsRaised, singleCore, estatEcode, estatEsubcode, hfield (show 12 ≤ 16 by omega),
    hfield (show 12 ≤ 22 by omega), hestat 12 (by omega), hcpuid] using h

theorem raisedCauseForm_enter {c : Cause} {s : State} (hc : isRaisedCause c.name) (h : raisedCauseForm s) :
    raisedCauseForm (enter c s) := by
  obtain ⟨hcode, hsub⟩ := hc
  obtain ⟨_, hipi, hcpuid⟩ := h
  have hentered := entryEffect c s
  refine ⟨⟨?_, hentered.subcause.trans hsub⟩, ?_, hcpuid⟩
  · rwa [hentered.cause]
  · rw [← hipi]
    exact getLsbD_eq_of_extractLsb'_eq hentered.pending (by omega) (by omega)

/-- Settles O58: an entry records a raised cause, and no other part of a step changes ESTAT from bit 12 on or CPUID. -/
theorem stepKeepsRaisedCause : Obligations.StepKeepsRaisedCause := by
  intro s t hcause hcore hstep
  refine step_preserves_csr raisedCauseForm
    (fun s t hcsr _ => raisedCauseForm_congr (fun _ _ => by rw [hcsr]) (by rw [hcsr])) (fun s => ?sample)
    (fun _ _ hc => raisedCauseForm_enter hc) (fun n v s => ?write) (fun s => ?ertn) (fun s => ?phaseD)
    ⟨hcause, hcore⟩ hstep
  case sample =>
    refine raisedCauseForm_congr (fun k hk => ?_) rfl
    rw [getLsbD_estat_sampleLines, decide_eq_false (by omega), Bool.false_and, Bool.or_false]
  case write =>
    exact raisedCauseForm_congr (fun k hk => getLsbD_estat_csrWrite n v s (by omega) (by omega)) (cpuid_csrWrite n v s)
  case ertn => exact raisedCauseForm_congr (fun _ _ => rfl) rfl
  case phaseD =>
    exact raisedCauseForm_congr (fun k hk => getLsbD_estat_endOfStep s (by omega))
      (csrStored_endOfStep s (c := .cpuid) (by decide) (by decide))

/-! ## Lines and parameters (10_state.md R80; 20_memory.md R103; 60_exceptions.md R431) -/

theorem step_keeps_lines_platform {s t : State} (h : step s = .next t) : t.lines = s.lines ∧ t.platform = s.platform := by
  refine step_preserves (fun u => u.lines = s.lines ∧ u.platform = s.platform) (fun _ hu => hu) (fun _ hu => hu)
    (fun u i v hu hf => ?fetch) (fun _ hu => hu) (fun _ hu => hu) (fun i u v hu hx => ?instruction)
    (fun u hu => by rwa [endOfStep_lines, endOfStep_platform]) ⟨rfl, rfl⟩ h
  case fetch =>
    obtain ⟨_, _, hlines, hplatform⟩ := fetchDecode_keeps hf
    exact ⟨hlines.trans hu.1, hplatform.trans hu.2⟩
  case instruction =>
    obtain ⟨hlines, hplatform⟩ := lines_platform_of_execShape hx
    exact ⟨hlines.trans hu.1, hplatform.trans hu.2⟩

/-- `pendingHaveLines` looks at ESTAT.IS[9:2] and the lines alone. -/
theorem pendingHaveLines_congr {s t : State}
    (hestat : ∀ k, 2 ≤ k → k ≤ 9 → t.csr.estat.getLsbD k = s.csr.estat.getLsbD k) (hlines : t.lines = s.lines)
    (h : pendingHaveLines s) : pendingHaveLines t := by
  intro k h2 h9 hbit
  rw [hestat k h2 h9] at hbit
  rw [hlines]
  exact h k h2 h9 hbit

theorem pendingHaveLines_sampleLines {s : State} (h : pendingHaveLines s) : pendingHaveLines (sampleLines s) := by
  intro k h2 h9 hbit
  rw [getLsbD_estat_sampleLines, Bool.or_eq_true, Bool.and_eq_true] at hbit
  exact hbit.elim (h k h2 h9) (·.2)

/-- Settles O59: only the sample sets a bit of ESTAT.IS[9:2], and it sets it from its line. -/
theorem stepKeepsLinesAndPlatform : Obligations.StepKeepsLinesAndPlatform := by
  intro s t hstep
  obtain ⟨hlines, hplatform⟩ := step_keeps_lines_platform hstep
  refine ⟨hlines, hplatform, fun hs => ?_⟩
  refine step_preserves_csr pendingHaveLines (fun s t hcsr => pendingHaveLines_congr (fun _ _ _ => by rw [hcsr]))
    (fun _ => pendingHaveLines_sampleLines) (fun c s _ => ?entry) (fun n v s => ?write) (fun _ h => h) (fun s => ?phaseD)
    hs hstep
  case entry =>
    exact pendingHaveLines_congr (fun k _ _ =>
      getLsbD_eq_of_extractLsb'_eq (entryEffect c s).pending (by omega) (by omega)) rfl
  case write =>
    exact pendingHaveLines_congr (fun k h2 _ => getLsbD_estat_csrWrite n v s h2 (by omega)) (csrWrite_lines n v s)
  case phaseD =>
    exact pendingHaveLines_congr (fun k _ _ => getLsbD_estat_endOfStep s (by omega)) (endOfStep_lines s)

end Sys2Proof.Machine
end

section
/-! PROOFS. An unprivileged step (60_exceptions.md R441, R442): without PLV0 no instruction writes a CSR, so what is left is
the sample, an entry and phase D. -/

namespace Sys2Proof.Machine

/-- The CSRs stay as they were, but for the sampled lines, the timer bit and TVAL. -/
def csrsQuiet (s t : State) : Prop :=
  (∀ k, ¬(2 ≤ k ∧ k ≤ 9) → k ≠ 11 → t.csr.estat.getLsbD k = s.csr.estat.getLsbD k) ∧
    ∀ c, c ≠ .estat → c ≠ .tval → csrStored t.csr c = csrStored s.csr c

theorem csrsQuiet_sampleLines (s : State) : csrsQuiet s (sampleLines s) := by
  refine ⟨fun k hk _ => ?_, fun c hestat _ => csrStored_csrStore_other s.csr (c := .estat) _ hestat⟩
  rw [getLsbD_estat_sampleLines, decide_eq_false hk, Bool.false_and, Bool.or_false]

theorem csrsQuiet_endOfStep {s t : State} (h : csrsQuiet s t) : csrsQuiet s (endOfStep t) :=
  ⟨fun k hk htimer => (getLsbD_estat_endOfStep t htimer).trans (h.1 k hk htimer),
    fun _ hestat htval => (csrStored_endOfStep t hestat htval).trans (h.2 _ hestat htval)⟩

theorem crmd_of_csrsQuiet {s t : State} (h : csrsQuiet s t) : t.csr.crmd = s.csr.crmd :=
  h.2 .crmd (by decide) (by decide)

/-- Phases B and C at PLV ≠ 0: an entry from a state with these CSRs and this pc, or the CSRs as they were. -/
theorem fetchAndExecute_unprivileged {s t : State} (hplv : crmdPlv s ≠ 0#2) (h : fetchAndExecute s = .next t) :
    (∃ c u, t = enter c u ∧ u.csr = s.csr ∧ u.pc = s.pc) ∨ t.csr = s.csr := by
  rcases fetchAndExecute_eq_next h with ⟨_, rfl⟩ | ⟨_, i, u, hf, hc⟩
  · exact .inl ⟨_, s, rfl, rfl, rfl⟩
  · obtain ⟨hcsr, hpc, _⟩ := fetchDecode_keeps hf
    rcases phaseC_eq_next hc with ⟨_, _, rfl⟩ | ⟨_, he⟩
    · exact .inl ⟨_, u, rfl, hcsr, hpc⟩
    · rcases csr_of_execShape (exec_shape he) with ⟨c, _, rfl⟩ | hsame | ⟨hzero, _⟩
      · exact .inl ⟨c, u, rfl, hcsr, hpc⟩
      · exact .inr (hsame.trans hcsr)
      · rw [crmdPlv, hcsr] at hzero
        exact absurd hzero hplv

/-- At PLV ≠ 0 a step is quiet, or it enters a handler from a quiet state at the same pc, and ends with phase D. -/
theorem step_unprivileged {s t : State} (hs : canStep s) (hplv : crmdPlv s ≠ 0#2) (hstep : step s = .next t) :
    csrsQuiet s t ∨ ∃ c u, t = endOfStep (enter c u) ∧ csrsQuiet s u ∧ u.pc = s.pc := by
  have hquiet {u : State} (hu : u.csr = (sampleLines s).csr) : csrsQuiet s u := by
    unfold csrsQuiet
    rw [hu]
    exact csrsQuiet_sampleLines s
  obtain ⟨hrun, _⟩ := hs
  rcases step_eq_next hstep with ⟨⟨c, hhalt⟩, _⟩ | ⟨_, _, ⟨_, rfl⟩ | ⟨_, u, hu, rfl⟩⟩
  · rw [hrun] at hhalt
    cases hhalt
  · exact .inl (csrsQuiet_endOfStep (hquiet rfl))
  · rcases fetchAndExecute_unprivileged (s := wake (sampleLines s)) hplv hu with ⟨c, v, rfl, hcsr, hpc⟩ | hsame
    · exact .inr ⟨c, v, rfl, hquiet hcsr, hpc⟩
    · exact .inl (csrsQuiet_endOfStep (hquiet hsame))

/-- Settles O60: a quiet step keeps the level with CRMD; an entry from a quiet state saves the level and the pc of the step,
and phase D adds nothing to either but the timer. -/
theorem unprivilegedStepIsConfined : Obligations.UnprivilegedStepIsConfined := by
  intro s t hs hplv hstep
  rcases step_unprivileged hs hplv hstep with hq | ⟨c, u, rfl, hq, hpc⟩
  · exact .inl ⟨by rw [crmdPlv, crmd_of_csrsQuiet hq, crmdPlv], hq⟩
  · have hcrmd := crmd_of_csrsQuiet hq
    have heentry : u.csr.eentry = s.csr.eentry := hq.2 .eentry (by decide) (by decide)
    have hentered := entryEffect c u
    have hend {d : Csr} (hestat : d ≠ .estat) (htval : d ≠ .tval) := csrStored_endOfStep (enter c u) hestat htval
    have hendCrmd : (endOfStep (enter c u)).csr.crmd = (enter c u).csr.crmd := hend (d := .crmd) (by decide) (by decide)
    have hendPrmd : (endOfStep (enter c u)).csr.prmd = (enter c u).csr.prmd := hend (d := .prmd) (by decide) (by decide)
    have hendEra : (endOfStep (enter c u)).csr.era = (enter c u).csr.era := hend (d := .era) (by decide) (by decide)
    refine .inr ⟨?plv, ?ie, ?pc, ?era, ?pplv, ?pie, ?crmdRest, fun k hk hline htimer => ?estat,
      fun d h1 h2 h3 h4 h5 h6 => ?others⟩
    case plv => rw [crmdPlv, hendCrmd]; exact hentered.plv
    case ie => rw [crmdIe, hendCrmd]; exact hentered.ie
    case pc => rw [endOfStep_pc, hentered.pc, entryAddress, heentry, entryAddress]
    case era => rw [hendEra, hentered.era, hpc]
    case pplv => rw [prmdPplv, hendPrmd]; exact hentered.pplv.trans (by rw [crmdPlv, hcrmd, crmdPlv])
    case pie => rw [prmdPie, hendPrmd]; exact hentered.pie.trans (by rw [crmdIe, hcrmd, crmdIe])
    case crmdRest => rw [hendCrmd, hentered.crmdRest, hcrmd]
    case estat =>
      rw [getLsbD_estat_endOfStep _ htimer, ← hq.1 k hline htimer]
      exact getLsbD_eq_of_extractLsb'_eq hentered.pending (by omega) (by omega)
    case others => rw [hend h3 h6, hentered.otherCsrs d h1 h2 h3 h4 h5, hq.2 d h3 h6]

end Sys2Proof.Machine
end

section
/-! PROOFS. The synchronous exceptions of phase B: `raises` finds exactly those of the independent list `Raised`
(60_exceptions.md R403, R422 to R427). -/

namespace Sys2Proof.Machine

theorem checkPrivilege_eq_some_ipe {s : State} {c : Cause} (h : checkPrivilege s = some c) : c = causeIpe := by
  rw [checkPrivilege_of_unprivileged (checkPrivilege_eq_some h)] at h
  exact (Option.some.inj h).symm

theorem misaligned_of_checkAlignment {a : Word} {w : Width} {c : Cause} (h : checkAlignment a w = some c) :
    ¬isAligned a w = true := fun ha => by
  rw [checkAlignment_of_aligned ha] at h
  cases h

/-- A privileged instruction raises IPE and nothing else. -/
theorem raised_of_isPrivileged {i : Instr} {s : State} {c : Cause} (hi : isPrivileged i = true)
    (h : checkPrivilege s = some c) : Raised i s (ecode c.name) (enter c s).csr.badv := by
  obtain rfl := checkPrivilege_eq_some_ipe h
  exact .privilege i s hi (checkPrivilege_eq_some h)

/-- Every cause that `raises` finds is on the list, with the BADV that its entry leaves. -/
theorem raised_of_raises {i : Instr} {s : State} {c : Cause} (h : raises i s = some c) :
    Raised i s (ecode c.name) (enter c s).csr.badv := by
  have half {rd rj : Reg} {si12 : BitVec 12} (hi : i = .ldH rd rj si12 ∨ i = .ldHu rd rj si12 ∨ i = .stH rd rj si12)
      (h : checkAlignment (addr12 rj si12 s) .half = some c) : Raised i s (ecode c.name) (enter c s).csr.badv := by
    obtain rfl := checkAlignment_eq_some h
    exact .half i rd rj si12 s hi (mt (isAligned_half _).2 (misaligned_of_checkAlignment h))
  have word {rd rj : Reg} {si12 : BitVec 12} (hi : i = .ldW rd rj si12 ∨ i = .stW rd rj si12)
      (h : checkAlignment (addr12 rj si12 s) .word = some c) : Raised i s (ecode c.name) (enter c s).csr.badv := by
    obtain rfl := checkAlignment_eq_some h
    exact .word i rd rj si12 s hi (mt (isAligned_word _).2 (misaligned_of_checkAlignment h))
  have linked {rd rj : Reg} {si14 : BitVec 14} (hi : i = .llW rd rj si14 ∨ i = .scW rd rj si14)
      (h : checkAlignment (addr14 rj si14 s) .word = some c) : Raised i s (ecode c.name) (enter c s).csr.badv := by
    rw [addr14_eq] at h
    obtain rfl := checkAlignment_eq_some h
    exact .linked i rd rj si14 s hi (mt (isAligned_word _).2 (misaligned_of_checkAlignment h))
  cases i with
  | csrrd | csrwr | csrxchg | cacop | tlbsrch | tlbrd | tlbwr | tlbfill | ertn | idle =>
    exact raised_of_isPrivileged rfl h
  | invtlb op rj rk =>
    by_cases hop : op ≤ 6#5
    · exact raised_of_isPrivileged (decide_eq_true hop) (checkInvtlb_of_op_le_six hop s ▸ h)
    · have hlt : 6 < op.toNat := BitVec.lt_def.1 (BitVec.not_le.1 hop)
      obtain rfl := Option.some.inj ((checkInvtlb_of_op_above_six hlt s).symm.trans h)
      exact .invtlbOp op rj rk s hlt
  | invalid w => obtain rfl := Option.some.inj h; exact .invalidWord w s
  | syscall code => obtain rfl := Option.some.inj h; exact .syscall code s
  | brk code =>
    obtain rfl := checkBreak_eq_some h
    refine .brk code s (Bool.eq_false_of_not_eq_true fun hhalt => ?_)
    cases h.symm.trans (if_pos hhalt)
  | ldH => exact half (.inl rfl) h
  | ldHu => exact half (.inr (.inl rfl)) h
  | stH => exact half (.inr (.inr rfl)) h
  | ldW => exact word (.inl rfl) h
  | stW => exact word (.inr rfl) h
  | llW => exact linked (.inl rfl) h
  | scW => exact linked (.inr rfl) h
  | _ => cases h

/-- `raises` finds every exception on the list. -/
theorem raises_of_raised {i : Instr} {s : State} {code : BitVec 6} {badv : Word} (h : Raised i s code badv) :
    ∃ c, raises i s = some c ∧ ecode c.name = code ∧ (enter c s).csr.badv = badv := by
  have ale {a : Word} {w : Width} (hcheck : raises i s = checkAlignment a w) (ha : ¬isAligned a w = true) :
      ∃ c, raises i s = some c ∧ ecode c.name = 0x9#6 ∧ (enter c s).csr.badv = a :=
    ⟨causeAle a, hcheck.trans (checkAlignment_of_misaligned (Bool.eq_false_of_not_eq_true ha)), rfl, rfl⟩
  cases h with
  | invalidWord => exact ⟨causeIne, rfl, rfl, rfl⟩
  | invtlbOp op rj rk _ hop => exact ⟨causeIne, checkInvtlb_of_op_above_six hop s, rfl, rfl⟩
  | privilege _ _ hi hp =>
    exact ⟨causeIpe, (raises_of_isPrivileged hi s).trans (checkPrivilege_of_unprivileged hp), rfl, rfl⟩
  | syscall => exact ⟨causeSys, rfl, rfl, rfl⟩
  | brk code _ hb => exact ⟨causeBrk, if_neg (by rw [hb]; exact Bool.false_ne_true), rfl, rfl⟩
  | half _ rd rj si12 _ hi hodd =>
    have ha := mt (isAligned_half _).1 hodd
    rcases hi with rfl | rfl | rfl <;> exact ale rfl ha
  | word _ rd rj si12 _ hi hoff =>
    have ha := mt (isAligned_word _).1 hoff
    rcases hi with rfl | rfl <;> exact ale rfl ha
  | linked _ rd rj si14 _ hi hoff =>
    rw [← addr14_eq] at hoff ⊢
    have ha := mt (isAligned_word _).1 hoff
    rcases hi with rfl | rfl <;> exact ale rfl ha

theorem raised_iff_raises {i : Instr} {s : State} {code : BitVec 6} {badv : Word} : Raised i s code badv ↔
    ∃ c, raises i s = some c ∧ ecode c.name = code ∧ esubcode c.name = 0#9 ∧ (enter c s).csr.badv = badv := by
  constructor
  · intro h
    obtain ⟨c, hc, hcode, hbadv⟩ := raises_of_raised h
    exact ⟨c, hc, hcode, (isRaisedCause_of_raises hc).2, hbadv⟩
  · rintro ⟨c, hc, rfl, _, rfl⟩
    exact raised_of_raises hc

theorem takesException_of_raised {i : Instr} {s : State} {code : BitVec 6} {badv : Word} (h : Raised i s code badv) :
    takesException i s code badv := by
  obtain ⟨c, hc, rfl, hsub, rfl⟩ := raised_iff_raises.1 h
  exact takesException_of_raises hc hsub

/-! ## The step of a decoded instruction (60_exceptions.md R403) -/

/-- Phases C and D: the interrupt if the instruction raises nothing and one is due, else the instruction. -/
theorem finish_phaseC (i : Instr) (s : State) : finish (phaseC i s) =
    if raises i s = none ∧ interruptDue s = true then .next (endOfStep (enter causeInt s)) else finish (exec i s) := by
  rw [phaseC]
  by_cases h : raises i s = none ∧ interruptDue s = true
  · rw [if_pos h, if_pos (by simp [h])]
    rfl
  · rw [if_neg h, if_neg (by simpa using h)]

/-- The step of an awake core at an aligned pc in backing memory whose word decodes. -/
theorem step_of_decodes {s : State} {i : Instr} (hs : canStep s) (hawake : stillWaiting (sampleLines s) = false)
    (haligned : s.pc.toNat % 4 = 0) (hin : insideBacking s s.pc 4)
    (hdecode : decodeWord (memReadBytes s.mem s.pc.toNat 4) = some i) :
    step s = finish (phaseC i (wake (sampleLines s))) := by
  obtain ⟨hrun, hdirect⟩ := hs
  rw [step_of_running hrun hdirect hawake]
  exact congrArg finish (fetchAndExecute_of_decodes (s := wake (sampleLines s)) ((isAligned_word _).2 haligned)
    ((inBacking_iff (by omega)).2 hin) hdecode)

/-- A word of backing memory is the little-endian sum of its bytes (20_memory.md R105). -/
theorem memReadBytes_eq_ofNat (s : State) (a : Nat) {n : Nat} (h : n ≤ 4) :
    memReadBytes s.mem a n = BitVec.ofNat 32 (littleEndian s a n) := by
  rw [← (toNat_memReadBytes s a h).1, BitVec.ofNat_toNat, BitVec.setWidth_eq]

/-- The word a fetch reads is the word of its four bytes (30_encoding.md R150). -/
theorem memReadBytes_eq_wordOfBytes (s : State) (a : Nat) : memReadBytes s.mem a 4 =
    wordOfBytes (memByte s.mem a) (memByte s.mem (a + 1)) (memByte s.mem (a + 2)) (memByte s.mem (a + 3)) := by
  apply BitVec.eq_of_toNat_eq
  rw [(toNat_memReadBytes s a (Nat.le_refl 4)).1]
  simp only [wordOfBytes, toNat_append_field]
  simp only [littleEndian, Nat.add_assoc, Nat.reduceAdd]
  omega

theorem decodeWord_of_decode {b0 b1 b2 b3 : Byte} {i : Instr} (h : decode [b0, b1, b2, b3] = .ok (i, [])) :
    decodeWord (wordOfBytes b0 b1 b2 b3) = some i := by
  cases hd : decodeWord (wordOfBytes b0 b1 b2 b3) with
  | none =>
    simp only [decode, hd] at h
    cases h
  | some j =>
    simp only [decode, hd] at h
    cases h
    rfl

/-- Settles O7: the four bytes at the pc are the word the fetch reads, and phases C and D follow. -/
theorem stepRunsDecodedInstruction : Obligations.StepRunsDecodedInstruction := by
  intro s i hs hawake haligned hin hdecode
  rw [← finish_phaseC]
  refine step_of_decodes hs hawake haligned hin ?_
  rw [memReadBytes_eq_wordOfBytes]
  exact decodeWord_of_decode hdecode

/-- Settles O9: the list and the check agree, and phase C looks at the check before the interrupt. -/
theorem synchronousExceptionBeforeInterrupt : Obligations.SynchronousExceptionBeforeInterrupt := by
  refine ⟨fun i s code badv => raised_iff_raises, fun i s code badv => takesException_of_raised,
    fun s i code badv hs hawake haligned hin hdecode hraised => ?_⟩
  obtain ⟨t, hexec, hentered⟩ := takesException_of_raised hraised
  obtain ⟨c, hc, _⟩ := raises_of_raised hraised
  refine ⟨t, ?_, hentered⟩
  rw [step_of_decodes hs hawake haligned hin hdecode, finish_phaseC, if_neg (by simp [hc]), hexec]
  rfl

/-- Settles O10: with no exception on the list, `raises` finds none, and the interrupt is due. -/
theorem interruptIsTaken : Obligations.InterruptIsTaken := by
  intro s i hs hawake haligned hin hdecode hnone hpending hie
  have hraises : raises i (wake (sampleLines s)) = none :=
    Option.eq_none_iff_forall_ne_some.2 fun _ hc => hnone _ _ (raised_of_raises hc)
  have hdue : interruptDue (wake (sampleLines s)) = true := Bool.and_eq_true_iff.2 ⟨bne_iff_ne.2 hpending, hie⟩
  refine ⟨enter causeInt (wake (sampleLines s)), ?_, entryEffect causeInt (wake (sampleLines s))⟩
  rw [step_of_decodes hs hawake haligned hin hdecode, finish_phaseC, if_pos ⟨hraises, hdue⟩]

/-- Settles O11: the alignment of the pc is checked before the fetch. -/
theorem misalignedPcRaisesAdef : Obligations.MisalignedPcRaisesAdef := by
  intro s hs hawake hoff
  obtain ⟨hrun, hdirect⟩ := hs
  refine ⟨enter (causeAdef s.pc) (wake (sampleLines s)), ?_, entryEffect (causeAdef s.pc) (wake (sampleLines s))⟩
  have hcheck : checkFetch (wake (sampleLines s)) = some (causeAdef s.pc) := if_neg (mt (isAligned_word _).1 hoff)
  rw [step_of_running hrun hdirect hawake, fetchAndExecute, hcheck]
  rfl

/-- Settles O13: the step looks at the status first. -/
theorem terminalStatusRepeats : Obligations.TerminalStatusRepeats := by
  intro s
  refine ⟨fun c h => ?_, fun f h => ?_, fun r h => ?_⟩ <;> rw [step, executeOneStep, h]

end Sys2Proof.Machine
end

section
/-! PROOFS. The fetch from a region, and how a step stops: its faults are the router's, its refusals mapped mode and the TLB
instructions (60_exceptions.md R403, R406, R407). -/

namespace Sys2Proof.Machine

/-! ## The fetch -/

theorem fetchDecode_of_memRead {s u : State} {w : Word} {i : Instr} (hread : memRead s.pc .word s = .ok (w, u))
    (hdecode : decodeWord w = some i) : fetchDecode s = .ok (i, u) := by
  simp only [fetchDecode, hread, hdecode]

/-- Every word decodes, so a fetch fails by its read alone (60_exceptions.md R406). -/
theorem fetchDecode_error {s : State} {f : Fault} (h : fetchDecode s = .error f) : memRead s.pc .word s = .error f := by
  unfold fetchDecode at h
  split at h
  · rename_i g hread
    obtain rfl : g = f := Except.error.inj h
    exact hread
  · rename_i w u hread
    obtain ⟨i, hi⟩ := Option.isSome_iff_exists.1 (decodeWord_isSome w)
    simp only [hi] at h
    cases h

/-- The checks and the fetch passed, phase C follows. -/
theorem fetchAndExecute_of_fetchDecode {s u : State} {i : Instr} (haligned : isAligned s.pc .word = true)
    (hfetch : fetchDecode s = .ok (i, u)) : fetchAndExecute s = phaseC i u := by
  simp only [fetchAndExecute, checkFetch, haligned, if_true, unlessRaised_none, hfetch]

/-- Settles O8: the fetch is a region read of the word at the pc. -/
theorem fetchFromRegionRunsDeviceWord : Obligations.FetchFromRegionRunsDeviceWord := by
  intro s g i hs hawake haligned hout hg w hdecode
  obtain ⟨hrun, hdirect⟩ := hs
  refine ⟨shadowWriteBytes s.shadow s.pc.toNat w 4, shadowStored_shadowWriteBytes _ _ _, ?_⟩
  intro u
  have hread : memRead s.pc .word (wake (sampleLines s)) = .ok (w, u) :=
    (router_of_word_region (s := wake (sampleLines s)) hout hg).1
  rw [← finish_phaseC, step_of_running hrun hdirect hawake]
  exact congrArg finish
    (fetchAndExecute_of_fetchDecode ((isAligned_word _).2 haligned) (fetchDecode_of_memRead hread hdecode))

/-! ## How a step stops -/

theorem finish_stop {r q : Result} (hr : ∀ t, r ≠ .next t) (h : finish q = r) : q = r := by
  cases q with
  | next s => exact absurd h.symm (hr _)
  | fault f => exact h
  | refused f => exact h

/-- Phases B and C stop in the fetch or in the instruction. -/
theorem fetchAndExecute_stop {s : State} {r : Result} (hr : ∀ t, r ≠ .next t) (h : fetchAndExecute s = r) :
    isAligned s.pc .word = true ∧ ((∃ f, memRead s.pc .word s = .error f ∧ r = .fault f) ∨
      ∃ i u, fetchDecode s = .ok (i, u) ∧ exec i u = r) := by
  obtain ⟨hcheck, hrest⟩ := unlessRaised_eq_stop hr h
  have haligned : isAligned s.pc .word = true := by
    by_contra hoff
    cases hcheck.symm.trans (if_neg hoff)
  refine ⟨haligned, ?_⟩
  split at hrest
  · rename_i f hfetch
    exact .inl ⟨f, fetchDecode_error hfetch, hrest.symm⟩
  · rename_i i u hfetch
    refine .inr ⟨i, u, hfetch, ?_⟩
    unfold phaseC at hrest
    split at hrest
    · exact absurd hrest.symm (hr _)
    · exact hrest

/-- A running core stops in mapped mode, or in phases B and C (60_exceptions.md R403). -/
theorem step_stop {s : State} {r : Result} (hr : ∀ t, r ≠ .next t) (hrun : s.status = .running) (h : step s = r) :
    (inMappedMode s = true ∧ r = .refused .mappedMode) ∨
      (inMappedMode s = false ∧ fetchAndExecute (wake (sampleLines s)) = r) := by
  simp only [step, executeOneStep, hrun] at h
  split at h
  · rename_i hmapped
    exact .inl ⟨hmapped, h.symm⟩
  · rename_i hdirect
    unfold runSampled at h
    split at h
    · exact absurd h.symm (hr _)
    · exact .inr ⟨Bool.eq_false_of_not_eq_true hdirect, finish_stop hr h⟩

/-! ## Faults (60_exceptions.md R406) -/

/-- The faults that a step from `s` may report. -/
def isRouterFault (s : State) (f : Fault) : Prop :=
  ∃ a, f = outOfBoundAt a s ∨ f = .mmioWidth a s.pc 1 ∨ f = .mmioWidth a s.pc 2

/-- What the router answers from a state with the pc and the parameters of `s`. -/
theorem isRouterFault_of_router {s u : State} {a : Word} {w : Width} {f : Fault} (hpc : u.pc = s.pc)
    (hplatform : u.platform = s.platform) (h : f = outOfBound a u ∨ (w ≠ .word ∧ f = .mmioWidth a u.pc (widthBytes w))) :
    isRouterFault s f := by
  rcases h with rfl | ⟨hw, rfl⟩
  · exact ⟨a, .inl (by rw [outOfBound, outOfBoundAt, hpc, hplatform])⟩
  · rw [hpc]
    cases w with
    | byte => exact ⟨a, .inr (.inl rfl)⟩
    | half => exact ⟨a, .inr (.inr rfl)⟩
    | word => exact absurd rfl hw

/-- Settles O14: a step's faults are those of its fetch and of its instruction's access. -/
theorem stepFaultsAreRouterFaults : Obligations.StepFaultsAreRouterFaults := by
  refine ⟨fun s f hrun h => ?only, fun s hs hawake haligned hnothing => ?fetch⟩
  case only =>
    show isRouterFault s f
    have hr : ∀ t : State, (Host.Outcome.fault f : Result) ≠ .next t := fun _ h => by cases h
    rcases step_stop hr hrun h with ⟨_, hmapped⟩ | ⟨_, hphases⟩
    · cases hmapped
    · rcases (fetchAndExecute_stop hr hphases).2 with ⟨g, hread, hg⟩ | ⟨i, u, hfetch, hexec⟩
      · cases hg
        exact isRouterFault_of_router (u := wake (sampleLines s)) rfl rfl (memRead_error hread)
      · obtain ⟨_, hpc, _, hplatform⟩ := fetchDecode_keeps hfetch
        rcases exec_stop hr hexec with ⟨hrefused, _⟩ | ⟨a, w, g, hg, haccess⟩
        · cases hrefused
        · cases hg
          rcases haccess with hread | ⟨v, hwrite⟩
          · exact isRouterFault_of_router hpc hplatform (memRead_error hread)
          · exact isRouterFault_of_router hpc hplatform (memWrite_error hwrite)
  case fetch =>
    obtain ⟨hrun, hdirect⟩ := hs
    have hread : memRead s.pc .word (wake (sampleLines s)) = .error (outOfBoundAt s.pc s) :=
      (router_of_insideNothing (s := wake (sampleLines s)) (w := .word) hnothing).1
    have hfetch : fetchDecode (wake (sampleLines s)) = .error (outOfBoundAt s.pc s) := by
      simp only [fetchDecode, wake_pc, sampleLines_pc, hread]
    have hcheck : checkFetch (wake (sampleLines s)) = none := if_pos ((isAligned_word _).2 haligned)
    simp only [step_of_running hrun hdirect hawake, fetchAndExecute, hcheck, unlessRaised_none, hfetch, finish]

/-! ## Refusals (60_exceptions.md R407) -/

theorem inMappedMode_iff (s : State) :
    inMappedMode s = true ↔ s.csr.crmd.getLsbD 3 = false ∨ s.csr.crmd.getLsbD 4 = true := by
  rw [inMappedMode, Bool.or_eq_true, Bool.not_eq_true']
  rfl

/-- The word a fetch reads is the one the statement names: the sample and the waking touch neither memory nor pc. -/
theorem fetchedWord_of_memRead {s u : State} {w : Word}
    (h : memRead s.pc .word (wake (sampleLines s)) = .ok (w, u)) : fetchedWord s w := by
  rcases memRead_cases h with ⟨hin, rfl, _⟩ | ⟨hout, _, g, hg, rfl, _⟩
  · exact .inl ⟨(inBacking_iff (s := s) (by decide)).1 hin, memReadBytes_eq_ofNat s s.pc.toNat (Nat.le_refl 4)⟩
  · refine .inr ⟨fun hin => ?_, g, hg, rfl⟩
    have hback : inBacking s.platform s.pc.toNat 4 = true := (inBacking_iff (by omega)).2 hin
    exact absurd (hback.symm.trans hout) (by decide)

/-- Settles O15: mapped mode is looked at before the fetch, and of the instructions only the TLB's are refused. -/
theorem stepRefusalsAreTheSpecs : Obligations.StepRefusalsAreTheSpecs := by
  intro s hrun
  refine ⟨fun hmapped => ?mapped, fun hda hpg r h => ?tlb⟩
  case mapped =>
    have hmode : inMappedMode s = true := (inMappedMode_iff s).2 hmapped
    simp only [step, executeOneStep, hrun, hmode, if_true]
  case tlb =>
    have hr : ∀ t : State, (Host.Outcome.refused r : Result) ≠ .next t := fun _ h => by cases h
    rcases step_stop hr hrun h with ⟨hmode, _⟩ | ⟨_, hphases⟩
    · rcases (inMappedMode_iff s).1 hmode with hda' | hpg'
      · exact absurd (hda.symm.trans hda') (by decide)
      · exact absurd (hpg'.symm.trans hpg) (by decide)
    · obtain ⟨haligned, hread | ⟨i, u, hfetch, hexec⟩⟩ := fetchAndExecute_stop hr hphases
      · obtain ⟨f, _, hf⟩ := hread
        cases hf
      · obtain ⟨hcsr, _⟩ := fetchDecode_keeps hfetch
        obtain ⟨w, hread, hdecode⟩ := fetchDecode_ok hfetch
        rcases exec_stop hr hexec with ⟨hrefused, hplv, htlb⟩ | ⟨_, _, f, hf, _⟩
        · cases hrefused
          rw [crmdPlv, hcsr] at hplv
          exact ⟨rfl, hplv, (isAligned_word _).1 haligned, w, i, fetchedWord_of_memRead hread, hdecode, htlb⟩
        · cases hf

end Sys2Proof.Machine
end

section
/-! PROOFS. The counter (10_state.md R76): phase D alone moves it, by the ticks of the step. -/

namespace Sys2Proof.Machine

/-- The counter and the parameters as before, and no draw taken back. -/
def counterUntouched (s t : State) : Prop :=
  t.counter = s.counter ∧ s.draws ≤ t.draws ∧ t.platform = s.platform

theorem counterUntouched.trans {s t u : State} (h : counterUntouched s t) (k : counterUntouched t u) :
    counterUntouched s u := by
  obtain ⟨hcounter, hdraws, hplatform⟩ := h
  obtain ⟨kcounter, kdraws, kplatform⟩ := k
  exact ⟨kcounter.trans hcounter, hdraws.trans kdraws, kplatform.trans hplatform⟩

theorem counterUntouched_of_execShape {i : Instr} {s t : State} (h : ExecShape i s t) : counterUntouched s t := by
  cases h with
  | loaded hread =>
    rcases memRead_cases hread with ⟨_, _, rfl⟩ | ⟨_, _, _, _, _, rfl⟩
    · exact ⟨rfl, Nat.le_refl _, rfl⟩
    · exact ⟨rfl, Nat.le_succ _, rfl⟩
  | stored hwrite =>
    rcases memWrite_cases hwrite with ⟨_, rfl⟩ | ⟨_, _, _, _, rfl⟩ <;> exact ⟨rfl, Nat.le_refl _, rfl⟩
  | csrRead _ _ _ _ hd => exact ⟨rfl, hd, rfl⟩
  | csrWritten _ n v d hd =>
    exact ⟨csrWrite_counter n v _, hd.trans_eq (csrWrite_draws n v { s with draws := d }).symm, csrWrite_platform n v _⟩
  | _ => exact ⟨rfl, Nat.le_refl _, rfl⟩

theorem counterUntouched_of_fetchAndExecute {s t : State} (h : fetchAndExecute s = .next t) : counterUntouched s t := by
  rcases fetchAndExecute_eq_next h with ⟨_, rfl⟩ | ⟨_, i, u, hf, hc⟩
  · exact ⟨rfl, Nat.le_refl _, rfl⟩
  · have hfetch : counterUntouched s u := by
      rcases fetchDecode_frame hf with rfl | ⟨_, _, _, rfl, hd⟩
      · exact ⟨rfl, Nat.le_refl _, rfl⟩
      · exact ⟨rfl, hd, rfl⟩
    rcases phaseC_eq_next hc with ⟨_, _, rfl⟩ | ⟨_, he⟩
    · exact hfetch
    · exact hfetch.trans (counterUntouched_of_execShape (exec_shape he))

/-- What is known of a next state from the statement that the instruction completes. -/
theorem counter_rd_of_completesWriting {i : Instr} {s t : State} {rd : Reg} {v : Word} (hc : completesWriting i s rd v)
    (h : exec i s = .next t) : t.counter = s.counter ∧ readReg t rd = if rd = 0#5 then 0#32 else v := by
  obtain ⟨u, hu, ⟨hrd, _⟩, _, _, _, ⟨hcounter, _⟩, _⟩ := hc
  cases hu.symm.trans h
  exact ⟨hcounter, hrd⟩

/-- Settles O48: phase D refreshes the counter that the rest of the step leaves, by the draw it then takes; and the reads
of the counter are those of `CounterReadsComplete`. -/
theorem stepRefreshesCounter : Obligations.StepRefreshesCounter := by
  refine ⟨fun s t hs h => ?refresh, fun rd s t => ⟨?low, ?high⟩⟩
  case refresh =>
    have refreshed {u : State} (hu : counterUntouched s u) : ∃ d, s.draws ≤ d ∧ d < (endOfStep u).draws ∧
        (endOfStep u).counter = s.counter + BitVec.ofNat 64 (s.platform.fixedTick.getD (Config.tickDelta d)) := by
      obtain ⟨hcounter, hdraws, hplatform⟩ := hu
      exact ⟨u.draws, hdraws, by rw [endOfStep_draws]; omega,
        by rw [endOfStep_counter, stepTicks, hcounter, hplatform]⟩
    obtain ⟨hrun, _⟩ := hs
    rcases step_eq_next h with ⟨⟨c, hhalt⟩, _⟩ | ⟨_, _, ⟨_, rfl⟩ | ⟨_, u, hu, rfl⟩⟩
    · rw [hrun] at hhalt
      cases hhalt
    · exact refreshed ⟨rfl, Nat.le_refl _, rfl⟩
    · exact refreshed (counterUntouched_of_fetchAndExecute (s := wake (sampleLines s)) hu)
  case low => exact counter_rd_of_completesWriting (counterReadsComplete rd s).1
  case high => exact counter_rd_of_completesWriting (counterReadsComplete rd s).2.1

end Sys2Proof.Machine
end

section
/-! PROOFS. Loads and stores (42_memory_access.md R290 to R312; 20_memory.md R104 to R111): what an instruction does with the
router's answer, and what the router answers in backing memory, at a region and outside both. -/

namespace Sys2Proof.Machine

/-! ## An access with the router's answer -/

/-- An aligned access raises nothing and has its effect (60_exceptions.md R422). -/
theorem unlessRaised_of_aligned {a : Word} {w : Width} (h : isAligned a w = true) (s : State) (k : Result) :
    unlessRaised (checkAlignment a w) s k = k := by
  rw [checkAlignment_of_aligned h, unlessRaised_none]

section
variable {s u : State} {a v : Word} {w : Width} {f : Fault}

theorem loadInto_of_ok (h : memRead a w s = .ok (v, u)) (rd : Reg) (e : Word → Word) :
    loadInto rd a w e s = .next (advance (writeReg rd (e v) u)) := by
  simp only [loadInto, h]

theorem loadInto_of_error (h : memRead a w s = .error f) (rd : Reg) (e : Word → Word) :
    loadInto rd a w e s = .fault f := by
  simp only [loadInto, h]

theorem storeFrom_of_ok (h : memWrite a w v s = .ok u) : storeFrom a w v s = .next (advance u) := by
  simp only [storeFrom, h]

theorem storeFrom_of_error (h : memWrite a w v s = .error f) : storeFrom a w v s = .fault f := by
  simp only [storeFrom, h]

theorem loadLinked_of_ok (h : memRead a .word s = .ok (v, u)) (rd : Reg) :
    loadLinked rd a s = .next (advance { writeReg rd v u with llbit := true }) := by
  simp only [loadLinked, h]

theorem loadLinked_of_error (h : memRead a .word s = .error f) (rd : Reg) : loadLinked rd a s = .fault f := by
  simp only [loadLinked, h]

theorem storeConditional_of_ok {rd : Reg} (hl : s.llbit = true) (h : memWrite a .word (readReg s rd) s = .ok u) :
    storeConditional rd a s = .next (advance { writeReg rd 1#32 u with llbit := false }) := by
  simp only [storeConditional, hl, if_true, h]

theorem storeConditional_of_error {rd : Reg} (hl : s.llbit = true) (h : memWrite a .word (readReg s rd) s = .error f) :
    storeConditional rd a s = .fault f := by
  simp only [storeConditional, hl, if_true, h]

theorem storeConditional_of_clear (hl : s.llbit = false) (rd : Reg) (a : Word) :
    storeConditional rd a s = .next (advance { writeReg rd 0#32 s with llbit := false }) := by
  simp only [storeConditional, hl, Bool.false_eq_true, if_false]

end

/-! ## Backing memory -/

theorem memRead_of_insideBacking {s : State} {a : Word} {w : Width} (h : insideBacking s a (widthBytes w)) :
    memRead a w s = .ok (memReadBytes s.mem a.toNat (widthBytes w), s) :=
  memRead_of_inBacking ((inBacking_iff (widthBytes_pos w)).2 h)

theorem memWrite_of_insideBacking {s : State} {a : Word} {w : Width} (h : insideBacking s a (widthBytes w)) (v : Word) :
    memWrite a w v s = .ok { s with mem := memWriteBytes s.mem a.toNat v (widthBytes w) } :=
  memWrite_of_inBacking v ((inBacking_iff (widthBytes_pos w)).2 h)

theorem setWidth_memReadBytes_one (mem : List Host.Cell) (a : Nat) : (memReadBytes mem a 1).setWidth 8 = memByte mem a := by
  simp [memReadBytes]

theorem sextByte_memReadBytes (mem : List Host.Cell) (a : Nat) :
    sextByte (memReadBytes mem a 1) = (memByte mem a).signExtend 32 := by
  rw [sextByte, setWidth_memReadBytes_one]

theorem zextByte_memReadBytes (mem : List Host.Cell) (a : Nat) :
    zextByte (memReadBytes mem a 1) = (memByte mem a).setWidth 32 := by
  rw [zextByte, setWidth_memReadBytes_one]

/-- A half-word read, truncated, is the number of its two bytes. -/
theorem setWidth_memReadBytes_two (s : State) (a : Nat) :
    (memReadBytes s.mem a 2).setWidth 16 = BitVec.ofNat 16 (littleEndian s a 2) := by
  rw [← (toNat_memReadBytes s a (show 2 ≤ 4 by omega)).1]
  rfl

theorem sextHalf_memReadBytes (s : State) (a : Nat) :
    sextHalf (memReadBytes s.mem a 2) = (BitVec.ofNat 16 (littleEndian s a 2)).signExtend 32 := by
  rw [sextHalf, setWidth_memReadBytes_two]

theorem zextHalf_memReadBytes (s : State) (a : Nat) :
    zextHalf (memReadBytes s.mem a 2) = BitVec.ofNat 32 (littleEndian s a 2) := by
  have hlt := (toNat_memReadBytes s a (show 2 ≤ 4 by omega)).2
  rw [zextHalf, setWidth_memReadBytes_two]
  apply BitVec.eq_of_toNat_eq
  simp only [BitVec.toNat_setWidth, BitVec.toNat_ofNat]
  omega

/-- A load from backing memory writes the extended value and goes on. -/
theorem completesWriting_of_loadInto {i : Instr} {s : State} {rd : Reg} {a v : Word} {w : Width} {e : Word → Word}
    (hexec : exec i s = loadInto rd a w e s) (hin : insideBacking s a (widthBytes w))
    (hv : e (memReadBytes s.mem a.toNat (widthBytes w)) = v) : completesWriting i s rd v :=
  completesWriting_of_exec_eq (by rw [hexec, loadInto_of_ok (memRead_of_insideBacking hin), hv])

/-- Settles O32: a load is one read of backing memory, extended as its width says. -/
theorem loadsComplete : Obligations.LoadsComplete := by
  intro rd rj si12 s a
  refine ⟨fun hin => ?byte, fun hin heven => ?half, fun hin hfour => ?word⟩
  case byte =>
    exact ⟨completesWriting_of_loadInto (w := .byte) rfl hin (sextByte_memReadBytes s.mem _),
      completesWriting_of_loadInto (w := .byte) rfl hin (zextByte_memReadBytes s.mem _)⟩
  case half =>
    have ha := (isAligned_half a).2 heven
    exact ⟨completesWriting_of_loadInto (w := .half) (unlessRaised_of_aligned ha s _) hin (sextHalf_memReadBytes s _),
      completesWriting_of_loadInto (w := .half) (unlessRaised_of_aligned ha s _) hin (zextHalf_memReadBytes s _)⟩
  case word =>
    exact completesWriting_of_loadInto (w := .word) (unlessRaised_of_aligned ((isAligned_word a).2 hfour) s _) hin
      (memReadBytes_eq_ofNat s _ (Nat.le_refl 4))

/-- A store to backing memory writes the low bytes and goes on. -/
theorem completesStoring_of_storeFrom {i : Instr} {s : State} {a v : Word} {w : Width}
    (hexec : exec i s = storeFrom a w v s) (hin : insideBacking s a (widthBytes w)) :
    completesStoring i s a v (widthBytes w) :=
  ⟨_, hexec.trans (storeFrom_of_ok (memWrite_of_insideBacking hin v)), fun _ => rfl, rfl,
    fun _ hk => memByte_memWriteBytes_inside s.mem _ v hk, fun _ hx => memByte_memWriteBytes_outside s.mem v hx,
    rfl, rfl, ⟨rfl, rfl, rfl, rfl, rfl, rfl⟩, ⟨rfl, rfl, rfl⟩⟩

/-- Settles O33: a store is one write of backing memory at its width. -/
theorem storesComplete : Obligations.StoresComplete := by
  intro rd rj si12 s a
  refine ⟨fun hin => ?byte, fun hin heven => ?half, fun hin hfour => ?word⟩
  case byte => exact completesStoring_of_storeFrom (w := .byte) rfl hin
  case half =>
    exact completesStoring_of_storeFrom (w := .half) (unlessRaised_of_aligned ((isAligned_half a).2 heven) s _) hin
  case word =>
    exact completesStoring_of_storeFrom (w := .word) (unlessRaised_of_aligned ((isAligned_word a).2 hfour) s _) hin

theorem exec_stW_of_insideBacking {rd rj : Reg} {si12 : BitVec 12} {s : State}
    (hin : insideBacking s (addr12 rj si12 s) 4) (hfour : (addr12 rj si12 s).toNat % 4 = 0) :
    exec (.stW rd rj si12) s =
      .next (advance { s with mem := memWriteBytes s.mem (addr12 rj si12 s).toNat (readReg s rd) 4 }) :=
  (unlessRaised_of_aligned ((isAligned_word _).2 hfour) s _).trans
    (storeFrom_of_ok (memWrite_of_insideBacking (w := .word) hin _))

theorem exec_ldW_of_insideBacking {rd rj : Reg} {si12 : BitVec 12} {s : State}
    (hin : insideBacking s (addr12 rj si12 s) 4) (hfour : (addr12 rj si12 s).toNat % 4 = 0) :
    exec (.ldW rd rj si12) s =
      .next (advance (writeReg rd (memReadBytes s.mem (addr12 rj si12 s).toNat 4) s)) :=
  (unlessRaised_of_aligned ((isAligned_word _).2 hfour) s _).trans
    (loadInto_of_ok (memRead_of_insideBacking (w := .word) hin) rd id)

/-- Settles O34: the load computes the address of the store, and reads back what it wrote there. -/
theorem storeThenLoadReturnsValue : Obligations.StoreThenLoadReturnsValue := by
  intro rd rj rt si12 s a
  refine ⟨fun hin hfour => ?aligned, fun hoff => ?misaligned⟩
  case aligned =>
    let t := advance { s with mem := memWriteBytes s.mem a.toNat (readReg s rd) 4 }
    have hload : exec (.ldW rt rj si12) t = .next (advance (writeReg rt (readReg s rd) t)) := by
      have hvalue : memReadBytes t.mem (addr12 rj si12 t).toNat 4 = readReg s rd :=
        memReadBytes_memWriteBytes_word s.mem a.toNat (readReg s rd)
      rw [exec_ldW_of_insideBacking (s := t) hin hfour, hvalue]
    refine ⟨t, _, exec_stW_of_insideBacking hin hfour, hload, regWritten_writeReg rfl, ?_⟩
    show s.pc + 4#32 + 4#32 = s.pc + 8#32
    rw [BitVec.add_assoc]
    rfl
  case misaligned =>
    obtain ⟨_, hstore, _⟩ := misalignedAccessesRaiseAle rd rj s
    obtain ⟨_, hload, _⟩ := misalignedAccessesRaiseAle rt rj s
    exact ⟨(hstore si12 hoff).2, (hload si12 hoff).1⟩

/-! ## LL.W and SC.W in backing memory (42_memory_access.md R310, R311) -/

/-- The LLbit is no register, so a result written with it reads as any other. -/
theorem regWritten_writeReg_llbit {rd : Reg} {v : Word} {s u : State} (l : Bool) (h : u.gpr = s.gpr) :
    regWritten rd v s (advance { writeReg rd v u with llbit := l }) :=
  regWritten_writeReg h

theorem exec_llW_of_aligned {rd rj : Reg} {si14 : BitVec 14} {s : State}
    (h : (readReg s rj + BitVec.ofInt 32 (si14.toInt * 4)).toNat % 4 = 0) :
    exec (.llW rd rj si14) s = loadLinked rd (readReg s rj + BitVec.ofInt 32 (si14.toInt * 4)) s := by
  rw [← addr14_eq] at h ⊢
  exact unlessRaised_of_aligned ((isAligned_word _).2 h) s _

theorem exec_scW_of_aligned {rd rj : Reg} {si14 : BitVec 14} {s : State}
    (h : (readReg s rj + BitVec.ofInt 32 (si14.toInt * 4)).toNat % 4 = 0) :
    exec (.scW rd rj si14) s = storeConditional rd (readReg s rj + BitVec.ofInt 32 (si14.toInt * 4)) s := by
  rw [← addr14_eq] at h ⊢
  exact unlessRaised_of_aligned ((isAligned_word _).2 h) s _

/-- Settles O35: LL.W is one word read that also sets the LLbit. -/
theorem loadLinkedCompletes : Obligations.LoadLinkedCompletes := by
  intro rd rj si14 s a hin hfour
  have hexec : exec (.llW rd rj si14) s =
      .next (advance { writeReg rd (memReadBytes s.mem a.toNat 4) s with llbit := true }) :=
    (exec_llW_of_aligned hfour).trans (loadLinked_of_ok (memRead_of_insideBacking (w := .word) hin) rd)
  rw [memReadBytes_eq_ofNat s _ (Nat.le_refl 4)] at hexec
  exact ⟨_, hexec, regWritten_writeReg_llbit true rfl, rfl, rfl, rfl, ⟨rfl, rfl, rfl, rfl, rfl, rfl⟩, fun _ => rfl,
    ⟨rfl, rfl, rfl⟩⟩

/-- Settles O36: SC.W looks at the LLbit before it makes its one access. -/
theorem storeConditionalCompletes : Obligations.StoreConditionalCompletes := by
  intro rd rj si14 s a hfour
  have hexec := exec_scW_of_aligned (rd := rd) hfour
  refine ⟨fun hset hin => ?stores, fun hclear => ?skips⟩
  case stores =>
    rw [storeConditional_of_ok hset (memWrite_of_insideBacking (w := .word) hin _)] at hexec
    exact ⟨_, hexec, regWritten_writeReg_llbit false rfl, rfl, rfl,
      fun _ hk => memByte_memWriteBytes_inside s.mem _ _ hk, fun _ hx => memByte_memWriteBytes_outside s.mem _ hx,
      rfl, ⟨rfl, rfl, rfl, rfl, rfl, rfl⟩, ⟨rfl, rfl, rfl⟩⟩
  case skips =>
    rw [storeConditional_of_clear hclear] at hexec
    exact ⟨_, hexec, regWritten_writeReg_llbit false rfl, rfl, rfl, rfl, ⟨rfl, rfl, rfl, rfl, rfl, rfl⟩, fun _ => rfl,
      ⟨rfl, rfl, rfl⟩⟩

/-! ## Device regions (20_memory.md R108 to R111) -/

/-- The state after a word read of a region: one handler call, whose word the shadow buffer holds. -/
def afterRegionRead (g : Region) (a : Word) (s : State) : State :=
  let v := Config.devRead s.draws g.base (a.toNat - g.base)
  { s with shadow := shadowWriteBytes s.shadow a.toNat v 4
           events := s.events ++ [.read g.base (a.toNat - g.base) v]
           draws := s.draws + 1 }

/-- The state after a word write of a region: the word in the shadow buffer, one handler call. -/
def afterRegionWrite (g : Region) (a v : Word) (s : State) : State :=
  { s with shadow := shadowWriteBytes s.shadow a.toNat v 4
           events := s.events ++ [.write g.base (a.toNat - g.base) v] }

theorem memRead_of_region {s : State} {a : Word} {g : Region} (hout : ¬insideBacking s a 4)
    (hg : regionOf s.platform a.toNat 4 = some g) :
    memRead a .word s = .ok (Config.devRead s.draws g.base (a.toNat - g.base), afterRegionRead g a s) :=
  (router_of_word_region hout hg).1

theorem memWrite_of_region {s : State} {a : Word} {g : Region} (hout : ¬insideBacking s a 4)
    (hg : regionOf s.platform a.toNat 4 = some g) (v : Word) :
    memWrite a .word v s = .ok (afterRegionWrite g a v s) :=
  (router_of_word_region hout hg).2 v

/-- Settles O37: LD.W and ST.W at a region are the router's region read and write. -/
theorem regionWordAccessesComplete : Obligations.RegionWordAccessesComplete := by
  intro rd rj si12 s g a hfour hout hg
  have ha := (isAligned_word a).2 hfour
  refine ⟨?load, ?store⟩
  case load =>
    have hexec : exec (.ldW rd rj si12) s = _ := (unlessRaised_of_aligned ha s _).trans
      (loadInto_of_ok (memRead_of_region hout hg) rd id)
    exact ⟨_, hexec, regWritten_writeReg rfl, rfl, rfl, shadowStored_shadowWriteBytes _ _ _, rfl, rfl, rfl,
      ⟨rfl, rfl, rfl, rfl, rfl, rfl⟩, fun _ => rfl⟩
  case store =>
    have hexec : exec (.stW rd rj si12) s = _ := (unlessRaised_of_aligned ha s _).trans
      (storeFrom_of_ok (memWrite_of_region hout hg (readReg s rd)))
    exact ⟨_, hexec, fun _ => rfl, rfl, shadowStored_shadowWriteBytes _ _ _, rfl, rfl, rfl, rfl,
      ⟨rfl, rfl, rfl, rfl, rfl, rfl⟩, fun _ => rfl⟩

/-- Settles O38: LL.W and SC.W at a region are the router's region read and write, with the LLbit. -/
theorem regionLinkedAccessesComplete : Obligations.RegionLinkedAccessesComplete := by
  intro rd rj si14 s g a hfour hout hg
  refine ⟨?load, fun hset => ?store⟩
  case load =>
    have hexec := (exec_llW_of_aligned hfour).trans (loadLinked_of_ok (memRead_of_region hout hg) rd)
    exact ⟨_, hexec, regWritten_writeReg_llbit true rfl, rfl, rfl, rfl, shadowStored_shadowWriteBytes _ _ _, rfl, rfl,
      ⟨rfl, rfl, rfl, rfl, rfl, rfl⟩, fun _ => rfl⟩
  case store =>
    have hexec := (exec_scW_of_aligned hfour).trans
      (storeConditional_of_ok hset (memWrite_of_region hout hg (readReg s rd)))
    exact ⟨_, hexec, regWritten_writeReg_llbit false rfl, rfl, rfl, shadowStored_shadowWriteBytes _ _ _, rfl, rfl, rfl,
      ⟨rfl, rfl, rfl, rfl, rfl, rfl⟩, fun _ => rfl⟩

/-! ## Accesses that fail (20_memory.md R106 to R108) -/

theorem byte_accesses_fault {rj : Reg} {si12 : BitVec 12} {s : State} {f : Fault}
    (h : memRead (addr12 rj si12 s) .byte s = .error f ∧ ∀ v, memWrite (addr12 rj si12 s) .byte v s = .error f) (rd : Reg) :
    exec (.ldB rd rj si12) s = .fault f ∧ exec (.ldBu rd rj si12) s = .fault f ∧ exec (.stB rd rj si12) s = .fault f :=
  ⟨loadInto_of_error h.1 rd sextByte, loadInto_of_error h.1 rd zextByte, storeFrom_of_error (h.2 _)⟩

theorem half_accesses_fault {rj : Reg} {si12 : BitVec 12} {s : State} {f : Fault}
    (heven : (addr12 rj si12 s).toNat % 2 = 0)
    (h : memRead (addr12 rj si12 s) .half s = .error f ∧ ∀ v, memWrite (addr12 rj si12 s) .half v s = .error f) (rd : Reg) :
    exec (.ldH rd rj si12) s = .fault f ∧ exec (.ldHu rd rj si12) s = .fault f ∧ exec (.stH rd rj si12) s = .fault f := by
  have ha := unlessRaised_of_aligned ((isAligned_half _).2 heven) s
  exact ⟨(ha _).trans (loadInto_of_error h.1 rd sextHalf), (ha _).trans (loadInto_of_error h.1 rd zextHalf),
    (ha _).trans (storeFrom_of_error (h.2 _))⟩

/-- Settles O39: the instruction reports the fault that the router answers. -/
theorem failedAccessesFault : Obligations.FailedAccessesFault := by
  refine ⟨fun rd rj si12 s => ⟨fun hout hg => ?narrowByte, fun heven hout hg => ?narrowHalf⟩,
    fun rd rj s => ⟨fun si12 => ⟨fun hno => ?byte, fun heven hno => ?half, fun hfour hno => ?word⟩,
      fun si14 hfour hno => ?linked⟩⟩
  case narrowByte =>
    obtain ⟨g, hg⟩ := Option.isSome_iff_exists.1 hg
    exact byte_accesses_fault (router_of_narrow_region (w := .byte) (by decide) hout hg) rd
  case narrowHalf =>
    obtain ⟨g, hg⟩ := Option.isSome_iff_exists.1 hg
    exact half_accesses_fault heven (router_of_narrow_region (w := .half) (by decide) hout hg) rd
  case byte => exact byte_accesses_fault (router_of_insideNothing (w := .byte) hno) rd
  case half => exact half_accesses_fault heven (router_of_insideNothing (w := .half) hno) rd
  case word =>
    obtain ⟨hread, hwrite⟩ := router_of_insideNothing (w := .word) hno
    have ha := unlessRaised_of_aligned ((isAligned_word _).2 hfour) s
    exact ⟨(ha _).trans (loadInto_of_error hread rd _), (ha _).trans (storeFrom_of_error (hwrite _))⟩
  case linked =>
    obtain ⟨hread, hwrite⟩ := router_of_insideNothing (w := .word) hno
    exact ⟨(exec_llW_of_aligned hfour).trans (loadLinked_of_error hread rd),
      fun hset => (exec_scW_of_aligned hfour).trans (storeConditional_of_error hset (hwrite _))⟩

/-! ## The host's accesses (60_exceptions.md R458) -/

/-- Read after write of `n ≤ 4` bytes: the low bytes come back. -/
theorem memReadBytes_memWriteBytes (mem : List Host.Cell) (a : Nat) (v : Word) {n : Nat} (hn : n ≤ 4) :
    memReadBytes (memWriteBytes mem a v n) a n = BitVec.ofNat 32 (v.toNat % 256 ^ n) := by
  apply BitVec.eq_of_getLsbD_eq
  intro j hj
  have hread := getLsbD_memReadBytes (memWriteBytes mem a v n) a (j / 8) (j % 8) hn (by omega)
  rw [show 8 * (j / 8) + j % 8 = j by omega] at hread
  rw [hread, BitVec.getLsbD_ofNat, decide_eq_true hj, Bool.true_and, show 256 ^ n = 2 ^ (8 * n) by rw [Nat.pow_mul],
    Nat.testBit_mod_two_pow]
  by_cases hin : j / 8 < n
  · rw [decide_eq_true hin, decide_eq_true (show j < 8 * n by omega), memByte_memWriteBytes_inside mem a v hin,
      BitVec.getLsbD_extractLsb', show 8 * (j / 8) + j % 8 = j by omega]
    simp [show j % 8 < 8 by omega, BitVec.testBit_toNat]
  · rw [decide_eq_false hin, decide_eq_false (show ¬j < 8 * n by omega)]
    rfl

section
variable {s u : State} {a v : Word} {w : Width} {f : Fault}

theorem readPhysical_of_ok (h : memRead a w s = .ok (v, u)) : readPhysical a w s = (some v, u) := by
  simp only [readPhysical, h]

theorem readPhysical_of_error (h : memRead a w s = .error f) :
    readPhysical a w s = (none, { s with status := .faulted f }) := by
  simp only [readPhysical, h]

theorem writePhysical_of_ok (h : memWrite a w v s = .ok u) : writePhysical a w v s = u := by
  simp only [writePhysical, h]

theorem writePhysical_of_error (h : memWrite a w v s = .error f) :
    writePhysical a w v s = { s with status := .faulted f } := by
  simp only [writePhysical, h]

end

/-- Settles O52: the host's accesses are the router's, a fault becoming the status. -/
theorem hostPhysicalAccess : Obligations.HostPhysicalAccess := by
  intro a v w s
  refine ⟨fun hin => ?backing, fun g hout hg => ⟨fun hw => ?region, fun hw => ?narrow⟩, fun hno => ?nothing⟩
  case backing =>
    have hfour : widthBytes w ≤ 4 := by cases w <;> decide
    have hwrite := writePhysical_of_ok (memWrite_of_insideBacking hin v)
    refine ⟨⟨_, hwrite, fun _ hk => memByte_memWriteBytes_inside s.mem _ v hk,
      fun _ hx => memByte_memWriteBytes_outside s.mem v hx⟩, ?_, ?_⟩
    · rw [readPhysical_of_ok (memRead_of_insideBacking hin), memReadBytes_eq_ofNat s _ hfour]
    · have hread := readPhysical_of_ok (memRead_of_insideBacking (s := writePhysical a w v s) (by rwa [hwrite]))
      rw [hread, hwrite]
      exact congrArg some (memReadBytes_memWriteBytes s.mem _ v hfour)
  case region =>
    subst hw
    exact ⟨_, _, shadowStored_shadowWriteBytes _ _ _, writePhysical_of_ok (memWrite_of_region hout hg v),
      shadowStored_shadowWriteBytes _ _ _, readPhysical_of_ok (memRead_of_region hout hg)⟩
  case narrow =>
    obtain ⟨hread, hwrite⟩ := router_of_narrow_region hw hout hg
    exact ⟨writePhysical_of_error (hwrite v), readPhysical_of_error hread⟩
  case nothing =>
    obtain ⟨hread, hwrite⟩ := router_of_insideNothing hno
    exact ⟨writePhysical_of_error (hwrite v), readPhysical_of_error hread⟩

end Sys2Proof.Machine
end

section
/-! PROOFS. ERTN, the halting BREAK, IDLE and the TLB instructions (43_system.md R351 to R374). -/

namespace Sys2Proof.Machine

/-! ## ERTN (43_system.md R355) -/

theorem exec_ertn_of_plv0 {s : State} (hplv : crmdPlv s = 0#2) : exec .ertn s = .next (returnFromException s) :=
  privileged_of_plv0 hplv (.next (returnFromException s))

theorem restoredMode_fields (s : State) :
    (restoredMode s).extractLsb' 0 2 = prmdPplv s ∧ (restoredMode s).getLsbD 2 = prmdPie s ∧
      (restoredMode s).extractLsb' 3 29 = s.csr.crmd.extractLsb' 3 29 :=
  modeWord_fields s.csr.crmd (prmdPplv s) (prmdPie s)

/-- All 32 bits of ERA are RW. -/
@[simp] theorem csrValue_era (s : State) : csrValue .era s = s.csr.era :=
  csrValue_of_stored_in_full (by decide) rfl

/-- ERTN writes CRMD and LLBCTL alone. -/
theorem csrStored_returnFromException_other (s : State) {c : Csr} (hcrmd : c ≠ .crmd) (hllbctl : c ≠ .llbctl) :
    csrStored (returnFromException s).csr c = csrStored s.csr c :=
  (csrStored_csrStore_other (csrStore s.csr .crmd (restoredMode s)) (putBit s.csr.llbctl 2 false) hllbctl).trans
    (csrStored_csrStore_other s.csr (restoredMode s) hcrmd)

/-- Settles O17: the mode by the fields of the restored word, every other field by the law of the return for it. -/
theorem ertnCompletes : Obligations.ErtnCompletes := by
  intro s hplv
  obtain ⟨hlevel, hie, hrest⟩ := restoredMode_fields s
  refine ⟨returnFromException s, exec_ertn_of_plv0 hplv, hlevel, hie, hrest, csrValue_era s, fun hklo => ?cleared,
    fun hklo => ?kept, fun k => ?klo, fun d => csrStored_returnFromException_other s, fun _ => rfl,
    ⟨rfl, rfl, rfl, rfl, rfl, rfl⟩, fun _ => rfl, ⟨rfl, rfl, rfl⟩⟩
  case cleared => rw [returnFromException_llbit, hklo, Bool.and_false]
  case kept => rw [returnFromException_llbit, hklo, Bool.and_true]
  case klo =>
    show (putBit s.csr.llbctl 2 false).getLsbD k = _
    rw [getLsbD_putBit _ _ _ _ (by omega)]
    by_cases hk : k = 2
    · simp [hk]
    · simp [hk]

/-- A word is its level, its interrupt enable and its other bits. -/
theorem eq_of_modeFields {v w : Word} (hplv : v.extractLsb' 0 2 = w.extractLsb' 0 2) (hie : v.getLsbD 2 = w.getLsbD 2)
    (hrest : v.extractLsb' 3 29 = w.extractLsb' 3 29) : v = w := by
  refine BitVec.eq_of_getLsbD_eq fun k hk => ?_
  rcases Nat.lt_trichotomy k 2 with hlow | rfl | hhigh
  · exact getLsbD_eq_of_extractLsb'_eq hplv (Nat.zero_le k) (by omega)
  · exact hie
  · exact getLsbD_eq_of_extractLsb'_eq hrest (by omega) (by omega)

/-- Settles O18: the handler runs at PLV0, so its ERTN returns; PRMD holds the level and the enable of before the entry, and
neither the entry nor the return touches CRMD's other bits. -/
theorem entryThenErtnRoundTrip : Obligations.EntryThenErtnRoundTrip := by
  intro c s
  have hentered := entryEffect c s
  obtain ⟨hlevel, hie, hrest⟩ := restoredMode_fields (enter c s)
  have hcrmd : restoredMode (enter c s) = s.csr.crmd :=
    eq_of_modeFields (hlevel.trans hentered.pplv) (hie.trans hentered.pie) (hrest.trans hentered.crmdRest)
  exact ⟨_, exec_ertn_of_plv0 hentered.plv, hcrmd, csrValue_era _, fun _ => rfl, fun _ => rfl⟩

/-! ## BREAK (43_system.md R351) -/

/-- Settles O21: the platform decides whether BREAK raises anything. -/
theorem breakHaltsOrRaisesBrk : Obligations.BreakHaltsOrRaisesBrk := by
  intro code s
  refine ⟨fun hhalt => ?halts, fun hcont => takesException_of_raised (.brk code s hcont)⟩
  case halts =>
    have hcheck : checkBreak s = none := if_pos hhalt
    have hexec : exec (.brk code) s = .next (advance { s with status := .halted (readReg s 4#5) }) := by
      show unlessRaised (checkBreak s) s _ = _
      rw [hcheck, unlessRaised_none]
    exact ⟨_, hexec, rfl, rfl, fun _ => rfl, rfl, rfl, rfl, rfl, rfl, rfl, rfl, fun _ => rfl, ⟨rfl, rfl, rfl⟩⟩

/-! ## IDLE and the TLB instructions at PLV0 (43_system.md R356, R370 to R374) -/

theorem exec_idle_of_plv0 {s : State} (hplv : crmdPlv s = 0#2) (code : BitVec 15) :
    exec (.idle code) s = .next (advance { s with idle := true }) :=
  privileged_of_plv0 hplv (.next (advance { s with idle := true }))

/-- Settles O44: the privilege check passes, and the effect is the idle bit and the advance. -/
theorem idleCompletes : Obligations.IdleCompletes := fun code _ hplv =>
  ⟨_, exec_idle_of_plv0 hplv code, rfl, rfl, fun _ => rfl, rfl, rfl, rfl, rfl, rfl, rfl, rfl, fun _ => rfl,
    ⟨rfl, rfl, rfl⟩⟩

/-- Settles O45: past the privilege check, and INVTLB's check of its op, all that is left is the refusal. -/
theorem tlbInstructionsAreRefused : Obligations.TlbInstructionsAreRefused := by
  intro s hplv
  have hrefused := privileged_of_plv0 hplv (.refused .tlbInstruction)
  refine ⟨hrefused, hrefused, hrefused, hrefused, fun op rj rk hop => ?_⟩
  have hcheck : checkInvtlb op s = checkPrivilege s := checkInvtlb_of_op_le_six (BitVec.le_def.2 hop) s
  show unlessRaised (checkInvtlb op s) s _ = _
  rw [hcheck]
  exact hrefused

end Sys2Proof.Machine
end

section
/-! PROOFS. The countdown timer (60_exceptions.md R450). -/

namespace Sys2Proof.Machine

/-- The decremented count is 0 exactly from a count of 1 or 0. -/
theorem timerCount_eq_zero_iff (s : State) : timerCount s = 0#32 ↔ s.csr.tval.toNat ≤ 1 := by
  unfold timerCount
  split
  · rename_i hzero
    simp [hzero]
  · bv_omega

theorem putBit_eleven_true (v : Word) : putBit v 11 true = v ||| 0x00000800#32 := by
  refine BitVec.eq_of_getLsbD_eq fun k hk => ?_
  have hmask : (0x00000800#32).getLsbD k = decide (k = 11) := by revert k; decide
  rw [getLsbD_putBit _ _ _ _ (by omega), BitVec.getLsbD_or, hmask]
  by_cases h : k = 11
  · simp [h]
  · simp [h]

/-- The reload value: TCFG.InitVal with two zero bits below (10_state.md R68). -/
theorem and_not_three_eq_append (v : Word) : v &&& 0xFFFFFFFC#32 = v.extractLsb' 2 30 ++ 0#2 := by
  refine BitVec.eq_of_getLsbD_eq fun k hk => ?_
  have hmask : (0xFFFFFFFC#32).getLsbD k = decide (2 ≤ k) := by revert k; decide
  rw [BitVec.getLsbD_and, hmask, BitVec.getLsbD_append, BitVec.getLsbD_extractLsb', BitVec.getLsbD_zero]
  split
  · rename_i hlow
    rw [decide_eq_false (by omega), Bool.and_false]
  · rename_i hhigh
    rw [decide_eq_true (by omega), Bool.and_true, decide_eq_true (show k - 2 < 30 by omega), Bool.true_and,
      show 2 + (k - 2) = k by omega]

/-- The state with another count. -/
def withTval (v : Word) (s : State) : State := { s with csr := { s.csr with tval := v } }

@[simp] theorem withTval_tval (v : Word) (s : State) : (withTval v s).csr.tval = v := rfl
@[simp] theorem withTval_timerEn (v : Word) (s : State) : (withTval v s).timerEn = s.timerEn := rfl
@[simp] theorem withTval_withTval (v w : Word) (s : State) : withTval w (withTval v s) = withTval w s := rfl
@[simp] theorem timerExpire_withTval (v : Word) (s : State) : timerExpire (withTval v s) = timerExpire s := rfl

theorem timerTick_of_stopped {s : State} (h : s.timerEn = false) : timerTick s = s := by
  simp only [timerTick, h, Bool.false_eq_true, if_false]

theorem timerTick_of_counting {s : State} (hrun : s.timerEn = true) (hcount : 1 < s.csr.tval.toNat) :
    timerTick s = withTval (s.csr.tval - 1#32) s := by
  have hgoesOn : ¬timerCount s = 0#32 := mt (timerCount_eq_zero_iff s).1 (by omega)
  have hnonzero : ¬s.csr.tval = 0#32 := fun hzero => by rw [hzero] at hcount; exact absurd hcount (by decide)
  have hdecremented : timerCount s = s.csr.tval - 1#32 := if_neg hnonzero
  rw [timerTick, if_pos hrun, if_neg hgoesOn, hdecremented, withTval]

theorem timerTick_of_expiring {s : State} (hrun : s.timerEn = true) (hcount : s.csr.tval.toNat ≤ 1) :
    timerTick s = timerExpire s := by
  rw [timerTick, if_pos hrun, if_pos ((timerCount_eq_zero_iff s).2 hcount)]

theorem timerExpire_of_periodic {s : State} (h : s.csr.tcfg.getLsbD 1 = true) :
    timerExpire s = { s with timerEn := true, csr := { s.csr with
      estat := s.csr.estat ||| 0x00000800#32, tval := s.csr.tcfg.extractLsb' 2 30 ++ 0#2 } } := by
  simp only [timerExpire, tcfgPeriodic, h, if_true, putBit_eleven_true, and_not_three_eq_append]

theorem timerExpire_of_oneShot {s : State} (h : s.csr.tcfg.getLsbD 1 = false) :
    timerExpire s = { s with timerEn := false, csr := { s.csr with
      estat := s.csr.estat ||| 0x00000800#32, tval := 0#32 } } := by
  simp only [timerExpire, tcfgPeriodic, h, Bool.false_eq_true, if_false, putBit_eleven_true]

/-- Settles O46: the four cases of `timer_tick`. -/
theorem timerTickEffect : Obligations.TimerTickEffect := by
  refine fun s => ⟨timerTick_of_stopped, timerTick_of_counting, fun hrun hcount hperiodic => ?reloads,
    fun hrun hcount honce => ?stops⟩
  case reloads => rw [timerTick_of_expiring hrun hcount, timerExpire_of_periodic hperiodic, ← hrun]
  case stops => rw [timerTick_of_expiring hrun hcount, timerExpire_of_oneShot honce]

/-- Ticks that do not reach 0 count down and change nothing else. -/
theorem timerTick_iterate_of_counting {s : State} (hrun : s.timerEn = true) {k : Nat} (hk : k < s.csr.tval.toNat) :
    timerTick^[k] s = withTval (s.csr.tval - BitVec.ofNat 32 k) s := by
  induction k with
  | zero => exact congrArg (fun v => withTval v s) (BitVec.sub_zero s.csr.tval).symm
  | succ k ih =>
    have hcount : 1 < (s.csr.tval - BitVec.ofNat 32 k).toNat := by bv_omega
    have hnext : s.csr.tval - BitVec.ofNat 32 k - 1#32 = s.csr.tval - BitVec.ofNat 32 (k + 1) := by bv_omega
    rw [Function.iterate_succ_apply', ih (by omega),
      timerTick_of_counting (s := withTval (s.csr.tval - BitVec.ofNat 32 k) s) hrun hcount, withTval_withTval,
      withTval_tval, hnext]

/-- The tick at which the count reaches 0 is the expiry of the state before the countdown. -/
theorem timerTick_iterate_of_expiring {s : State} (hrun : s.timerEn = true) (hpos : 0 < s.csr.tval.toNat) :
    timerTick^[s.csr.tval.toNat] s = timerExpire s := by
  obtain ⟨n, hn⟩ := Nat.exists_eq_succ_of_ne_zero (Nat.pos_iff_ne_zero.1 hpos)
  have hlast : (s.csr.tval - BitVec.ofNat 32 n).toNat ≤ 1 := by bv_omega
  rw [hn, Function.iterate_succ_apply', timerTick_iterate_of_counting hrun (by omega),
    timerTick_of_expiring (s := withTval (s.csr.tval - BitVec.ofNat 32 n) s) hrun hlast, timerExpire_withTval]

/-- Settles O47: the tick at which the count reaches 0 expires the one-shot timer, and a stopped timer stays as it is. -/
theorem oneShotCountdown : Obligations.OneShotCountdown := by
  intro s k hrun honce hpos
  refine ⟨fun hk => ?counting, fun hk => ?expired⟩
  case counting =>
    rw [timerTick_iterate_of_counting hrun hk]
    exact ⟨by rw [withTval_tval]; bv_omega, hrun, rfl⟩
  case expired =>
    obtain ⟨extra, rfl⟩ := Nat.exists_eq_add_of_le hk
    rw [Nat.add_comm, Function.iterate_add_apply, timerTick_iterate_of_expiring hrun hpos, timerExpire_of_oneShot honce,
      Function.iterate_fixed (timerTick_of_stopped rfl)]
    exact ⟨rfl, rfl, by simp⟩

end Sys2Proof.Machine
end

section
/-! PROOFS. Interrupt lines and region registration (60_exceptions.md R431, R456, R457; 20_memory.md R103). -/

namespace Sys2Proof.Machine

/-- Settles O49: the sample bit by bit; a pending bit that has its line adds nothing to it. -/
theorem sampleFollowsLines : Obligations.SampleFollowsLines := by
  refine fun s => ⟨getLsbD_estat_sampleLines s, rfl, fun hpending k h2 h9 => ?_⟩
  rw [getLsbD_estat_sampleLines, decide_eq_true ⟨h2, h9⟩, Bool.true_and]
  cases hbit : s.csr.estat.getLsbD k with
  | false => rw [Bool.false_or]
  | true => rw [hpending k h2 h9 hbit, Bool.or_true]

/-- The word with one bit set. -/
theorem getLsbD_one_shiftLeft {n : Nat} (hn : n < 32) (k : Nat) : (1#32 <<< n).getLsbD k = (k == n) := by
  rw [Bool.eq_iff_iff, beq_iff_eq, BitVec.getLsbD_shiftLeft, BitVec.getLsbD_one]
  simp only [Bool.and_eq_true, Bool.not_eq_true', decide_eq_true_eq, decide_eq_false_iff_not]
  omega

theorem getLsbD_lines_raiseInterrupt {n : Nat} (hn : n < 32) (s : State) (k : Nat) :
    (raiseInterrupt n s).lines.getLsbD k = (s.lines.getLsbD k || k == n) := by
  show (s.lines ||| 1#32 <<< n).getLsbD k = _
  rw [BitVec.getLsbD_or, getLsbD_one_shiftLeft hn]

theorem getLsbD_lines_clearInterrupt {n : Nat} (hn : n < 32) (s : State) (k : Nat) :
    (clearInterrupt n s).lines.getLsbD k = (s.lines.getLsbD k && k != n) := by
  show (s.lines &&& ~~~(1#32 <<< n)).getLsbD k = _
  rw [BitVec.getLsbD_and, BitVec.getLsbD_not, getLsbD_one_shiftLeft hn]
  by_cases hk : k < 32
  · rw [decide_eq_true hk, Bool.true_and]
    rfl
  · rw [BitVec.getLsbD_of_ge s.lines k (by omega), Bool.false_and, Bool.false_and]

/-- The clear reaches ESTAT.IS[N] for N from 2 to 9. -/
theorem getLsbD_estat_clearInterrupt {n : Nat} (hn : n < 32) (s : State) (k : Nat) :
    (clearInterrupt n s).csr.estat.getLsbD k =
      (s.csr.estat.getLsbD k && !(k == n && decide (2 ≤ n ∧ n ≤ 9))) := by
  unfold clearInterrupt
  by_cases hsampled : 2 ≤ n ∧ n ≤ 9
  · simp only [if_pos hsampled, getLsbD_putBit _ _ _ _ hn]
    by_cases hk : k = n
    · simp [hk, hsampled]
    · simp [hk]
  · simp [hsampled]

/-- A clear changes its line and ESTAT alone. -/
theorem clearInterrupt_frame (n : Nat) (s : State) :
    clearInterrupt n s = { s with lines := (clearInterrupt n s).lines
                                  csr := { s.csr with estat := (clearInterrupt n s).csr.estat } } := by
  unfold clearInterrupt
  split <;> rfl

/-- Settles O50: the effects bit by bit, the frames by definition; doing either twice sets or clears the same bits. -/
theorem interruptLineControl : Obligations.InterruptLineControl := by
  intro n s hn
  refine ⟨getLsbD_lines_raiseInterrupt hn s, rfl, ?raiseTwice, getLsbD_lines_clearInterrupt hn s,
    getLsbD_estat_clearInterrupt hn s, clearInterrupt_frame n s, ?clearTwice⟩
  case raiseTwice =>
    have hlines : (raiseInterrupt n (raiseInterrupt n s)).lines = (raiseInterrupt n s).lines :=
      BitVec.eq_of_getLsbD_eq fun k _ => by
        rw [getLsbD_lines_raiseInterrupt hn, getLsbD_lines_raiseInterrupt hn, Bool.or_assoc, Bool.or_self]
    exact congrArg (fun l => { s with lines := l }) hlines
  case clearTwice =>
    have hlines : (clearInterrupt n (clearInterrupt n s)).lines = (clearInterrupt n s).lines :=
      BitVec.eq_of_getLsbD_eq fun k _ => by
        rw [getLsbD_lines_clearInterrupt hn, getLsbD_lines_clearInterrupt hn, Bool.and_assoc, Bool.and_self]
    have hestat : (clearInterrupt n (clearInterrupt n s)).csr.estat = (clearInterrupt n s).csr.estat :=
      BitVec.eq_of_getLsbD_eq fun k _ => by
        rw [getLsbD_estat_clearInterrupt hn, getLsbD_estat_clearInterrupt hn, Bool.and_assoc, Bool.and_self]
    rw [clearInterrupt_frame n (clearInterrupt n s), hlines, hestat]

/-! ## Registration -/

/-- Ranges overlap when they share an address. -/
theorem rangesOverlap_iff (a m b n : Nat) :
    rangesOverlap a m b n = true ↔ ∃ x, a ≤ x ∧ x < a + m ∧ b ≤ x ∧ x < b + n := by
  rw [rangesOverlap, decide_eq_true_iff]
  constructor
  · intro h
    exact ⟨max a b, by omega, by omega, by omega, by omega⟩
  · rintro ⟨x, h1, h2, h3, h4⟩
    omega

theorem malformedRegistration_iff (g : Region) (p : Platform) : malformedRegistration g p = true ↔
    g.size = 0 ∨ 2 ^ 32 < g.base + g.size ∨ ∃ a, g.base ≤ a ∧ a < g.base + g.size ∧
      ((p.pmemBase ≤ a ∧ a < p.pmemBase + p.pmemSize) ∨ ∃ h ∈ p.regions, h.base ≤ a ∧ a < h.base + h.size) := by
  simp only [malformedRegistration, Bool.or_eq_true, beq_iff_eq, decide_eq_true_iff, List.any_eq_true, rangesOverlap_iff,
    or_assoc]
  refine or_congr_right (or_congr_right ⟨?_, ?_⟩)
  · rintro (⟨a, h1, h2, h3, h4⟩ | ⟨h, hh, a, h1, h2, h3, h4⟩)
    · exact ⟨a, h1, h2, .inl ⟨h3, h4⟩⟩
    · exact ⟨a, h1, h2, .inr ⟨h, hh, h3, h4⟩⟩
  · rintro ⟨a, h1, h2, ⟨h3, h4⟩ | ⟨h, hh, h3, h4⟩⟩
    · exact .inl ⟨a, h1, h2, h3, h4⟩
    · exact .inr ⟨h, hh, a, h1, h2, h3, h4⟩

/-- Settles O51: `register_region` splits on the malformed registrations. -/
theorem regionRegistration : Obligations.RegionRegistration := by
  intro g s shared
  have hiff := malformedRegistration_iff g s.platform
  refine ⟨fun hbad => if_pos (hiff.2 hbad), fun hsize hbound hshared => if_neg (mt hiff.1 ?_)⟩
  rintro (hzero | hpast | hsh)
  · exact hsize hzero
  · omega
  · exact hshared hsh

end Sys2Proof.Machine
end

section
/-! PROOFS. The state after reset meets the invariants (70_reset_and_hazards.md R470, R474). -/

namespace Sys2Proof.Machine

/-- CRMD's reset value has no reserved bit, and every other CSR is 0. -/
theorem reservedBitsZero_reset : reservedBitsZero State.reset := by
  intro c
  by_cases hcrmd : c = .crmd
  · subst hcrmd
    decide
  · rw [State.reset, csrStored_resetOf _ _ hcrmd, BitVec.zero_and]

/-- Settles O54: memory is empty, ESTAT is 0, and the test platform is a concrete one. -/
theorem resetMeetsInvariants : Obligations.ResetMeetsInvariants := by
  have hestat : State.reset.csr.estat = 0#32 := rfl
  have hnoMemory : memoryInside State.reset := ⟨fun _ hc => absurd hc List.not_mem_nil, fun _ hc => absurd hc List.not_mem_nil⟩
  have hcause : causeIsRaised State.reset := by unfold causeIsRaised; decide
  have hpending : pendingHaveLines State.reset := fun k _ _ hbit => by
    rw [hestat, BitVec.getLsbD_zero] at hbit
    cases hbit
  exact ⟨by simp [r0IsZero, State.reset, State.resetOf], ⟨rfl, rfl⟩, hnoMemory, reservedBitsZero_reset, hcause, ⟨rfl, rfl⟩,
    hpending, ⟨rfl, by decide⟩, by decide⟩

end Sys2Proof.Machine
end
